-- ==== Sys2Proof/Word.lean ====
section
/-! DEFINITION. The two word types of the engine: the byte of the storages (20_memory R60) and the
64-bit word of the operand and result registers (00_scope R6, `XLEN = 64`). -/
namespace Sys2Proof

/-- A byte of XMEM or OMEM, 8 bits (20_memory R60). -/
abbrev Byte := BitVec 8

/-- An operand or result register, `XLEN` = 64 bits (00_scope R6). -/
abbrev Word := BitVec 64

/-- A finite bit string, written left to right in increasing absolute index (00_scope R10). -/
abbrev BitString := List Bool

end Sys2Proof
end

