-- ==== Sys2Proof/Config.lean ====
section
/-! DEFINITION. The implementation parameters of 00_scope R6, their ranges and defaults, and the one
family of free values the model uses (93_implementation_defined U6). -/
namespace Sys2Proof

/-- The parameters the spec leaves to an implementation (00_scope R6; 93 U12). The widths `XLEN`,
`MAXNB`, `ADDRW` and `EXT_MAX_BYTES` are fixed and stand below as constants. -/
structure Config where
  /-- `NW`, the number of writer units. -/
  nw : Nat
  /-- `NR`, the number of reader units. -/
  nr : Nat
  /-- `OWN_MAX_BYTES`, the largest capacity of one self-owned storage. -/
  ownMaxBytes : Nat
deriving DecidableEq, Repr

/-- `EXT_MAX_BYTES` = 2^61 - 1, also the upper bound of `CAP` and of `OWN_MAX_BYTES` (00_scope R6). -/
def Config.extMaxBytes : Nat := 2 ^ 61 - 1

/-- The number of byte addresses of XMEM, `2^ADDRW` with `ADDRW` = 64 (00_scope R6). -/
def Config.addrSpace : Nat := 2 ^ 64

/-- The defaults of 00_scope R6: one writer, one reader, `OWN_MAX_BYTES` = 2^61 - 1. -/
def Config.default : Config := { nw := 1, nr := 1, ownMaxBytes := 2 ^ 61 - 1 }

/-- The constraints of 00_scope R6. -/
abbrev Config.WellFormed (c : Config) : Prop :=
  (1 ≤ c.nw ∧ c.nw ≤ 16) ∧ (1 ≤ c.nr ∧ c.nr ≤ 16) ∧ c.ownMaxBytes ≤ Config.extMaxBytes

/-- FREE VALUE (log 11): the byte XMEM holds at an address that a command abandoned by reset could
have written; 70_reset R270 calls it unspecified and 93 U6 "any value". First argument: the running
number of the abandoned command (`State.freeCtr`); second: the address. No body: nothing is known. -/
opaque Config.abandonedByte : Nat → Nat → Byte

end Sys2Proof
end

