-- ==== Sys2Proof/Syntax.lean ====
section
/-! DEFINITION. The 32 commands of ILOBB-1 (30_encoding R98), one constructor per row of
spec/opcode_table.json. A constructor's arguments are the fields of the command word that the command
uses: the unit index UID, and where used the type width TW, the field width NB and the origin ORG. The
operands A, B, C and the PAYLOAD travel beside the command word (R90) and stand in `State.pkt`. -/
namespace Sys2Proof

/-- `TW`, the declared type width (30_encoding R93). -/
inductive TypeWidth where
  | w8 | w16 | w32 | w64
deriving DecidableEq, Repr

/-- `ORG`, the seek origin (30_encoding R94); `invalid` is code 3. -/
inductive Origin where
  | fromBegin | fromEnd | fromCurrent | invalid
deriving DecidableEq, Repr

/-- The commands (30_encoding R98). -/
inductive Instr where
  | wInito (u : Nat)
  | wAttach (u : Nat)
  | wFree (u : Nat)
  | wWrite (u : Nat) (tw : TypeWidth) (nb : Nat)
  | wWbit (u : Nat)
  | wAppend (u : Nat)
  | wInsert (u : Nat) (tw : TypeWidth) (nb : Nat)
  | wErase (u : Nat)
  | wResize (u : Nat)
  | wSeek (u : Nat) (org : Origin)
  | wAlign (u : Nat)
  | wReserve (u : Nat)
  | wTell (u : Nat)
  | wNbits (u : Nat)
  | wNbytes (u : Nat)
  | wPtr (u : Nat)
  | wCopy (u : Nat)
  | wDump (u : Nat)
  | rAttach (u : Nat)
  | rAttache (u : Nat)
  | rAttachp (u : Nat)
  | rFree (u : Nat)
  | rReadu (u : Nat) (tw : TypeWidth) (nb : Nat)
  | rReads (u : Nat) (tw : TypeWidth) (nb : Nat)
  | rSeek (u : Nat) (org : Origin)
  | rTell (u : Nat)
  | rLeft (u : Nat)
  | rNbits (u : Nat)
  | rNbytes (u : Nat)
  | rEof (u : Nat)
  | rPtr (u : Nat)
  | rDump (u : Nat)
deriving DecidableEq, Repr

end Sys2Proof
end

