-- ==== Sys2Proof/WellFormed.lean ====
section
/-! DEFINITION. When a command's fields fit the command word (30_encoding R91): UID has 4 bits and NB
has 7. TW and ORG are enumerations and always fit. -/
namespace Sys2Proof

/-- The unit index `UID` the command names (30_encoding R96). -/
def Instr.unitIndex : Instr → Nat
  | .wInito u => u
  | .wAttach u => u
  | .wFree u => u
  | .wWrite u _ _ => u
  | .wWbit u => u
  | .wAppend u => u
  | .wInsert u _ _ => u
  | .wErase u => u
  | .wResize u => u
  | .wSeek u _ => u
  | .wAlign u => u
  | .wReserve u => u
  | .wTell u => u
  | .wNbits u => u
  | .wNbytes u => u
  | .wPtr u => u
  | .wCopy u => u
  | .wDump u => u
  | .rAttach u => u
  | .rAttache u => u
  | .rAttachp u => u
  | .rFree u => u
  | .rReadu u _ _ => u
  | .rReads u _ _ => u
  | .rSeek u _ => u
  | .rTell u => u
  | .rLeft u => u
  | .rNbits u => u
  | .rNbytes u => u
  | .rEof u => u
  | .rPtr u => u
  | .rDump u => u

/-- The field width `NB` (30_encoding R95); 0 for a command that does not use it. -/
def Instr.fieldWidth : Instr → Nat
  | .wInito _ => 0
  | .wAttach _ => 0
  | .wFree _ => 0
  | .wWrite _ _ nb => nb
  | .wWbit _ => 0
  | .wAppend _ => 0
  | .wInsert _ _ nb => nb
  | .wErase _ => 0
  | .wResize _ => 0
  | .wSeek _ _ => 0
  | .wAlign _ => 0
  | .wReserve _ => 0
  | .wTell _ => 0
  | .wNbits _ => 0
  | .wNbytes _ => 0
  | .wPtr _ => 0
  | .wCopy _ => 0
  | .wDump _ => 0
  | .rAttach _ => 0
  | .rAttache _ => 0
  | .rAttachp _ => 0
  | .rFree _ => 0
  | .rReadu _ _ nb => nb
  | .rReads _ _ nb => nb
  | .rSeek _ _ => 0
  | .rTell _ => 0
  | .rLeft _ => 0
  | .rNbits _ => 0
  | .rNbytes _ => 0
  | .rEof _ => 0
  | .rPtr _ => 0
  | .rDump _ => 0

/-- Every field fits its place in the command word (30_encoding R91). -/
abbrev Instr.WellFormed (i : Instr) : Prop := i.unitIndex < 16 ∧ i.fieldWidth < 128

end Sys2Proof
end

