-- ==== Sys2Proof/Decode.lean ====
section
/-! DEFINITION. The command word, its decoder and its encoder (30_encoding R91 to R100). The decoder
makes steps 1 and 2 of R101; steps 3 to 6 need the unit's state and are in Machine/Ops.lean. -/
namespace Sys2Proof

/-- The six fields of format K as numbers (30_encoding R91). -/
structure Fields where
  opc : Nat
  uid : Nat
  tw : Nat
  org : Nat
  nb : Nat
  rsv : Nat
deriving DecidableEq, Repr

/-- Why a command word is no command (30_encoding R100). -/
inductive DecodeError where
  /-- OPC not listed, or RSV non-zero (R101 step 1). -/
  | illOpcode
  /-- OPC listed and RSV zero, but a field the row does not use is non-zero (R101 step 2). -/
  | illField
deriving DecidableEq, Repr

/-- `x[lo+len-1 : lo]` as a number (00_scope R9). -/
def bitSlice (x : BitVec 32) (lo len : Nat) : Nat := x.toNat / 2 ^ lo % 2 ^ len

/-- The fields of a command word (30_encoding R91). -/
def fieldsOf (x : BitVec 32) : Fields :=
  { opc := bitSlice x 0 8, uid := bitSlice x 8 4, tw := bitSlice x 12 2,
    org := bitSlice x 14 2, nb := bitSlice x 16 7, rsv := bitSlice x 23 9 }

/-- The command word with the given fields; they do not overlap, so the OR of R91 is a sum. -/
def packFields (f : Fields) : BitVec 32 :=
  BitVec.ofNat 32 (f.opc + f.uid * 2 ^ 8 + f.tw * 2 ^ 12 + f.org * 2 ^ 14 + f.nb * 2 ^ 16
    + f.rsv * 2 ^ 23)

/-- `TW` code to type width (30_encoding R93). -/
def TypeWidth.ofCode : Nat → TypeWidth
  | 0 => .w8
  | 1 => .w16
  | 2 => .w32
  | _ => .w64

/-- Type width to `TW` code (30_encoding R93). -/
def TypeWidth.code : TypeWidth → Nat
  | .w8 => 0
  | .w16 => 1
  | .w32 => 2
  | .w64 => 3

/-- `ORG` code to origin (30_encoding R94). -/
def Origin.ofCode : Nat → Origin
  | 0 => .fromBegin
  | 1 => .fromEnd
  | 2 => .fromCurrent
  | _ => .invalid

/-- Origin to `ORG` code (30_encoding R94). -/
def Origin.code : Origin → Nat
  | .fromBegin => 0
  | .fromEnd => 1
  | .fromCurrent => 2
  | .invalid => 3

/-- A row that uses UID alone: TW, ORG and NB must be 0 (30_encoding R99). -/
def decodePlain (f : Fields) (i : Instr) : Except DecodeError Instr :=
  if f.tw = 0 ∧ f.org = 0 ∧ f.nb = 0 then .ok i else .error .illField

/-- A row that uses UID, TW and NB: ORG must be 0 (30_encoding R99). -/
def decodeSized (f : Fields) (i : TypeWidth → Nat → Instr) : Except DecodeError Instr :=
  if f.org = 0 then .ok (i (TypeWidth.ofCode f.tw) f.nb) else .error .illField

/-- A row that uses UID and ORG: TW and NB must be 0 (30_encoding R99). -/
def decodeSeek (f : Fields) (i : Origin → Instr) : Except DecodeError Instr :=
  if f.tw = 0 ∧ f.nb = 0 then .ok (i (Origin.ofCode f.org)) else .error .illField

/-- The rows of R98, by OPC; an OPC not listed is illegal (30_encoding R100). -/
def decodeOpcode (f : Fields) : Except DecodeError Instr :=
  match f.opc with
  | 0x01 => decodePlain f (.wInito f.uid)
  | 0x02 => decodePlain f (.wAttach f.uid)
  | 0x03 => decodePlain f (.wFree f.uid)
  | 0x10 => decodeSized f (.wWrite f.uid)
  | 0x11 => decodePlain f (.wWbit f.uid)
  | 0x12 => decodePlain f (.wAppend f.uid)
  | 0x13 => decodeSized f (.wInsert f.uid)
  | 0x14 => decodePlain f (.wErase f.uid)
  | 0x15 => decodePlain f (.wResize f.uid)
  | 0x16 => decodeSeek f (.wSeek f.uid)
  | 0x17 => decodePlain f (.wAlign f.uid)
  | 0x18 => decodePlain f (.wReserve f.uid)
  | 0x19 => decodePlain f (.wTell f.uid)
  | 0x1A => decodePlain f (.wNbits f.uid)
  | 0x1B => decodePlain f (.wNbytes f.uid)
  | 0x1C => decodePlain f (.wPtr f.uid)
  | 0x1D => decodePlain f (.wCopy f.uid)
  | 0x1E => decodePlain f (.wDump f.uid)
  | 0x21 => decodePlain f (.rAttach f.uid)
  | 0x22 => decodePlain f (.rAttache f.uid)
  | 0x23 => decodePlain f (.rAttachp f.uid)
  | 0x24 => decodePlain f (.rFree f.uid)
  | 0x30 => decodeSized f (.rReadu f.uid)
  | 0x31 => decodeSized f (.rReads f.uid)
  | 0x32 => decodeSeek f (.rSeek f.uid)
  | 0x33 => decodePlain f (.rTell f.uid)
  | 0x34 => decodePlain f (.rLeft f.uid)
  | 0x35 => decodePlain f (.rNbits f.uid)
  | 0x36 => decodePlain f (.rNbytes f.uid)
  | 0x37 => decodePlain f (.rEof f.uid)
  | 0x38 => decodePlain f (.rPtr f.uid)
  | 0x39 => decodePlain f (.rDump f.uid)
  | _ => .error .illOpcode

/-- Steps 1 and 2 of the decode checks (30_encoding R101) on the fields. -/
def decodeFields (f : Fields) : Except DecodeError Instr :=
  if f.rsv = 0 then decodeOpcode f else .error .illOpcode

/-- The decoder: total on all command words, rejecting by name (30_encoding R99, R100). -/
def decodeWord (x : BitVec 32) : Except DecodeError Instr := decodeFields (fieldsOf x)

/-- The instruction the decoder reads from a table row's bits. The command word is one 32-bit word of
the packet (30_encoding R90): it has no byte order, so the bits are the word itself. -/
def decodeTableWord (nbits w : Nat) : Option Instr :=
  match decodeWord (BitVec.ofNat 32 (w % 2 ^ nbits)) with
  | .ok i => some i
  | .error _ => none

/-- Fields of a row that uses UID alone. -/
def plainFields (opc u : Nat) : Fields := { opc := opc, uid := u, tw := 0, org := 0, nb := 0, rsv := 0 }

/-- Fields of a row that uses UID, TW and NB. -/
def sizedFields (opc u : Nat) (tw : TypeWidth) (nb : Nat) : Fields :=
  { opc := opc, uid := u, tw := tw.code, org := 0, nb := nb, rsv := 0 }

/-- Fields of a row that uses UID and ORG. -/
def seekFields (opc u : Nat) (org : Origin) : Fields :=
  { opc := opc, uid := u, tw := 0, org := org.code, nb := 0, rsv := 0 }

/-- The fields of each command's word (30_encoding R98; the opcode column). -/
def encodeFields : Instr → Fields
  | .wInito u => plainFields 0x01 u
  | .wAttach u => plainFields 0x02 u
  | .wFree u => plainFields 0x03 u
  | .wWrite u tw nb => sizedFields 0x10 u tw nb
  | .wWbit u => plainFields 0x11 u
  | .wAppend u => plainFields 0x12 u
  | .wInsert u tw nb => sizedFields 0x13 u tw nb
  | .wErase u => plainFields 0x14 u
  | .wResize u => plainFields 0x15 u
  | .wSeek u org => seekFields 0x16 u org
  | .wAlign u => plainFields 0x17 u
  | .wReserve u => plainFields 0x18 u
  | .wTell u => plainFields 0x19 u
  | .wNbits u => plainFields 0x1A u
  | .wNbytes u => plainFields 0x1B u
  | .wPtr u => plainFields 0x1C u
  | .wCopy u => plainFields 0x1D u
  | .wDump u => plainFields 0x1E u
  | .rAttach u => plainFields 0x21 u
  | .rAttache u => plainFields 0x22 u
  | .rAttachp u => plainFields 0x23 u
  | .rFree u => plainFields 0x24 u
  | .rReadu u tw nb => sizedFields 0x30 u tw nb
  | .rReads u tw nb => sizedFields 0x31 u tw nb
  | .rSeek u org => seekFields 0x32 u org
  | .rTell u => plainFields 0x33 u
  | .rLeft u => plainFields 0x34 u
  | .rNbits u => plainFields 0x35 u
  | .rNbytes u => plainFields 0x36 u
  | .rEof u => plainFields 0x37 u
  | .rPtr u => plainFields 0x38 u
  | .rDump u => plainFields 0x39 u

/-- The command word of an instruction (30_encoding R91, R98). -/
def encode (i : Instr) : BitVec 32 := packFields (encodeFields i)

/-- One row of the opcode map as 30_encoding R98 prints it: a word `x` selects the row iff
`x & mask = match`. -/
structure OpcodeRow where
  mnemonic : String
  mask : BitVec 32
  pattern : BitVec 32
deriving DecidableEq, Repr

/-- The opcode map's masks and matches, as printed (30_encoding R98). `decodeWord` is not made from
it: that the two agree is a statement. -/
def opcodeMap : List OpcodeRow :=
  [ { mnemonic := "W.INITO", mask := 0xFFFFF0FF#32, pattern := 0x00000001#32 },
    { mnemonic := "W.ATTACH", mask := 0xFFFFF0FF#32, pattern := 0x00000002#32 },
    { mnemonic := "W.FREE", mask := 0xFFFFF0FF#32, pattern := 0x00000003#32 },
    { mnemonic := "W.WRITE", mask := 0xFF80C0FF#32, pattern := 0x00000010#32 },
    { mnemonic := "W.WBIT", mask := 0xFFFFF0FF#32, pattern := 0x00000011#32 },
    { mnemonic := "W.APPEND", mask := 0xFFFFF0FF#32, pattern := 0x00000012#32 },
    { mnemonic := "W.INSERT", mask := 0xFF80C0FF#32, pattern := 0x00000013#32 },
    { mnemonic := "W.ERASE", mask := 0xFFFFF0FF#32, pattern := 0x00000014#32 } ] ++
  [ { mnemonic := "W.RESIZE", mask := 0xFFFFF0FF#32, pattern := 0x00000015#32 },
    { mnemonic := "W.SEEK", mask := 0xFFFF30FF#32, pattern := 0x00000016#32 },
    { mnemonic := "W.ALIGN", mask := 0xFFFFF0FF#32, pattern := 0x00000017#32 },
    { mnemonic := "W.RESERVE", mask := 0xFFFFF0FF#32, pattern := 0x00000018#32 },
    { mnemonic := "W.TELL", mask := 0xFFFFF0FF#32, pattern := 0x00000019#32 },
    { mnemonic := "W.NBITS", mask := 0xFFFFF0FF#32, pattern := 0x0000001A#32 },
    { mnemonic := "W.NBYTES", mask := 0xFFFFF0FF#32, pattern := 0x0000001B#32 },
    { mnemonic := "W.PTR", mask := 0xFFFFF0FF#32, pattern := 0x0000001C#32 } ] ++
  [ { mnemonic := "W.COPY", mask := 0xFFFFF0FF#32, pattern := 0x0000001D#32 },
    { mnemonic := "W.DUMP", mask := 0xFFFFF0FF#32, pattern := 0x0000001E#32 },
    { mnemonic := "R.ATTACH", mask := 0xFFFFF0FF#32, pattern := 0x00000021#32 },
    { mnemonic := "R.ATTACHE", mask := 0xFFFFF0FF#32, pattern := 0x00000022#32 },
    { mnemonic := "R.ATTACHP", mask := 0xFFFFF0FF#32, pattern := 0x00000023#32 },
    { mnemonic := "R.FREE", mask := 0xFFFFF0FF#32, pattern := 0x00000024#32 },
    { mnemonic := "R.READU", mask := 0xFF80C0FF#32, pattern := 0x00000030#32 },
    { mnemonic := "R.READS", mask := 0xFF80C0FF#32, pattern := 0x00000031#32 } ] ++
  [ { mnemonic := "R.SEEK", mask := 0xFFFF30FF#32, pattern := 0x00000032#32 },
    { mnemonic := "R.TELL", mask := 0xFFFFF0FF#32, pattern := 0x00000033#32 },
    { mnemonic := "R.LEFT", mask := 0xFFFFF0FF#32, pattern := 0x00000034#32 },
    { mnemonic := "R.NBITS", mask := 0xFFFFF0FF#32, pattern := 0x00000035#32 },
    { mnemonic := "R.NBYTES", mask := 0xFFFFF0FF#32, pattern := 0x00000036#32 },
    { mnemonic := "R.EOF", mask := 0xFFFFF0FF#32, pattern := 0x00000037#32 },
    { mnemonic := "R.PTR", mask := 0xFFFFF0FF#32, pattern := 0x00000038#32 },
    { mnemonic := "R.DUMP", mask := 0xFFFFF0FF#32, pattern := 0x00000039#32 } ]

/-- The mnemonic of a command (30_encoding R98). -/
def Instr.mnemonic : Instr → String
  | .wInito _ => "W.INITO"
  | .wAttach _ => "W.ATTACH"
  | .wFree _ => "W.FREE"
  | .wWrite _ _ _ => "W.WRITE"
  | .wWbit _ => "W.WBIT"
  | .wAppend _ => "W.APPEND"
  | .wInsert _ _ _ => "W.INSERT"
  | .wErase _ => "W.ERASE"
  | .wResize _ => "W.RESIZE"
  | .wSeek _ _ => "W.SEEK"
  | .wAlign _ => "W.ALIGN"
  | .wReserve _ => "W.RESERVE"
  | .wTell _ => "W.TELL"
  | .wNbits _ => "W.NBITS"
  | .wNbytes _ => "W.NBYTES"
  | .wPtr _ => "W.PTR"
  | .wCopy _ => "W.COPY"
  | .wDump _ => "W.DUMP"
  | .rAttach _ => "R.ATTACH"
  | .rAttache _ => "R.ATTACHE"
  | .rAttachp _ => "R.ATTACHP"
  | .rFree _ => "R.FREE"
  | .rReadu _ _ _ => "R.READU"
  | .rReads _ _ _ => "R.READS"
  | .rSeek _ _ => "R.SEEK"
  | .rTell _ => "R.TELL"
  | .rLeft _ => "R.LEFT"
  | .rNbits _ => "R.NBITS"
  | .rNbytes _ => "R.NBYTES"
  | .rEof _ => "R.EOF"
  | .rPtr _ => "R.PTR"
  | .rDump _ => "R.DUMP"

/-- Whether UID names a writer (`W.*`) or a reader (`R.*`) (30_encoding R91, R96). -/
def Instr.namesWriter : Instr → Bool
  | .wInito _ => true
  | .wAttach _ => true
  | .wFree _ => true
  | .wWrite _ _ _ => true
  | .wWbit _ => true
  | .wAppend _ => true
  | .wInsert _ _ _ => true
  | .wErase _ => true
  | .wResize _ => true
  | .wSeek _ _ => true
  | .wAlign _ => true
  | .wReserve _ => true
  | .wTell _ => true
  | .wNbits _ => true
  | .wNbytes _ => true
  | .wPtr _ => true
  | .wCopy _ => true
  | .wDump _ => true
  | .rAttach _ => false
  | .rAttache _ => false
  | .rAttachp _ => false
  | .rFree _ => false
  | .rReadu _ _ _ => false
  | .rReads _ _ _ => false
  | .rSeek _ _ => false
  | .rTell _ => false
  | .rLeft _ => false
  | .rNbits _ => false
  | .rNbytes _ => false
  | .rEof _ => false
  | .rPtr _ => false
  | .rDump _ => false

end Sys2Proof
end

