-- ==== Sys2Proof/Machine/State.lean ====
section
/-! DEFINITION. The state of the engine (10_state), the packets of the command port (30_encoding R90,
R92), what the host will do next, the status and cause names (60_exceptions R231, R232), the reasons a
step can stop, and the state after reset (10_state R41). All plain data. -/
namespace Sys2Proof.Machine

/-- A byte memory: (address, byte) pairs in one canonical form (`Memory.wf`, Machine/Ops.lean). -/
abbrev Memory := List Host.Cell

/-- `ST` of a writer (10_state R23). Code 3 never occurs (93 U10). -/
inductive WriterLife where
  | unbound | ready | faulted
deriving DecidableEq, Repr

/-- `ST` of a reader (10_state R30). Codes 2 and 3 never occur (93 U10). -/
inductive ReaderLife where
  | unbound | ready
deriving DecidableEq, Repr

/-- `MODE` of a writer (10_state R23, R26). -/
inductive StorageMode where
  | owned | external
deriving DecidableEq, Repr

/-- A writer unit `W[w]` (10_state R23) with its private storage `OMEM[w]` (R27). CAP, VALID and CUR
are natural numbers below 2^64 (00_scope R7; log 6). -/
structure Writer where
  st : WriterLife
  mode : StorageMode
  /-- `BASE`: XMEM address of byte 0 of the external region; 0 in OWNED mode. -/
  base : Word
  /-- `CAP`: capacity in bytes. -/
  cap : Nat
  /-- `VALID`: the valid-bits counter. -/
  valid : Nat
  /-- `CUR`: the write cursor, an absolute bit position. -/
  cur : Nat
  /-- `OMEM[w]`: the bytes of owned storage that are not 0 (10_state R27; log 15). -/
  omem : Memory
deriving DecidableEq, Repr

/-- A reader unit `R[r]` (10_state R30). -/
structure Reader where
  st : ReaderLife
  base : Word
  cap : Nat
  valid : Nat
  cur : Nat
deriving DecidableEq, Repr

/-- A writer after reset (10_state R41). -/
def Writer.reset : Writer :=
  { st := .unbound, mode := .owned, base := 0, cap := 0, valid := 0, cur := 0, omem := [] }

/-- A reader after reset (10_state R41). -/
def Reader.reset : Reader := { st := .unbound, base := 0, cap := 0, valid := 0, cur := 0 }

/-- `STATUS` (60_exceptions R231); codes 13 to 15 are never produced. Codes: `Status.code`. -/
inductive Status where
  | ok | readErr | writeErr | seekErr | appendErr | insertErr | eraseErr | reserveErr
  | illegal | config | noMem | resizeFault | faulted
deriving DecidableEq, Repr

/-- `CAUSE` (60_exceptions R232). Codes: `Cause.code`. `noCause` is the table's 0x00 "none". -/
inductive Cause where
  | noCause
  | readNobits | readWidth
  | writeWidth | writeCapacity
  | seekNegative | seekBeyond | seekOrigin
  | appendCapacity
  | insertRange | insertCapacity
  | eraseRange
  | reserveExternal
  | illOpcode | illField | illUnit | illPayload | illState | illMode
  | cfgNvalid | cfgLength | cfgWrap | cfgZero
  | nomemGrow
  | resizeExtCapacity
  | unitFaulted
deriving DecidableEq, Repr

/-- The command packet (30_encoding R90): the command word, three operands, the byte payload. -/
structure Packet where
  cmd : BitVec 32
  a : Word
  b : Word
  c : Word
  payload : List Byte
deriving DecidableEq, Repr

/-- What the packet registers hold between commands: the operands live for one command (10_state
R20, R39). DESIGN CHOICE (log 9): zeros and an empty payload. -/
def Packet.none : Packet := { cmd := 0, a := 0, b := 0, c := 0, payload := [] }

/-- The response packet (30_encoding R92), with the numeric codes the host sees. -/
structure Response where
  status : BitVec 4
  cause : BitVec 8
  res : Word
  errlog : BitVec 16
  dout : List Byte
deriving DecidableEq, Repr

/-- What the host can do (70_reset_and_hazards R278). Reading XMEM has no effect on the engine. -/
inductive HostAct where
  /-- Present a command packet. -/
  | command (p : Packet)
  /-- Store a byte to XMEM between two commands. -/
  | store (addr : Word) (v : Byte)
  /-- Apply reset between two commands. -/
  | reset
  /-- Present a command packet and apply reset while it executes (R270, 93 U6). -/
  | resetDuring (p : Packet)
deriving DecidableEq, Repr

/-- The machine: the engine's registers and storages (10_state), XMEM, and the host's side of the
command port. -/
structure State where
  /-- `OWN_MAX_BYTES` (00_scope R6). -/
  ownMax : Nat
  /-- The writer units `W[0] .. W[NW-1]` (10_state R22). -/
  writers : List Writer
  /-- The reader units `R[0] .. R[NR-1]` (10_state R22). -/
  readers : List Reader
  /-- The platform memory XMEM (20_memory R60, R61). -/
  xmem : Memory
  /-- `STATUS` (10_state R33). -/
  status : Status
  /-- `CAUSE` (10_state R34). -/
  cause : Cause
  /-- `RES` (10_state R35). -/
  res : Word
  /-- `ERRLOG` (10_state R36). -/
  errlog : BitVec 16
  /-- `DOUT` of the most recent command (10_state R37). -/
  dout : List Byte
  /-- `CMD`, `A`, `B`, `C`, `PAYLOAD` of the command in execution (00_scope R11, 30_encoding R90). -/
  pkt : Packet
  /-- The model's own: what the host will do next (10_state R21, R39; log 1). -/
  host : List HostAct
  /-- The model's own: the response packets delivered so far, oldest first (30_encoding R92; log 10). -/
  responses : List Response
  /-- The model's own: the number of the next free value (93 U6; log 11). -/
  freeCtr : Nat
deriving DecidableEq, Repr

/-- Why the machine stops. The spec's own faults and errors are no stops: they end a command with a
status (60_exceptions R230) and the machine goes on. -/
inductive Fault where
  /-- Raised by `admitWriter` and `admitReader` when a READY unit's registers break 10_state R25 or
  R31, so that the command would touch storage bytes that do not exist (20_memory R62, R66: never
  evaluated). No step from a state that meets R25 and R31 raises it. SAFE (log 8). -/
  | unitInvariantBroken
deriving DecidableEq, Repr

/-- Why a step has no meaning. -/
inductive Refusal where
  /-- Raised by `exec` for a command that has no meaning in this model; no arm raises it. SAFE. -/
  | notModelled (mnemonic : String)
deriving DecidableEq, Repr

/-- The engine with parameters `c` after reset (10_state R41, 70_reset R270), nothing presented and
XMEM holding what unlisted bytes read as (log 3). -/
def State.resetWith (c : Config) : State :=
  { ownMax := c.ownMaxBytes
    writers := List.replicate c.nw Writer.reset
    readers := List.replicate c.nr Reader.reset
    xmem := []
    status := .ok, cause := .noCause, res := 0, errlog := 0, dout := []
    pkt := Packet.none, host := [], responses := [], freeCtr := 0 }

/-- The state after reset, with the default parameters of 00_scope R6. -/
def State.reset : State := State.resetWith Config.default

end Sys2Proof.Machine
end

