-- ==== Sys2Proof/Machine/Flags.lean ====
section
/-! DEFINITION. The numeric codes of the response registers and of the mode fields (60_exceptions R231,
R232; 10_state R23, R30), the kind of each cause, and the sticky flag register ERRLOG (10_state R36). -/
namespace Sys2Proof.Machine

/-- The STATUS codes (60_exceptions R231). -/
def Status.code : Status → BitVec 4
  | .ok => 0
  | .readErr => 1
  | .writeErr => 2
  | .seekErr => 3
  | .appendErr => 4
  | .insertErr => 5
  | .eraseErr => 6
  | .reserveErr => 7
  | .illegal => 8
  | .config => 9
  | .noMem => 10
  | .resizeFault => 11
  | .faulted => 12

/-- The CAUSE codes (60_exceptions R232). -/
def Cause.code : Cause → BitVec 8
  | .noCause => 0x00
  | .readNobits => 0x11
  | .readWidth => 0x12
  | .writeWidth => 0x21
  | .writeCapacity => 0x22
  | .seekNegative => 0x31
  | .seekBeyond => 0x32
  | .seekOrigin => 0x33
  | .appendCapacity => 0x41
  | .insertRange => 0x51
  | .insertCapacity => 0x52
  | .eraseRange => 0x61
  | .reserveExternal => 0x71
  | .illOpcode => 0x81
  | .illField => 0x82
  | .illUnit => 0x83
  | .illPayload => 0x84
  | .illState => 0x85
  | .illMode => 0x86
  | .cfgNvalid => 0x91
  | .cfgLength => 0x92
  | .cfgWrap => 0x93
  | .cfgZero => 0x94
  | .nomemGrow => 0xA1
  | .resizeExtCapacity => 0xB1
  | .unitFaulted => 0xC1

/-- The error kind a cause belongs to (60_exceptions R232, the kind each cause numbers within). -/
def Cause.status : Cause → Status
  | .noCause => .ok
  | .readNobits => .readErr
  | .readWidth => .readErr
  | .writeWidth => .writeErr
  | .writeCapacity => .writeErr
  | .seekNegative => .seekErr
  | .seekBeyond => .seekErr
  | .seekOrigin => .seekErr
  | .appendCapacity => .appendErr
  | .insertRange => .insertErr
  | .insertCapacity => .insertErr
  | .eraseRange => .eraseErr
  | .reserveExternal => .reserveErr
  | .illOpcode => .illegal
  | .illField => .illegal
  | .illUnit => .illegal
  | .illPayload => .illegal
  | .illState => .illegal
  | .illMode => .illegal
  | .cfgNvalid => .config
  | .cfgLength => .config
  | .cfgWrap => .config
  | .cfgZero => .config
  | .nomemGrow => .noMem
  | .resizeExtCapacity => .resizeFault
  | .unitFaulted => .faulted

/-- The ERRLOG bit a command sets that ends with this status: bit k for STATUS = k, k = 1 .. 15; none
for OK, since bit 0 is always 0 (10_state R36). -/
def Status.logBit (st : Status) : BitVec 16 :=
  if st = .ok then 0 else 1#16 <<< st.code.toNat

/-- The `ST` code of a writer (10_state R23). -/
def WriterLife.code : WriterLife → BitVec 2
  | .unbound => 0
  | .ready => 1
  | .faulted => 2

/-- The `ST` code of a reader (10_state R30). -/
def ReaderLife.code : ReaderLife → BitVec 2
  | .unbound => 0
  | .ready => 1

/-- The `MODE` code (10_state R23). -/
def StorageMode.code : StorageMode → BitVec 1
  | .owned => 0
  | .external => 1

end Sys2Proof.Machine
end

