-- ==== Sys2Proof/Machine/Operands.lean ====
section
/-! DEFINITION. Operand forms (30_encoding R93, R94, R97), the arithmetic of 00_scope R8 and R9, and
the bit order of a buffer (00_scope R10). -/
namespace Sys2Proof.Machine

/-- `ceil8(x)`: the number of bytes needed to hold x bits (00_scope R8). -/
def ceil8 (x : Nat) : Nat := (x + 7) / 8

/-- `mask(k) = 2^k - 1` as a value of width `w` (00_scope R8). -/
def mask (w k : Nat) : BitVec w := BitVec.ofNat w (2 ^ k - 1)

/-- `tw(TW) = 8 << TW`, the declared type width in bits (30_encoding R93). -/
def typeBits (t : TypeWidth) : Nat := 8 <<< t.code

/-- `A` as a signed offset: two's complement, 64 bits (30_encoding R97, 43 R187). -/
def signedOffset (a : Word) : Int :=
  if a.toNat < 2 ^ 63 then (a.toNat : Int) else (a.toNat : Int) - 2 ^ 64

/-- The base position of a seek (30_encoding R94); none for the invalid code 3. -/
def originBase (org : Origin) (valid cur : Nat) : Option Nat :=
  match org with
  | .fromBegin => some 0
  | .fromEnd => some valid
  | .fromCurrent => some cur
  | .invalid => none

/-- `bit(S, i)`: absolute bit 0 is the most significant bit of byte 0 (00_scope R10). -/
def bitAt (bytes : Nat → Byte) (i : Nat) : Bool := (bytes (i / 8)).getLsbD (7 - i % 8)

/-- `bits(S, a, b)`, half open (00_scope R10). -/
def bitsBetween (bytes : Nat → Byte) (a b : Nat) : BitString :=
  (List.range (b - a)).map fun j => bitAt bytes (a + j)

/-- `val(s)`: the first bit is the most significant (00_scope R10). -/
def bitsVal (s : BitString) : Nat := s.foldl (fun acc b => 2 * acc + b.toNat) 0

/-- `str(v, n)`: the n-bit string `s_j = v[n-1-j]` (00_scope R10). -/
def bitsStr (v : Word) (n : Nat) : BitString := (List.range n).map fun j => v.getLsbD (n - 1 - j)

/-- The character `0` or `1` of a dump as its byte, `0x30 + bit` (43 R186, 44 R211). -/
def dumpChar (b : Bool) : Byte := if b then 0x31 else 0x30

/-- The 16-bit working window over two bytes, the lower-addressed byte high (20_memory R71, R73). -/
def windowOf (hi lo : Byte) : BitVec 16 := hi.setWidth 16 <<< 8 ||| lo.setWidth 16

/-- The high byte of the window (20_memory R71). -/
def windowHi (w : BitVec 16) : Byte := (w >>> 8).setWidth 8

/-- The low byte of the window (20_memory R71). -/
def windowLo (w : BitVec 16) : Byte := w.setWidth 8

/-- Insert the k-bit chunk `v` into a `w`-bit window at shift `sh`: clear exactly the destination span,
then OR the chunk in (20_memory R71). -/
def insertChunk {w : Nat} (win : BitVec w) (v : Byte) (k sh : Nat) : BitVec w :=
  win &&& ~~~(mask w k <<< sh) ||| v.setWidth w <<< sh

/-- Sign extension of the n-bit field `raw` into a T-bit value: bits n .. T-1 are forced to 1 when bit
n-1 is 1 (44 R203). -/
def signFill (raw : Word) (n t : Nat) : Word :=
  if raw.getLsbD (n - 1) then raw ||| (mask 64 t &&& ~~~mask 64 n) else raw

/-- `sext_64` of a value of width `t` (00_scope R9). -/
def signExtend (v : Word) (t : Nat) : Word :=
  if v.getLsbD (t - 1) then v ||| ~~~mask 64 t else v

/-- The cause of a decode error (30_encoding R100). -/
def decodeCause : DecodeError → Cause
  | .illOpcode => .illOpcode
  | .illField => .illField

end Sys2Proof.Machine
end

