-- ==== Sys2Proof/Machine/Ops.lean ====
section
/-! DEFINITION. The shared operations: byte memories; storages and the two bit primitives (20_memory);
the procedures EnsureCap, CheckCap, WriteField, Extract, Truncate, TailWrite, Seek and ReadField (41 to
44); ending a command, successful or not (60_exceptions R243); the decode checks 3 to 6 (30_encoding
R101). -/
namespace Sys2Proof.Machine

/-! ### Byte memories -/

/-- What an unlisted address reads as. OMEM: new bytes are 0 (10_state R27). XMEM: DESIGN CHOICE,
UNSAFE (log 3): the spec gives no contents of XMEM before the host stores to it. -/
def Memory.fill : Byte := 0

/-- `MemRead(sp, a, 1)` (00_scope R12, 20_memory R61). -/
def Memory.read : Memory → Nat → Byte
  | [], _ => Memory.fill
  | cell :: m, a => if cell.1 = a then cell.2 else Memory.read m a

/-- The memory without an entry for `a`. -/
def Memory.drop (m : Memory) (a : Nat) : Memory := m.filter fun cell => decide (cell.1 ≠ a)

/-- The entry (a, v) put before the first entry of a higher address. -/
def Memory.insert : Memory → Nat → Byte → Memory
  | [], a, v => [(a, v)]
  | cell :: m, a, v =>
    if a < cell.1 then (a, v) :: cell :: m else cell :: Memory.insert m a v

/-- `MemWrite(sp, a, 1, v)` (00_scope R12, 20_memory R61), keeping the canonical form. -/
def Memory.write (m : Memory) (a : Nat) (v : Byte) : Memory :=
  if v = Memory.fill then m.drop a else Memory.insert (m.drop a) a v

/-- The bytes at index `n` and above cease to exist (10_state R27). -/
def Memory.cut (m : Memory) (n : Nat) : Memory := m.filter fun cell => decide (cell.1 < n)

/-- The canonical form: addresses strictly rising, no entry equal to what an unlisted address reads as. -/
abbrev Memory.wf (m : Memory) : Prop :=
  m.Pairwise (fun c d => c.1 < d.1) ∧ ∀ c ∈ m, c.2 ≠ Memory.fill

/-! ### Storages (20_memory R62) -/

/-- A writer together with the memory its storage may lie in: what a writer command works on. -/
structure WriterView where
  unit : Writer
  xmem : Memory
deriving DecidableEq, Repr

/-- A reader together with XMEM: what a reader command works on. -/
structure ReaderView where
  unit : Reader
  xmem : Memory
deriving DecidableEq, Repr

/-- The XMEM address of storage byte `k` of a region at `base` (10_state R29, R30). Exact, not modulo
2^64 (00_scope R7). -/
def regionAddr (base : Word) (k : Nat) : Nat := base.toNat + k

/-- `S_u[k]` of a writer (20_memory R62). -/
def WriterView.byte (v : WriterView) (k : Nat) : Byte :=
  match v.unit.mode with
  | .owned => v.unit.omem.read k
  | .external => v.xmem.read (regionAddr v.unit.base k)

/-- `S_u[k]` of a reader (20_memory R62). -/
def ReaderView.byte (v : ReaderView) (k : Nat) : Byte := v.xmem.read (regionAddr v.unit.base k)

/-- `S_u[k] <- b` (20_memory R62); only a writer has it (10_state R32). -/
def WriterView.setByte (v : WriterView) (k : Nat) (b : Byte) : WriterView :=
  match v.unit.mode with
  | .owned => { v with unit := { v.unit with omem := v.unit.omem.write k b } }
  | .external => { v with xmem := v.xmem.write (regionAddr v.unit.base k) b }

/-- `CUR <- c`. -/
def WriterView.setCur (v : WriterView) (c : Nat) : WriterView :=
  { v with unit := { v.unit with cur := c } }

/-- `VALID <- n`. -/
def WriterView.setValid (v : WriterView) (n : Nat) : WriterView :=
  { v with unit := { v.unit with valid := n } }

/-- `CAP <- n` of OWNED storage (10_state R27). Growing: the bytes from the old CAP on are new and 0,
which is what unlisted bytes read as. Shrinking: the bytes at index `n` and above cease to exist. -/
def WriterView.setOwnedCap (v : WriterView) (n : Nat) : WriterView :=
  { v with unit := { v.unit with cap := n, omem := v.unit.omem.cut (min v.unit.cap n) } }

/-- `W[w].CUR <- c + k; VALID <- max(VALID, c + k)` with c the cursor (20_memory R70). -/
def WriterView.advance (v : WriterView) (k : Nat) : WriterView :=
  { v with unit :=
      { v.unit with cur := v.unit.cur + k, valid := max v.unit.valid (v.unit.cur + k) } }

/-! ### The bit primitives (20_memory R70 to R73) -/

/-- `PutChunk(w, v, k)`, the window algorithm of R71: the second byte is touched only when the chunk
straddles the byte boundary (R66). -/
def putChunk (v : WriterView) (chunk : Byte) (k : Nat) : WriterView :=
  let i := v.unit.cur / 8
  let o := v.unit.cur % 8
  if o + k ≤ 8 then
    (v.setByte i (insertChunk (v.byte i) chunk k (8 - o - k))).advance k
  else
    let win := insertChunk (windowOf (v.byte i) (v.byte (i + 1))) chunk k (16 - o - k)
    ((v.setByte i (windowHi win)).setByte (i + 1) (windowLo win)).advance k

/-- The value `GetChunk` reads: k bits at absolute bit `c` (20_memory R73). -/
def chunkAt (bytes : Nat → Byte) (c k : Nat) : Byte :=
  let i := c / 8
  let o := c % 8
  if o + k ≤ 8 then bytes i >>> (8 - o - k) &&& mask 8 k
  else ((windowOf (bytes i) (bytes (i + 1)) >>> (16 - o - k)) &&& mask 16 k).setWidth 8

/-- `R[r].CUR <- c + k` (20_memory R72). -/
def ReaderView.advance (v : ReaderView) (k : Nat) : ReaderView :=
  { v with unit := { v.unit with cur := v.unit.cur + k } }

/-- `GetChunk(r, k)`: the chunk and the advanced reader (20_memory R72, R73). -/
def getChunk (v : ReaderView) (k : Nat) : Byte × ReaderView :=
  (chunkAt v.byte v.unit.cur k, v.advance k)

/-! ### Field write and field read (41 R140, 44 R200) -/

/-- The whole bytes of WriteField: `(value >> 8i) & 0xFF` for i = q-1 down to 0 (41 R140). -/
def writeWholeBytes (v : WriterView) (value : Word) : Nat → WriterView
  | 0 => v
  | i + 1 => writeWholeBytes (putChunk v ((value >>> (8 * i)).setWidth 8) 8) value i

/-- `WriteField(w, value, n)`: the leading partial chunk, then whole bytes (41 R140). -/
def writeField (v : WriterView) (value : Word) (n : Nat) : WriterView :=
  let q := n / 8
  let r := n % 8
  let lead := if r > 0 then putChunk v ((value >>> (8 * q)).setWidth 8 &&& mask 8 r) r else v
  writeWholeBytes lead value q

/-- `repeat q times: acc = (acc << 8) | GetChunk(r, 8)` (44 R200). -/
def readWholeBytes (v : ReaderView) (acc : Word) : Nat → Word × ReaderView
  | 0 => (acc, v)
  | q + 1 =>
    let g := getChunk v 8
    readWholeBytes g.2 (acc <<< 8 ||| g.1.setWidth 64) q

/-- `ReadField(r, n)`: the leading partial chunk, then whole bytes (44 R200). -/
def readField (v : ReaderView) (n : Nat) : Word × ReaderView :=
  let q := n / 8
  let k := n % 8
  if k > 0 then
    let g := getChunk v k
    readWholeBytes g.2 (g.1.setWidth 64) q
  else readWholeBytes v 0 q

/-! ### Capacity (41 R143, 42 R169) -/

/-- `CheckCap(w, needBits, Kind, cause)`: the checks alone (42 R169). -/
def checkCap (own : Nat) (v : WriterView) (needBits : Nat) (cause : Cause) : Option Cause :=
  match v.unit.mode with
  | .external => if needBits > 8 * v.unit.cap then some cause else none
  | .owned => if ceil8 needBits > own then some .nomemGrow else none

/-- The growth of EnsureCap: OWNED storage gains zero bytes up to `need` (41 R143, 42 R168). -/
def growOwned (v : WriterView) (need : Nat) : WriterView :=
  if need > v.unit.cap then v.setOwnedCap need else v

/-- `EnsureCap(w, needBits, Kind, cause)` (41 R143). -/
def ensureCap (own : Nat) (v : WriterView) (needBits : Nat) (cause : Cause) :
    Except Cause WriterView :=
  match v.unit.mode with
  | .external => if needBits > 8 * v.unit.cap then .error cause else .ok v
  | .owned =>
    if ceil8 needBits > own then .error .nomemGrow else .ok (growOwned v (ceil8 needBits))

/-! ### Structural edits (42 R160 to R162) -/

/-- `Extract(w, a, b)` (42 R160). -/
def extractBits (v : WriterView) (a b : Nat) : BitString := bitsBetween v.byte a b

/-- `S_w[k] <- 0` for `n` bytes from index `k` on (42 R161). -/
def zeroBytes (v : WriterView) (k : Nat) : Nat → WriterView
  | 0 => v
  | n + 1 => zeroBytes (v.setByte k 0) (k + 1) n

/-- Mask the last retained byte when the cut is inside a byte (42 R161). -/
def maskLastByte (v : WriterView) (len : Nat) : WriterView :=
  if len % 8 = 0 then v
  else v.setByte (len / 8) (v.byte (len / 8) &&& 0xFF#8 <<< (8 - len % 8))

/-- Drop the bytes a cut leaves unused: OWNED storage shrinks to fit, EXTERNAL bytes that held valid
content become 0 (42 R161). -/
def dropTail (v : WriterView) (len old : Nat) : WriterView :=
  match v.unit.mode with
  | .owned => v.setOwnedCap (ceil8 len)
  | .external => zeroBytes v (ceil8 len) (ceil8 old - ceil8 len)

/-- `Truncate(w, L)` (42 R161); CUR is left to the caller. -/
def truncateTo (v : WriterView) (len : Nat) : WriterView :=
  if len = v.unit.valid then v
  else (dropTail (maskLastByte v len) len v.unit.valid).setValid len

/-- The groups of 8 bits of TailWrite, the last one of 1 to 8 bits (42 R162). The counter bounds the
number of groups. -/
def writeGroups : Nat → WriterView → BitString → WriterView
  | 0, v, _ => v
  | n + 1, v, s =>
    match s with
    | [] => v
    | _ :: _ =>
      writeGroups n (putChunk v (BitVec.ofNat 8 (bitsVal (s.take 8))) (s.take 8).length) (s.drop 8)

/-- `TailWrite(w, s)`: write s at the end of the valid content (42 R162). -/
def tailWrite (v : WriterView) (s : BitString) : WriterView :=
  writeGroups s.length (v.setCur v.unit.valid) s

/-! ### Seek (43 R187) -/

/-- The position `Seek(u, org, a)` stores in CUR, or the cause it raises (43 R187). -/
def seekTarget (org : Origin) (a : Word) (valid cur : Nat) : Except Cause Nat :=
  match originBase org valid cur with
  | none => .error .seekOrigin
  | some base =>
    let t : Int := (base : Int) + signedOffset a
    if t < 0 then .error .seekNegative
    else if t > (valid : Int) then .error .seekBeyond
    else .ok t.toNat

/-! ### Units and the invariants of their registers -/

/-- `NW`, the number of writer units the engine holds (00_scope R6, 10_state R22). -/
def State.nw (s : State) : Nat := s.writers.length

/-- `NR`, the number of reader units the engine holds (00_scope R6, 10_state R22). -/
def State.nr (s : State) : Nat := s.readers.length

/-- `W[w]`; the default is never reached below `NW`. -/
def State.writer (s : State) (w : Nat) : Writer := s.writers.getD w Writer.reset

/-- `R[r]`; the default is never reached below `NR`. -/
def State.reader (s : State) (r : Nat) : Reader := s.readers.getD r Reader.reset

/-- Store the registers and owned storage of writer `w`. -/
def State.setWriter (s : State) (w : Nat) (x : Writer) : State :=
  { s with writers := s.writers.set w x }

/-- Store the registers of reader `r`. -/
def State.setReader (s : State) (r : Nat) (x : Reader) : State :=
  { s with readers := s.readers.set r x }

/-- What writer `w`'s commands work on. -/
def State.writerView (s : State) (w : Nat) : WriterView := { unit := s.writer w, xmem := s.xmem }

/-- What reader `r`'s commands work on. -/
def State.readerView (s : State) (r : Nat) : ReaderView := { unit := s.reader r, xmem := s.xmem }

/-- Store a writer view back: the unit and XMEM. -/
def State.commit (s : State) (w : Nat) (v : WriterView) : State :=
  { s with writers := s.writers.set w v.unit, xmem := v.xmem }

/-- The register invariants of a READY writer (10_state R25, with CAP's legal range of R23). -/
abbrev Writer.Sound (own : Nat) (w : Writer) : Prop :=
  w.cur ≤ w.valid ∧ w.valid ≤ 8 * w.cap ∧ w.cap ≤ Config.extMaxBytes ∧
  (w.mode = .external → w.base.toNat + w.cap ≤ Config.addrSpace) ∧
  (w.mode = .owned → w.cap ≤ own ∧ w.base = 0)

/-- The register invariants of a READY reader (10_state R31, with CAP's legal range of R30). -/
abbrev Reader.Sound (r : Reader) : Prop :=
  r.cur ≤ r.valid ∧ r.valid ≤ 8 * r.cap ∧ r.cap ≤ Config.extMaxBytes ∧
  r.base.toNat + r.cap ≤ Config.addrSpace

/-! ### How a command ends (60_exceptions R230, R234, R243; 30_encoding R92) -/

/-- Write STATUS, CAUSE, RES and DOUT, set the ERRLOG bit of a non-zero STATUS, let go of the operand
registers (10_state R20) and deliver the response packet. -/
def State.respond (s : State) (st : Status) (c : Cause) (r : Word) (d : List Byte) : State :=
  { s with
    status := st, cause := c, res := r, errlog := s.errlog ||| st.logBit, dout := d
    pkt := Packet.none
    responses := s.responses ++
      [{ status := st.code, cause := c.code, res := r, errlog := s.errlog ||| st.logBit, dout := d }] }

/-- `done(v)`: success with RES = r and DOUT = d (00_scope R13, 10_state R35, R37). -/
def State.done (s : State) (r : Word) (d : List Byte) : State := s.respond .ok .noCause r d

/-- Taking an exception, the spec's whole "trap entry" (60_exceptions R243, R234; 00_scope R13):
STATUS and CAUSE by the cause, RES = 0, DOUT empty, the ERRLOG bit. There is no handler and nothing to
return from (R244). -/
def State.raise (s : State) (c : Cause) : State := s.respond c.status c 0 []

/-- `fault <Kind>`: the exception of a fault also puts the writer into FAULTED (60_exceptions R241). -/
def State.raiseFault (s : State) (w : Nat) (c : Cause) : State :=
  (s.setWriter w { s.writer w with st := .faulted }).raise c

/-- How the rule of a writer command ends. -/
inductive WriterEnd where
  /-- `done(v)` with the unit and storage as changed. -/
  | done (v : WriterView) (r : Word) (d : List Byte)
  /-- `raise`: nothing changes (60_exceptions R236). -/
  | error (c : Cause)
  /-- `fault`: the unit becomes FAULTED (60_exceptions R241). -/
  | faulted (c : Cause)

/-- How the rule of a reader command ends. A reader writes no storage (10_state R32). -/
inductive ReaderEnd where
  | done (u : Reader) (r : Word) (d : List Byte)
  | error (c : Cause)

/-! ### The decode checks 3 to 6 (30_encoding R101) -/

/-- What the checks answer. -/
inductive Admission where
  /-- A check failed: the command ends with this cause. -/
  | refuse (c : Cause)
  /-- The unit's registers break its invariants (log 8). -/
  | broken
  /-- The command's own rule runs. -/
  | granted
deriving DecidableEq, Repr

/-- Steps 3 to 6 of R101 for writer `w`: the unit exists, the payload is the one the command takes, the
unit is not FAULTED, and ST is `need`. -/
def admitWriter (s : State) (w : Nat) (payloadOk : Bool) (need : WriterLife) : Admission :=
  if ¬ w < s.nw then .refuse .illUnit
  else if ¬ payloadOk then .refuse .illPayload
  else if (s.writer w).st = .faulted then .refuse .unitFaulted
  else if (s.writer w).st ≠ need then .refuse .illState
  else if need = .ready ∧ ¬ (s.writer w).Sound s.ownMax then .broken
  else .granted

/-- Steps 3 to 6 of R101 for reader `r`; a reader is never FAULTED (10_state R30). -/
def admitReader (s : State) (r : Nat) (need : ReaderLife) : Admission :=
  if ¬ r < s.nr then .refuse .illUnit
  else if ¬ s.pkt.payload = [] then .refuse .illPayload
  else if (s.reader r).st ≠ need then .refuse .illState
  else if need = .ready ∧ ¬ (s.reader r).Sound then .broken
  else .granted

/-- The end of a writer command's rule as an outcome. -/
def finishWriter (s : State) (w : Nat) : WriterEnd → Host.Outcome State Fault Refusal
  | .done v r d => .next ((s.commit w v).done r d)
  | .error c => .next (s.raise c)
  | .faulted c => .next (s.raiseFault w c)

/-- The end of a reader command's rule as an outcome. -/
def finishReader (s : State) (r : Nat) : ReaderEnd → Host.Outcome State Fault Refusal
  | .done u x d => .next ((s.setReader r u).done x d)
  | .error c => .next (s.raise c)

/-- A command of a READY writer: the decode checks, then its rule. `payloadOk` is step 4's condition. -/
def runWriterWith (s : State) (w : Nat) (payloadOk : Bool) (rule : WriterView → WriterEnd) :
    Host.Outcome State Fault Refusal :=
  match admitWriter s w payloadOk .ready with
  | .refuse c => .next (s.raise c)
  | .broken => .fault .unitInvariantBroken
  | .granted => finishWriter s w (rule (s.writerView w))

/-- A command of a READY writer that takes no payload. -/
def runWriter (s : State) (w : Nat) (rule : WriterView → WriterEnd) :
    Host.Outcome State Fault Refusal :=
  runWriterWith s w (decide (s.pkt.payload = [])) rule

/-- A command of a READY reader. -/
def runReader (s : State) (r : Nat) (rule : ReaderView → ReaderEnd) :
    Host.Outcome State Fault Refusal :=
  match admitReader s r .ready with
  | .refuse c => .next (s.raise c)
  | .broken => .fault .unitInvariantBroken
  | .granted => finishReader s r (rule (s.readerView r))

/-- A construction command of an UNBOUND writer (40): the new unit, or the cause of the refusal. -/
def bindWriter (s : State) (w : Nat) (made : Except Cause Writer) :
    Host.Outcome State Fault Refusal :=
  match admitWriter s w (decide (s.pkt.payload = [])) .unbound with
  | .refuse c => .next (s.raise c)
  | .broken => .fault .unitInvariantBroken
  | .granted =>
    match made with
    | .error c => .next (s.raise c)
    | .ok x => .next ((s.setWriter w x).done 0 [])

/-- A construction command of an UNBOUND reader (40): the new unit, or the cause of the refusal. -/
def bindReader (s : State) (r : Nat) (made : Except Cause Reader) :
    Host.Outcome State Fault Refusal :=
  match admitReader s r .unbound with
  | .refuse c => .next (s.raise c)
  | .broken => .fault .unitInvariantBroken
  | .granted =>
    match made with
    | .error c => .next (s.raise c)
    | .ok x => .next ((s.setReader r x).done 0 [])

end Sys2Proof.Machine
end

