-- ==== Sys2Proof/Machine/Construct.lean ====
section
/-! DEFINITION. Construction and release of units (40_construct R120 to R127). -/
namespace Sys2Proof.Machine

/-- The checks on a region given by base, length in bytes and valid-bits count, in their order; the
valid-bits count if they pass: 0 means the whole region (40 R121, R123). -/
def regionValid (base : Word) (len nvalid : Nat) : Except Cause Nat :=
  if len > Config.extMaxBytes then .error .cfgLength
  else if base.toNat + len > Config.addrSpace then .error .cfgWrap
  else if nvalid > 8 * len then .error .cfgNvalid
  else .ok (if nvalid = 0 then 8 * len else nvalid)

/-- A writer over an external region (40 R121). -/
def Writer.attached (base : Word) (len valid : Nat) : Writer :=
  { st := .ready, mode := .external, base := base, cap := len, valid := valid, cur := 0, omem := [] }

/-- A writer with self-owned, empty storage of `n` zero bytes (40 R120). -/
def Writer.owning (n : Nat) : Writer :=
  { st := .ready, mode := .owned, base := 0, cap := n, valid := 0, cur := 0, omem := [] }

/-- A reader over a region (40 R123). -/
def Reader.attached (base : Word) (len valid : Nat) : Reader :=
  { st := .ready, base := base, cap := len, valid := valid, cur := 0 }

/-- W.INITO (40 R120). -/
def execWInito (u : Nat) (s : State) : Host.Outcome State Fault Refusal :=
  bindWriter s u <|
    if s.pkt.a.toNat > s.ownMax then .error .nomemGrow else .ok (Writer.owning s.pkt.a.toNat)

/-- W.ATTACH (40 R121). -/
def execWAttach (u : Nat) (s : State) : Host.Outcome State Fault Refusal :=
  bindWriter s u <|
    match regionValid s.pkt.a s.pkt.b.toNat s.pkt.c.toNat with
    | .error c => .error c
    | .ok valid => .ok (Writer.attached s.pkt.a s.pkt.b.toNat valid)

/-- What W.FREE leaves of a unit (40 R122): ST is UNBOUND and owned storage ceases to exist; the other
registers keep their values, which nothing reads (10_state R40, 93 U7; log 7). -/
def Writer.freed (x : Writer) : Writer :=
  { x with st := .unbound, omem := if x.mode = .owned then [] else x.omem }

/-- W.FREE (40 R122). -/
def execWFree (u : Nat) (s : State) : Host.Outcome State Fault Refusal :=
  runWriter s u fun v => .done { v with unit := v.unit.freed } 0 []

/-- R.ATTACH (40 R123). -/
def execRAttach (u : Nat) (s : State) : Host.Outcome State Fault Refusal :=
  bindReader s u <|
    match regionValid s.pkt.a s.pkt.b.toNat s.pkt.c.toNat with
    | .error c => .error c
    | .ok valid => .ok (Reader.attached s.pkt.a s.pkt.b.toNat valid)

/-- R.ATTACHE (40 R124): the region from begin up to, not including, end. -/
def execRAttache (u : Nat) (s : State) : Host.Outcome State Fault Refusal :=
  bindReader s u <|
    if s.pkt.b.toNat < s.pkt.a.toNat then .error .cfgLength
    else
      let len := s.pkt.b.toNat - s.pkt.a.toNat
      if len > Config.extMaxBytes then .error .cfgLength
      else .ok (Reader.attached s.pkt.a len (8 * len))

/-- R.ATTACHP (40 R125): a raw pointer and a valid-bits count. -/
def execRAttachp (u : Nat) (s : State) : Host.Outcome State Fault Refusal :=
  bindReader s u <|
    if s.pkt.c.toNat = 0 then .error .cfgZero
    else
      let len := ceil8 s.pkt.c.toNat
      if len > Config.extMaxBytes then .error .cfgLength
      else if s.pkt.a.toNat + len > Config.addrSpace then .error .cfgWrap
      else .ok (Reader.attached s.pkt.a len s.pkt.c.toNat)

/-- R.FREE (40 R126). -/
def execRFree (u : Nat) (s : State) : Host.Outcome State Fault Refusal :=
  runReader s u fun v => .done { v.unit with st := .unbound } 0 []

end Sys2Proof.Machine
end

