-- ==== Sys2Proof/Machine/Reader.lean ====
section
/-! DEFINITION. Reader commands (44_reader R200 to R212). -/
namespace Sys2Proof.Machine

/-- `done(v)` of a reader accessor: the position or count `n` in RES, nothing changed. -/
def answerReader (v : ReaderView) (n : Nat) : ReaderEnd := .done v.unit (BitVec.ofNat 64 n) []

/-- The checks of a read, remaining bits before width; none if they pass (44 R202, R203). -/
def readCheck (v : ReaderView) (n t : Nat) : Option Cause :=
  if n > v.unit.valid - v.unit.cur then some .readNobits
  else if n > t then some .readWidth
  else none

/-- R.READU (44 R202): zero-extended; a width of 0 answers 0 at once. -/
def execRReadu (u : Nat) (tw : TypeWidth) (nb : Nat) (s : State) :
    Host.Outcome State Fault Refusal :=
  runReader s u fun v =>
    if nb = 0 then answerReader v 0
    else
      match readCheck v nb (typeBits tw) with
      | some c => .error c
      | none => .done (readField v nb).2.unit (readField v nb).1 []

/-- R.READS (44 R203): sign-extended from bit n-1 to T bits and from T to 64 bits. -/
def execRReads (u : Nat) (tw : TypeWidth) (nb : Nat) (s : State) :
    Host.Outcome State Fault Refusal :=
  runReader s u fun v =>
    if nb = 0 then answerReader v 0
    else
      match readCheck v nb (typeBits tw) with
      | some c => .error c
      | none =>
        .done (readField v nb).2.unit
          (signExtend (signFill (readField v nb).1 nb (typeBits tw)) (typeBits tw)) []

/-- R.SEEK (44 R204, 43 R187). -/
def execRSeek (u : Nat) (org : Origin) (s : State) : Host.Outcome State Fault Refusal :=
  runReader s u fun v =>
    match seekTarget org s.pkt.a v.unit.valid v.unit.cur with
    | .error c => .error c
    | .ok t => .done { v.unit with cur := t } 0 []

/-- R.TELL (44 R205). -/
def execRTell (u : Nat) (s : State) : Host.Outcome State Fault Refusal :=
  runReader s u fun v => answerReader v v.unit.cur

/-- R.LEFT (44 R206). -/
def execRLeft (u : Nat) (s : State) : Host.Outcome State Fault Refusal :=
  runReader s u fun v => answerReader v (v.unit.valid - v.unit.cur)

/-- R.NBITS (44 R207). -/
def execRNbits (u : Nat) (s : State) : Host.Outcome State Fault Refusal :=
  runReader s u fun v => answerReader v v.unit.valid

/-- R.NBYTES (44 R208). -/
def execRNbytes (u : Nat) (s : State) : Host.Outcome State Fault Refusal :=
  runReader s u fun v => answerReader v (ceil8 v.unit.valid)

/-- R.EOF (44 R209). -/
def execREof (u : Nat) (s : State) : Host.Outcome State Fault Refusal :=
  runReader s u fun v => answerReader v (if v.unit.cur = v.unit.valid then 1 else 0)

/-- R.PTR (44 R210). -/
def execRPtr (u : Nat) (s : State) : Host.Outcome State Fault Refusal :=
  runReader s u fun v => .done v.unit v.unit.base []

/-- R.DUMP (44 R211): all valid bits, whatever the cursor. -/
def execRDump (u : Nat) (s : State) : Host.Outcome State Fault Refusal :=
  runReader s u fun v =>
    .done v.unit (BitVec.ofNat 64 v.unit.valid) ((bitsBetween v.byte 0 v.unit.valid).map dumpChar)

end Sys2Proof.Machine
end

