-- ==== Sys2Proof/Machine/WriterAccess.lean ====
section
/-! DEFINITION. Writer seek, accessors, copy and dump (43_writer_cursor_access R180 to R187). -/
namespace Sys2Proof.Machine

/-- `done(v)` of a writer accessor: the position or count `n` in RES, nothing changed. -/
def answerWriter (v : WriterView) (n : Nat) : WriterEnd := .done v (BitVec.ofNat 64 n) []

/-- W.SEEK (43 R180, R187). -/
def execWSeek (u : Nat) (org : Origin) (s : State) : Host.Outcome State Fault Refusal :=
  runWriter s u fun v =>
    match seekTarget org s.pkt.a v.unit.valid v.unit.cur with
    | .error c => .error c
    | .ok t => .done (v.setCur t) 0 []

/-- W.TELL (43 R181). -/
def execWTell (u : Nat) (s : State) : Host.Outcome State Fault Refusal :=
  runWriter s u fun v => answerWriter v v.unit.cur

/-- W.NBITS (43 R182). -/
def execWNbits (u : Nat) (s : State) : Host.Outcome State Fault Refusal :=
  runWriter s u fun v => answerWriter v v.unit.valid

/-- W.NBYTES (43 R183). -/
def execWNbytes (u : Nat) (s : State) : Host.Outcome State Fault Refusal :=
  runWriter s u fun v => answerWriter v (ceil8 v.unit.valid)

/-- W.PTR (43 R184). -/
def execWPtr (u : Nat) (s : State) : Host.Outcome State Fault Refusal :=
  runWriter s u fun v => .done v v.unit.base []

/-- W.COPY (43 R185): the valid bytes, OWNED mode only. -/
def execWCopy (u : Nat) (s : State) : Host.Outcome State Fault Refusal :=
  runWriter s u fun v =>
    match v.unit.mode with
    | .external => .error .illMode
    | .owned =>
      let nb := ceil8 v.unit.valid
      .done v (BitVec.ofNat 64 nb) ((List.range nb).map v.byte)

/-- W.DUMP (43 R186): one character per valid bit, bit 0 first. -/
def execWDump (u : Nat) (s : State) : Host.Outcome State Fault Refusal :=
  runWriter s u fun v =>
    .done v (BitVec.ofNat 64 v.unit.valid) ((bitsBetween v.byte 0 v.unit.valid).map dumpChar)

end Sys2Proof.Machine
end

