-- ==== Sys2Proof/Machine/WriterEdit.lean ====
section
/-! DEFINITION. Writer commands that edit the structure (42_writer_edit R160 to R169). -/
namespace Sys2Proof.Machine

/-- The cursor after an insert of n bits before p (42 R163). -/
def cursorAfterInsert (c p n : Nat) : Nat := if c < p then c else c + n

/-- The cursor after an erase of n bits from f on (42 R165). -/
def cursorAfterErase (c f n : Nat) : Nat := if c < f then c else if c < f + n then f else c - n

/-- W.INSERT (42 R163): extract the suffix, truncate, write the field at the end, write the suffix
back. Every check comes before the first change. -/
def execWInsert (u : Nat) (tw : TypeWidth) (nb : Nat) (s : State) :
    Host.Outcome State Fault Refusal :=
  runWriter s u fun v =>
    let p := s.pkt.b.toNat
    if nb > typeBits tw then .error .writeWidth
    else if p > v.unit.valid then .error .insertRange
    else
      match checkCap s.ownMax v (v.unit.valid + nb) .insertCapacity with
      | some c => .error c
      | none =>
        if nb = 0 then .done v 0 []
        else
          match ensureCap s.ownMax (truncateTo v p) (v.unit.valid + nb) .insertCapacity with
          | .error c => .error c
          | .ok v' =>
            let w := tailWrite (tailWrite v' (bitsStr s.pkt.a nb)) (extractBits v p v.unit.valid)
            .done (w.setCur (cursorAfterInsert v.unit.cur p nb)) 0 []

/-- W.ERASE (42 R165): extract the suffix after the range, truncate, write the suffix back. -/
def execWErase (u : Nat) (s : State) : Host.Outcome State Fault Refusal :=
  runWriter s u fun v =>
    let f := s.pkt.a.toNat
    let n := s.pkt.b.toNat
    if f + n > v.unit.valid then .error .eraseRange
    else if n = 0 then .done v 0 []
    else
      match ensureCap s.ownMax (truncateTo v f) (v.unit.valid - n) .eraseRange with
      | .error c => .error c
      | .ok v' =>
        let w := tailWrite v' (extractBits v (f + n) v.unit.valid)
        .done (w.setCur (cursorAfterErase v.unit.cur f n)) 0 []

/-- The capacity check of W.RESIZE (42 R166): a fault in EXTERNAL mode, NOMEM in OWNED mode. -/
def resizeCheck (own : Nat) (v : WriterView) (len : Nat) : Option WriterEnd :=
  match v.unit.mode with
  | .external => if len > 8 * v.unit.cap then some (.faulted .resizeExtCapacity) else none
  | .owned => if ceil8 len > own then some (.error .nomemGrow) else none

/-- W.RESIZE (42 R166): grow with zero bits or truncate; the cursor is clamped. -/
def execWResize (u : Nat) (s : State) : Host.Outcome State Fault Refusal :=
  runWriter s u fun v =>
    let len := s.pkt.a.toNat
    match resizeCheck s.ownMax v len with
    | some e => e
    | none =>
      if len > v.unit.valid then
        match ensureCap s.ownMax v len .resizeExtCapacity with
        | .error c => .error c
        | .ok v' =>
          .done ((tailWrite v' (List.replicate (len - v.unit.valid) false)).setCur
            (min v.unit.cur len)) 0 []
      else .done ((truncateTo v len).setCur (min v.unit.cur len)) 0 []

/-- W.RESERVE (42 R168): grow owned capacity to the hint, never shrink. -/
def execWReserve (u : Nat) (s : State) : Host.Outcome State Fault Refusal :=
  runWriter s u fun v =>
    match v.unit.mode with
    | .external => .error .reserveExternal
    | .owned =>
      if ceil8 s.pkt.a.toNat > s.ownMax then .error .nomemGrow
      else .done (growOwned v (ceil8 s.pkt.a.toNat)) 0 []

end Sys2Proof.Machine
end

