-- ==== Sys2Proof/Machine/WriterWrite.lean ====
section
/-! DEFINITION. Writer commands that write at the cursor (41_writer_write R140 to R146). -/
namespace Sys2Proof.Machine

/-- W.WRITE (41 R141): the width check, then capacity, then the field. -/
def execWWrite (u : Nat) (tw : TypeWidth) (nb : Nat) (s : State) :
    Host.Outcome State Fault Refusal :=
  runWriter s u fun v =>
    if nb > typeBits tw then .error .writeWidth
    else
      match ensureCap s.ownMax v (v.unit.cur + nb) .writeCapacity with
      | .error c => .error c
      | .ok v' => .done (writeField v' (s.pkt.a &&& mask 64 nb) nb) 0 []

/-- W.WBIT (41 R142): the one bit `A[0]`. -/
def execWWbit (u : Nat) (s : State) : Host.Outcome State Fault Refusal :=
  runWriter s u fun v =>
    match ensureCap s.ownMax v (v.unit.cur + 1) .writeCapacity with
    | .error c => .error c
    | .ok v' => .done (writeField v' (s.pkt.a &&& mask 64 1) 1) 0 []

/-- The bytes of W.APPEND, each an 8-bit field at the cursor (41 R144). -/
def appendBytes (v : WriterView) (bytes : List Byte) : WriterView :=
  bytes.foldl (fun w p => writeField w (p.setWidth 64) 8) v

/-- W.APPEND (41 R144): the bytes go at the cursor; the cursor follows them if it was at the end and is
restored if not. Decode step 4 asks for exactly `A` payload bytes. -/
def execWAppend (u : Nat) (s : State) : Host.Outcome State Fault Refusal :=
  runWriterWith s u (decide (s.pkt.payload.length = s.pkt.a.toNat)) fun v =>
    match ensureCap s.ownMax v (v.unit.cur + 8 * s.pkt.payload.length) .appendCapacity with
    | .error c => .error c
    | .ok v' =>
      let w := appendBytes v' s.pkt.payload
      .done (if v.unit.cur = v.unit.valid then w else w.setCur v.unit.cur) 0 []

/-- W.ALIGN (41 R146): zero bits up to the next byte boundary; no error can occur. -/
def execWAlign (u : Nat) (s : State) : Host.Outcome State Fault Refusal :=
  runWriter s u fun v => .done (writeField v 0 ((8 - v.unit.cur % 8) % 8)) 0 []

end Sys2Proof.Machine
end

