-- ==== Sys2Proof/Machine/Dispatch.lean ====
section
/-! DEFINITION. Each command's meaning, one arm per constructor of Instr (30_encoding R98). The operands
A, B, C and the PAYLOAD are those of the packet in `State.pkt`. -/
namespace Sys2Proof.Machine

def exec (i : Instr) (s : State) : Host.Outcome State Fault Refusal :=
  match i with
  | .wInito u => Sys2Proof.Machine.execWInito u s
  | .wAttach u => Sys2Proof.Machine.execWAttach u s
  | .wFree u => Sys2Proof.Machine.execWFree u s
  | .wWrite u tw nb => Sys2Proof.Machine.execWWrite u tw nb s
  | .wWbit u => Sys2Proof.Machine.execWWbit u s
  | .wAppend u => Sys2Proof.Machine.execWAppend u s
  | .wInsert u tw nb => Sys2Proof.Machine.execWInsert u tw nb s
  | .wErase u => Sys2Proof.Machine.execWErase u s
  | .wResize u => Sys2Proof.Machine.execWResize u s
  | .wSeek u org => Sys2Proof.Machine.execWSeek u org s
  | .wAlign u => Sys2Proof.Machine.execWAlign u s
  | .wReserve u => Sys2Proof.Machine.execWReserve u s
  | .wTell u => Sys2Proof.Machine.execWTell u s
  | .wNbits u => Sys2Proof.Machine.execWNbits u s
  | .wNbytes u => Sys2Proof.Machine.execWNbytes u s
  | .wPtr u => Sys2Proof.Machine.execWPtr u s
  | .wCopy u => Sys2Proof.Machine.execWCopy u s
  | .wDump u => Sys2Proof.Machine.execWDump u s
  | .rAttach u => Sys2Proof.Machine.execRAttach u s
  | .rAttache u => Sys2Proof.Machine.execRAttache u s
  | .rAttachp u => Sys2Proof.Machine.execRAttachp u s
  | .rFree u => Sys2Proof.Machine.execRFree u s
  | .rReadu u tw nb => Sys2Proof.Machine.execRReadu u tw nb s
  | .rReads u tw nb => Sys2Proof.Machine.execRReads u tw nb s
  | .rSeek u org => Sys2Proof.Machine.execRSeek u org s
  | .rTell u => Sys2Proof.Machine.execRTell u s
  | .rLeft u => Sys2Proof.Machine.execRLeft u s
  | .rNbits u => Sys2Proof.Machine.execRNbits u s
  | .rNbytes u => Sys2Proof.Machine.execRNbytes u s
  | .rEof u => Sys2Proof.Machine.execREof u s
  | .rPtr u => Sys2Proof.Machine.execRPtr u s
  | .rDump u => Sys2Proof.Machine.execRDump u s

end Sys2Proof.Machine
end

