-- ==== Sys2Proof/Machine/Port.lean ====
section
/-! DEFINITION. The command port and the host's other acts (30_encoding R90, 70_reset_and_hazards R270,
R278): taking a packet, storing to XMEM, reset between commands and reset in the middle of one. -/
namespace Sys2Proof.Machine

/-- The packet whose command word is a table row's bits, every operand zero and no payload. -/
def Packet.ofWord (nbits w : Nat) : Packet :=
  { cmd := BitVec.ofNat 32 (w % 2 ^ nbits), a := 0, b := 0, c := 0, payload := [] }

/-- The engine reads all five parts of a packet at the start of the command (30_encoding R90); `rest`
is what the host does after. -/
def State.take (s : State) (p : Packet) (rest : List HostAct) : State :=
  { s with pkt := p, host := rest }

/-- The host stores a byte to XMEM between commands (70_reset R278). -/
def State.hostStore (s : State) (a : Word) (v : Byte) (rest : List HostAct) : State :=
  { s with xmem := s.xmem.write a.toNat v, host := rest }

/-- Reset (70_reset R270, 10_state R41): every unit and response register at its reset value. XMEM, the
host's acts and the responses it already has are not the engine's and stay. -/
def State.applyReset (s : State) : State :=
  { s with
    writers := s.writers.map fun _ => Writer.reset
    readers := s.readers.map fun _ => Reader.reset
    status := .ok, cause := .noCause, res := 0, errlog := 0, dout := [], pkt := Packet.none }

/-- The absolute bits a successful writer command may write, as a half-open span (41 R141 to R146; 42
R161 to R166: a truncation clears up to the end of the last byte that held valid content). -/
def writeSpan (i : Instr) (p : Packet) (x : Writer) : Nat × Nat :=
  match i with
  | .wWrite _ _ nb => (x.cur, x.cur + nb)
  | .wWbit _ => (x.cur, x.cur + 1)
  | .wAppend _ => (x.cur, x.cur + 8 * p.payload.length)
  | .wAlign _ => (x.cur, 8 * ceil8 x.cur)
  | .wInsert _ _ nb =>
    if nb = 0 then (0, 0)
    else if p.b.toNat = x.valid then (x.valid, x.valid + nb)
    else (p.b.toNat, max (x.valid + nb) (8 * ceil8 x.valid))
  | .wErase _ => if p.b.toNat = 0 then (0, 0) else (p.a.toNat, 8 * ceil8 x.valid)
  | .wResize _ =>
    if x.valid < p.a.toNat then (x.valid, p.a.toNat)
    else if p.a.toNat < x.valid then (p.a.toNat, 8 * ceil8 x.valid)
    else (0, 0)
  | _ => (0, 0)

/-- XMEM with `n` bytes from address `a` on at free values (93 U6; log 11). -/
def freeBytes (ctr : Nat) (m : Memory) (a : Nat) : Nat → Memory
  | 0 => m
  | n + 1 => freeBytes ctr (m.write a (Config.abandonedByte ctr a)) (a + 1) n

/-- XMEM after the command of the instruction `i` in packet `p` was abandoned by reset: free values in
the bytes of an EXTERNAL writer's region its rule could write (70_reset R270, 93 U6), all others
unchanged. -/
def abandonedXmem (s : State) (i : Instr) (p : Packet) : Memory :=
  let x := s.writer i.unitIndex
  let span := writeSpan i p x
  if x.mode = .external ∧ span.1 < span.2 then
    freeBytes s.freeCtr s.xmem (regionAddr x.base (span.1 / 8)) (ceil8 span.2 - span.1 / 8)
  else s.xmem

/-- Reset while packet `p` executes: the command is abandoned and no response is delivered (70_reset R270;
DEDUCED, log 20). A command that would have ended with an error, a refusal or the fault had no write to
make (60_exceptions R236, R241), so its XMEM stays. `finished` is the outcome the command would have had. -/
def State.abandon (s : State) (p : Packet) (rest : List HostAct)
    (finished : Except DecodeError Instr × Host.Outcome State Fault Refusal) : State :=
  let m :=
    match finished with
    | (.ok i, .next t) => if t.status = .ok then abandonedXmem s i p else s.xmem
    | _ => s.xmem
  State.applyReset { s with xmem := m, host := rest, freeCtr := s.freeCtr + 1 }

end Sys2Proof.Machine
end

