-- ==== Sys2Proof/Machine/Step.lean ====
section
/-! DEFINITION. One step: one act of the host (70_reset_and_hazards R278), a command executed to
completion (20_memory R75, R76). With nothing presented the engine is idle and holds its state
(60_exceptions R251, 70_reset R271). -/
namespace Sys2Proof.Machine

/-- A command packet executed to completion: decode steps 1 and 2 of 30_encoding R101, then the
command's meaning. -/
def runPacket (s : State) : Host.Outcome State Fault Refusal :=
  match decodeWord s.pkt.cmd with
  | .error e => .next (s.raise (decodeCause e))
  | .ok i => exec i s

/-- One step of the machine. -/
def step (s : State) : Host.Outcome State Fault Refusal :=
  match s.host with
  | [] => .next s
  | .command p :: rest => runPacket (s.take p rest)
  | .store a v :: rest => .next (s.hostStore a v rest)
  | .reset :: rest => .next (State.applyReset (s.take Packet.none rest))
  | .resetDuring p :: rest =>
    .next (s.abandon p rest (decodeWord p.cmd, runPacket (s.take p rest)))

/-- The host presents, as its next act, the packet whose command word is `w`, with zero operands and no
payload (log 1). -/
def State.withFetchWord (s : State) (nbits w : Nat) : State :=
  { s with host := .command (Packet.ofWord nbits w) :: s.host }

end Sys2Proof.Machine
end

