-- ==== Sys2Proof/Machine/Assembler.lean ====
section
/-! DEFINITION. The assembler syntax and the four pseudo-instructions (30_encoding R103, R104): a line
of text to the command packet it stands for. The engine itself never sees text; nothing of the step
depends on this file. Tokens are lists of characters; the braces of W.APPEND are written by their
character codes. -/
namespace Sys2Proof.Machine

/-- A token of a line. -/
abbrev Token := List Char

/-- White space and the comma separate operands (30_encoding R103). -/
def isSeparator (c : Char) : Bool := c == ' ' || c == ',' || c == '\t'

/-- The braces around the bytes of W.APPEND (codes 123 and 125) are tokens of their own. -/
def isBrace (c : Char) : Bool := c.toNat == 123 || c.toNat == 125

/-- The token collected so far, in reverse. -/
def endToken (acc : Token) : List Token := if acc.isEmpty then [] else [acc.reverse]

/-- The tokens of a line; `;` starts a comment (30_encoding R103). -/
def tokensFrom (acc : Token) : List Char → List Token
  | [] => endToken acc
  | c :: cs =>
    if c == ';' then endToken acc
    else if isSeparator c then endToken acc ++ tokensFrom [] cs
    else if isBrace c then endToken acc ++ [c] :: tokensFrom [] cs
    else tokensFrom (c :: acc) cs

/-- The value of one digit in base `b`. -/
def digitValue (b : Nat) (c : Char) : Option Nat :=
  let d :=
    if '0' ≤ c ∧ c ≤ '9' then c.toNat - 48
    else if 'a' ≤ c ∧ c ≤ 'f' then c.toNat - 87
    else if 'A' ≤ c ∧ c ≤ 'F' then c.toNat - 55
    else 99
  if d < b then some d else none

/-- The value of a digit string in base `b`, `acc` being the value of the digits before it. -/
def digitsValue (b : Nat) (acc : Nat) : List Char → Option Nat
  | [] => some acc
  | c :: cs =>
    match digitValue b c with
    | none => none
    | some d => digitsValue b (acc * b + d) cs

/-- A number: decimal, `0x` hex or `0b` binary (30_encoding R103). -/
def numberToken : Token → Option Nat
  | [] => none
  | '0' :: 'x' :: c :: cs => digitsValue 16 0 (c :: cs)
  | '0' :: 'b' :: c :: cs => digitsValue 2 0 (c :: cs)
  | c :: cs => digitsValue 10 0 (c :: cs)

/-- A 64-bit operand; a negative decimal number is encoded in two's complement (30_encoding R103 for
the seek offset; PG1 of 95_test_vectors writes a field value so). -/
def wordToken : Token → Option Word
  | '-' :: cs =>
    match digitsValue 10 0 cs with
    | none => none
    | some n => if cs ≠ [] ∧ n ≤ 2 ^ 63 then some (BitVec.ofInt 64 (-(n : Int))) else none
  | t =>
    match numberToken t with
    | none => none
    | some n => if n < 2 ^ 64 then some (BitVec.ofNat 64 n) else none

/-- A unit, `w<UID>` or `r<UID>` (30_encoding R103). -/
def unitToken (kind : Char) : Token → Option Nat
  | c :: d :: ds =>
    match digitsValue 10 0 (d :: ds) with
    | none => none
    | some n => if c = kind ∧ n < 16 then some n else none
  | _ => none

/-- A type: `u8 u16 u32 u64`, or `s8 s16 s32 s64` for R.READS (30_encoding R103). -/
def typeToken (kind : Char) : Token → Option TypeWidth
  | c :: cs =>
    if c = kind then
      match cs with
      | ['8'] => some .w8
      | ['1', '6'] => some .w16
      | ['3', '2'] => some .w32
      | ['6', '4'] => some .w64
      | _ => none
    else none
  | _ => none

/-- An origin: `begin`, `end`, `current`, or `org3` for the invalid code (30_encoding R103). -/
def originToken (t : Token) : Option Origin :=
  match String.ofList t with
  | "begin" => some .fromBegin
  | "end" => some .fromEnd
  | "current" => some .fromCurrent
  | "org3" => some .invalid
  | _ => none

/-- A field width that fits NB (30_encoding R95). -/
def widthToken (t : Token) : Option Nat :=
  match numberToken t with
  | none => none
  | some n => if n < 128 then some n else none

/-- One payload byte. -/
def byteToken (t : Token) : Option Byte :=
  match numberToken t with
  | none => none
  | some n => if n < 256 then some (BitVec.ofNat 8 n) else none

/-- The bytes between the braces of W.APPEND. -/
def payloadTokens : List Token → Option (List Byte)
  | open_ :: rest =>
    if open_ = [Char.ofNat 123] ∧ rest.getLast? = some [Char.ofNat 125] then
      rest.dropLast.mapM byteToken
    else none
  | [] => none

/-- The packet of a command; an operand register a line does not set is 0 (30_encoding R103). -/
def packetOf (i : Instr) (a b c : Word) (payload : List Byte) : Packet :=
  { cmd := encode i, a := a, b := b, c := c, payload := payload }

/-- A line of a writer command, `u` being the unit (30_encoding R103, R104). -/
def assembleWriter (name : String) (u : Nat) (ops : List Token) : Option Packet :=
  match name, ops with
  | "W.INITO", [a] => do pure (packetOf (.wInito u) (← wordToken a) 0 0 [])
  | "W.ATTACH", [a, b, c] => do
      pure (packetOf (.wAttach u) (← wordToken a) (← wordToken b) (← wordToken c) [])
  | "W.FREE", [] => pure (packetOf (.wFree u) 0 0 0 [])
  | "W.WRITE", [t, n, a] => do
      pure (packetOf (.wWrite u (← typeToken 'u' t) (← widthToken n)) (← wordToken a) 0 0 [])
  | "W.WBIT", [a] => do pure (packetOf (.wWbit u) (← wordToken a) 0 0 [])
  | "W.APPEND", ts => do
      let bytes ← payloadTokens ts
      pure (packetOf (.wAppend u) (BitVec.ofNat 64 bytes.length) 0 0 bytes)
  | "W.INSERT", [t, n, a, b] => do
      pure (packetOf (.wInsert u (← typeToken 'u' t) (← widthToken n)) (← wordToken a)
        (← wordToken b) 0 [])
  | "W.ERASE", [a, b] => do pure (packetOf (.wErase u) (← wordToken a) (← wordToken b) 0 [])
  | "W.RESIZE", [a] => do pure (packetOf (.wResize u) (← wordToken a) 0 0 [])
  | "W.SEEK", [o, a] => do pure (packetOf (.wSeek u (← originToken o)) (← wordToken a) 0 0 [])
  | "W.ALIGN", [] => pure (packetOf (.wAlign u) 0 0 0 [])
  | "W.RESERVE", [a] => do pure (packetOf (.wReserve u) (← wordToken a) 0 0 [])
  | "W.TELL", [] => pure (packetOf (.wTell u) 0 0 0 [])
  | "W.NBITS", [] => pure (packetOf (.wNbits u) 0 0 0 [])
  | "W.NBYTES", [] => pure (packetOf (.wNbytes u) 0 0 0 [])
  | "W.PTR", [] => pure (packetOf (.wPtr u) 0 0 0 [])
  | "W.COPY", [] => pure (packetOf (.wCopy u) 0 0 0 [])
  | "W.DUMP", [] => pure (packetOf (.wDump u) 0 0 0 [])
  | "W.REWIND", [] => pure (packetOf (.wSeek u .fromBegin) 0 0 0 [])
  | "W.TOEND", [] => pure (packetOf (.wSeek u .fromEnd) 0 0 0 [])
  | _, _ => none

/-- A line of a reader command, `u` being the unit (30_encoding R103, R104). -/
def assembleReader (name : String) (u : Nat) (ops : List Token) : Option Packet :=
  match name, ops with
  | "R.ATTACH", [a, b, c] => do
      pure (packetOf (.rAttach u) (← wordToken a) (← wordToken b) (← wordToken c) [])
  | "R.ATTACHE", [a, b] => do pure (packetOf (.rAttache u) (← wordToken a) (← wordToken b) 0 [])
  | "R.ATTACHP", [a, c] => do pure (packetOf (.rAttachp u) (← wordToken a) 0 (← wordToken c) [])
  | "R.FREE", [] => pure (packetOf (.rFree u) 0 0 0 [])
  | "R.READU", [t, n] => do
      pure (packetOf (.rReadu u (← typeToken 'u' t) (← widthToken n)) 0 0 0 [])
  | "R.READS", [t, n] => do
      pure (packetOf (.rReads u (← typeToken 's' t) (← widthToken n)) 0 0 0 [])
  | "R.SEEK", [o, a] => do pure (packetOf (.rSeek u (← originToken o)) (← wordToken a) 0 0 [])
  | "R.TELL", [] => pure (packetOf (.rTell u) 0 0 0 [])
  | "R.LEFT", [] => pure (packetOf (.rLeft u) 0 0 0 [])
  | "R.NBITS", [] => pure (packetOf (.rNbits u) 0 0 0 [])
  | "R.NBYTES", [] => pure (packetOf (.rNbytes u) 0 0 0 [])
  | "R.EOF", [] => pure (packetOf (.rEof u) 0 0 0 [])
  | "R.PTR", [] => pure (packetOf (.rPtr u) 0 0 0 [])
  | "R.DUMP", [] => pure (packetOf (.rDump u) 0 0 0 [])
  | "R.REWIND", [] => pure (packetOf (.rSeek u .fromBegin) 0 0 0 [])
  | "R.NREAD", [] => pure (packetOf (.rTell u) 0 0 0 [])
  | _, _ => none

/-- One line of assembler text to its packet; none for a line that is no command (30_encoding R103). -/
def assembleLine (line : List Char) : Option Packet :=
  match tokensFrom [] line with
  | name :: unit :: ops =>
    match unitToken 'w' unit, unitToken 'r' unit with
    | some u, _ => assembleWriter (String.ofList name) u ops
    | none, some u => assembleReader (String.ofList name) u ops
    | none, none => none
  | _ => none

end Sys2Proof.Machine
end

