-- ==== Sys2Proof/Safety.lean ====
section
/-! DEFINITION. What counts as a good state and a good run, and the terms the statements use: when a
command is taken, how it ends, what it leaves unchanged, the invariants of 10_state, and what it means
that two packets agree on the operands a command uses. -/
namespace Sys2Proof.Machine

/-! ### When a command is taken (30_encoding R101 steps 3 to 6) -/

/-- Writer `u` exists and takes a command that needs READY and carries no payload. -/
abbrev State.WriterTakes (s : State) (u : Nat) : Prop :=
  u < s.nw ∧ s.pkt.payload = [] ∧ (s.writer u).st = .ready ∧ (s.writer u).Sound s.ownMax

/-- Reader `r` exists and takes a command that needs READY. -/
abbrev State.ReaderTakes (s : State) (r : Nat) : Prop :=
  r < s.nr ∧ s.pkt.payload = [] ∧ (s.reader r).st = .ready ∧ (s.reader r).Sound

/-- Writer `u` exists and takes a construction command. -/
abbrev State.WriterBinds (s : State) (u : Nat) : Prop :=
  u < s.nw ∧ s.pkt.payload = [] ∧ (s.writer u).st = .unbound

/-- Reader `r` exists and takes a construction command. -/
abbrev State.ReaderBinds (s : State) (r : Nat) : Prop :=
  r < s.nr ∧ s.pkt.payload = [] ∧ (s.reader r).st = .unbound

/-- Step 4: the payload is empty, or the command is W.APPEND and it has exactly `A` bytes. -/
def payloadFits (i : Instr) (p : Packet) : Bool :=
  match i with
  | .wAppend _ => decide (p.payload.length = p.a.toNat)
  | _ => decide (p.payload = [])

/-- The command constructs a unit, so it needs ST = UNBOUND (step 6). -/
def constructs : Instr → Bool
  | .wInito _ => true
  | .wAttach _ => true
  | .rAttach _ => true
  | .rAttache _ => true
  | .rAttachp _ => true
  | _ => false

/-! ### How a command ends, and what it leaves -/

/-- The command ended with OK, RES = r and DOUT = d, delivered its one response packet, and left the
parameters, the host's acts and the flags alone (10_state R33 to R37, 30_encoding R92). The packet
registers are not kept after the command (10_state R20); that they then hold 0 and empty is the model's
choice (log 9). -/
abbrev EndsOk (s t : State) (r : Word) (d : List Byte) : Prop :=
  (t.status = .ok ∧ t.cause = .noCause ∧ t.res = r ∧ t.dout = d ∧ t.errlog = s.errlog) ∧
  t.responses = s.responses ++ [{ status := 0, cause := 0, res := r, errlog := s.errlog, dout := d }] ∧
  t.pkt = Packet.none ∧ t.host = s.host ∧ t.freeCtr = s.freeCtr ∧ t.ownMax = s.ownMax

/-- Every unit but writer `u` is as before (10_state R22). -/
abbrev OnlyWriterChanged (s t : State) (u : Nat) : Prop :=
  t.nw = s.nw ∧ (∀ w, w ≠ u → t.writer w = s.writer w) ∧ t.readers = s.readers

/-- Every unit but reader `r` is as before. -/
abbrev OnlyReaderChanged (s t : State) (r : Nat) : Prop :=
  t.nr = s.nr ∧ (∀ q, q ≠ r → t.reader q = s.reader q) ∧ t.writers = s.writers

/-- No unit and no storage byte changed. -/
abbrev NothingStored (s t : State) : Prop :=
  t.writers = s.writers ∧ t.readers = s.readers ∧ t.xmem = s.xmem

/-- Bit `i` of writer `u`'s storage (00_scope R10, 20_memory R62). -/
def State.wbit (s : State) (u i : Nat) : Bool := bitAt (s.writerView u).byte i

/-- Bit `i` of reader `r`'s storage. -/
def State.rbit (s : State) (r i : Nat) : Bool := bitAt (s.readerView r).byte i

/-- The valid bit string of writer `u`. -/
def State.content (s : State) (u : Nat) : BitString :=
  bitsBetween (s.writerView u).byte 0 (s.writer u).valid

/-- XMEM changed at most in the bytes of writer `u`'s region that hold a bit of the span [lo, hi), and
not at all if the writer is OWNED (20_memory R66). The addresses are `regionAddr`'s. -/
abbrev XmemStoredOnly (s t : State) (u lo hi : Nat) : Prop :=
  ((s.writer u).mode = .owned → t.xmem = s.xmem) ∧
  ∀ a, (∀ i, lo ≤ i → i < hi → a ≠ regionAddr (s.writer u).base (i / 8)) →
    t.xmem.read a = s.xmem.read a

/-- MODE, BASE and ST of writer `u` are as before. -/
abbrev SameBinding (s t : State) (u : Nat) : Prop :=
  (t.writer u).st = (s.writer u).st ∧ (t.writer u).mode = (s.writer u).mode ∧
  (t.writer u).base = (s.writer u).base

/-- A field whose j-th bit is `f j` was written at the cursor `c` of writer `u` (41 R140): exactly these
`n` bits changed, new bytes of owned storage are 0 elsewhere, VALID and CAP grew as far as needed, and
the cursor is now `cur`. -/
def FieldWritten (s t : State) (u n cur : Nat) (f : Nat → Bool) : Prop :=
  let x := s.writer u
  let y := t.writer u
  let c := x.cur
  SameBinding s t u ∧
  (∀ j, j < n → t.wbit u (c + j) = f j) ∧
  (∀ i, i < 8 * x.cap → (i < c ∨ c + n ≤ i) → t.wbit u i = s.wbit u i) ∧
  (∀ i, 8 * x.cap ≤ i → i < 8 * y.cap → (i < c ∨ c + n ≤ i) → t.wbit u i = false) ∧
  y.cur = cur ∧ y.valid = max x.valid (c + n) ∧
  y.cap = (if x.mode = .owned then max x.cap (ceil8 (c + n)) else x.cap) ∧
  XmemStoredOnly s t u c (c + n)

/-- The storage of writer `u` can hold `need` bits: within the external region, or within
`OWN_MAX_BYTES` (41 R143, 42 R169). -/
abbrev CapacityFor (s : State) (u need : Nat) : Prop :=
  ((s.writer u).mode = .external → need ≤ 8 * (s.writer u).cap) ∧
  ((s.writer u).mode = .owned → ceil8 need ≤ s.ownMax)

/-! ### Invariants -/

/-- The parameters are in the ranges of 00_scope R6. -/
abbrev State.ParametersOk (s : State) : Prop :=
  (1 ≤ s.nw ∧ s.nw ≤ 16) ∧ (1 ≤ s.nr ∧ s.nr ≤ 16) ∧ s.ownMax ≤ Config.extMaxBytes

/-- The register invariants of every READY unit (10_state R25, R31). -/
abbrev State.UnitsSound (s : State) : Prop :=
  s.ParametersOk ∧
  (∀ x ∈ s.writers, x.st = .ready → x.Sound s.ownMax) ∧
  (∀ x ∈ s.readers, x.st = .ready → x.Sound)

/-- No byte of owned storage exists at index CAP or above; an external writer has none (10_state R27). -/
abbrev Writer.OwnedInside (x : Writer) : Prop :=
  (x.mode = .owned → ∀ cell ∈ x.omem, cell.1 < x.cap) ∧ (x.mode = .external → x.omem = [])

/-- Every padding bit of owned storage is 0 (10_state R28). -/
def Writer.PaddingZero (x : Writer) : Prop :=
  x.mode = .owned → ∀ i, x.valid ≤ i → i < 8 * x.cap → bitAt x.omem.read i = false

/-- The storage invariants of every READY writer (10_state R27, R28). -/
def State.StoragePadded (s : State) : Prop :=
  ∀ x ∈ s.writers, x.st = .ready → x.OwnedInside ∧ x.PaddingZero

/-- Every memory is in canonical form and XMEM lists no address at or above 2^64 (20_memory R60). -/
def State.MemoriesCanonical (s : State) : Prop :=
  s.xmem.wf ∧ (∀ cell ∈ s.xmem, cell.1 < Config.addrSpace) ∧ ∀ x ∈ s.writers, x.omem.wf

/-- The response registers agree with each other (10_state R34 to R37, 60_exceptions R231, R232). -/
def State.ResponseConsistent (s : State) : Prop :=
  s.cause.status = s.status ∧
  (s.status ≠ .ok → s.res = 0 ∧ s.dout = [] ∧ s.errlog.getLsbD s.status.code.toNat = true) ∧
  s.errlog.getLsbD 0 = false ∧ s.errlog.getLsbD 13 = false ∧ s.errlog.getLsbD 14 = false ∧
  s.errlog.getLsbD 15 = false

/-- A good state: every invariant above. -/
def State.Good (s : State) : Prop :=
  s.UnitsSound ∧ s.StoragePadded ∧ s.MemoriesCanonical ∧ s.ResponseConsistent

/-- A run that has not gone wrong: no writer is FAULTED (60_exceptions R241). -/
def State.Unfaulted (s : State) : Prop := ∀ x ∈ s.writers, x.st ≠ .faulted

/-! ### Which causes a command can end with (60_exceptions R233) -/

/-- The causes of a command's own rule, the decode checks left out (60_exceptions R233). -/
def ownCauses : Instr → List Cause
  | .wInito _ => [.nomemGrow]
  | .wAttach _ => [.cfgNvalid, .cfgLength, .cfgWrap]
  | .rAttach _ => [.cfgNvalid, .cfgLength, .cfgWrap]
  | .rAttache _ => [.cfgLength]
  | .rAttachp _ => [.cfgLength, .cfgWrap, .cfgZero]
  | .wWrite _ _ _ => [.writeWidth, .writeCapacity, .nomemGrow]
  | .wWbit _ => [.writeCapacity, .nomemGrow]
  | .wAppend _ => [.appendCapacity, .nomemGrow]
  | .wInsert _ _ _ => [.writeWidth, .insertRange, .insertCapacity, .nomemGrow]
  | .wErase _ => [.eraseRange]
  | .wResize _ => [.resizeExtCapacity, .nomemGrow]
  | .wReserve _ => [.reserveExternal, .nomemGrow]
  | .wSeek _ _ => [.seekNegative, .seekBeyond, .seekOrigin]
  | .rSeek _ _ => [.seekNegative, .seekBeyond, .seekOrigin]
  | .wCopy _ => [.illMode]
  | .rReadu _ _ _ => [.readNobits, .readWidth]
  | .rReads _ _ _ => [.readNobits, .readWidth]
  | _ => []

/-- The causes the decode checks 3 to 6 can give a command; only a writer can be FAULTED
(60_exceptions R233). -/
def decodeCauses (i : Instr) : List Cause :=
  [.illUnit, .illPayload, .illState] ++ if i.namesWriter then [.unitFaulted] else []

/-! ### Operands a command does not use (30_encoding R90, R97) -/

/-- The packets agree on every operand, and every bit of `A`, that the command's rule names, and on the
payload. -/
def operandsAgree (i : Instr) (p q : Packet) : Prop :=
  p.payload = q.payload ∧
  match i with
  | .wInito _ => p.a = q.a
  | .wAttach _ => p.a = q.a ∧ p.b = q.b ∧ p.c = q.c
  | .rAttach _ => p.a = q.a ∧ p.b = q.b ∧ p.c = q.c
  | .rAttache _ => p.a = q.a ∧ p.b = q.b
  | .rAttachp _ => p.a = q.a ∧ p.c = q.c
  | .wWrite _ _ nb => ∀ j, j < nb → p.a.getLsbD j = q.a.getLsbD j
  | .wWbit _ => p.a.getLsbD 0 = q.a.getLsbD 0
  | .wAppend _ => p.a = q.a
  | .wInsert _ _ nb => (∀ j, j < nb → p.a.getLsbD j = q.a.getLsbD j) ∧ p.b = q.b
  | .wErase _ => p.a = q.a ∧ p.b = q.b
  | .wResize _ => p.a = q.a
  | .wReserve _ => p.a = q.a
  | .wSeek _ _ => p.a = q.a
  | .rSeek _ _ => p.a = q.a
  | _ => True

end Sys2Proof.Machine
end

