-- ==== Sys2Proof/Certificates/Slice0/Obligations.lean ====
section
/-! DEFINITION. The statements about the model, taken from the numbered rules of spec/. Nothing is
proved here. The terms they use (WriterTakes, EndsOk, FieldWritten, …) are in Safety.lean. -/

open Sys2Proof Sys2Proof.Machine

/-! ### Encoding and decoding (30_encoding) -/

/-- R91, R98: no bit of a well-formed command's word is dropped or confused. -/
def Obligations.DecodeOfEncodeIsIdentity : Prop :=
  ∀ i : Instr, i.WellFormed → decodeWord (encode i) = .ok i

/-- R91, R98, R102: each legal word has one reading, and it is the word of that reading. -/
def Obligations.EncodeOfDecodeIsIdentity : Prop :=
  ∀ (x : BitVec 32) (i : Instr), decodeWord x = .ok i → i.WellFormed ∧ encode i = x

/-- R99, R98: a command word is legal exactly if it matches a row of the printed opcode map, and it is
read as that row's command. -/
def Obligations.LegalWordsAreTheOpcodeMapRows : Prop :=
  (∀ (x : BitVec 32) (i : Instr), decodeWord x = .ok i →
    ∃ row ∈ opcodeMap, row.mnemonic = i.mnemonic ∧ x &&& row.mask = row.pattern) ∧
  (∀ (x : BitVec 32), ∀ row ∈ opcodeMap, x &&& row.mask = row.pattern →
    ∃ i, decodeWord x = .ok i ∧ i.mnemonic = row.mnemonic)

/-- R91, R98: words written out bit by bit from the encoding, one or more of each family. -/
def Obligations.DecodeReadsSampleWords : Prop :=
  decodeWord 0b00000000000000000000001100000010#32 = .ok (.wAttach 3) ∧
  decodeWord 0b00000000000011010001000000010000#32 = .ok (.wWrite 0 .w16 13) ∧
  decodeWord 0b00000000010000000011000000010011#32 = .ok (.wInsert 0 .w64 64) ∧
  decodeWord 0b00000000000000001000111100010110#32 = .ok (.wSeek 15 .fromCurrent) ∧
  decodeWord 0b00000000000000000000000000100011#32 = .ok (.rAttachp 0) ∧
  decodeWord 0b00000000000010010010001000110001#32 = .ok (.rReads 2 .w32 9) ∧
  decodeWord 0b00000000000000001100000000110010#32 = .ok (.rSeek 0 .invalid)

/-- R104: the four pseudo-instructions are their expansions. -/
def Obligations.PseudoInstructionsExpand : Prop :=
  ∀ u : Nat,
    assembleWriter "W.REWIND" u [] = assembleWriter "W.SEEK" u ["begin".toList, "0".toList] ∧
    assembleReader "R.REWIND" u [] = assembleReader "R.SEEK" u ["begin".toList, "0".toList] ∧
    assembleWriter "W.TOEND" u [] = assembleWriter "W.SEEK" u ["end".toList, "0".toList] ∧
    assembleReader "R.NREAD" u [] = assembleReader "R.TELL" u []

/-! ### Steps and the host's acts (70_reset_and_hazards, 20_memory) -/

/-- R90, R75: when the presented word decodes to `i`, the step is `exec i` on the state that holds the
packet, with the packet gone from what the host will do. -/
def Obligations.StepRunsTheDecodedCommand : Prop :=
  ∀ (s : State) (p : Packet) (rest : List HostAct) (i : Instr),
    s.host = .command p :: rest → decodeWord p.cmd = .ok i →
    step s = exec i { s with pkt := p, host := rest }

/-- R278, R61, R251: with nothing presented the engine holds its state; a host store puts the byte into
XMEM, leaves every other address as it was, and changes nothing of the engine. -/
def Obligations.IdleStepsAndHostStores : Prop :=
  (∀ s : State, s.host = [] → step s = .next s) ∧
  ∀ (s : State) (a : Word) (v : Byte) (rest : List HostAct), s.host = .store a v :: rest →
    ∃ t, step s = .next t ∧ t = { s with host := rest, xmem := t.xmem } ∧
      t.xmem.read a.toNat = v ∧ ∀ b, b ≠ a.toNat → t.xmem.read b = s.xmem.read b

/-- R41, R270, R6: the values after reset, in `State.reset`, which has the default numbers of units, and
after a reset act between commands, which touches neither XMEM nor the parameters (held in the state,
log 5). That it keeps the responses already delivered is the model's choice (log 10). -/
def Obligations.ResetLeavesTheTableValues : Prop :=
  let engineReset (t : State) : Prop :=
    (∀ x ∈ t.writers, x = { st := .unbound, mode := .owned, base := 0, cap := 0, valid := 0,
                            cur := 0, omem := [] }) ∧
    (∀ x ∈ t.readers, x = { st := .unbound, base := 0, cap := 0, valid := 0, cur := 0 }) ∧
    t.status = .ok ∧ t.cause = .noCause ∧ t.res = 0 ∧ t.errlog = 0 ∧ t.dout = []
  engineReset State.reset ∧ State.reset.nw = 1 ∧ State.reset.nr = 1 ∧
  ∀ (s : State) (rest : List HostAct), s.host = .reset :: rest →
    ∃ t, step s = .next t ∧ engineReset t ∧ t.nw = s.nw ∧ t.nr = s.nr ∧ t.ownMax = s.ownMax ∧
      t.xmem = s.xmem ∧ t.host = rest ∧ t.responses = s.responses

/-- R270, 93 U6: reset in the middle of a command leaves the engine reset and changes XMEM at most in
bytes of an EXTERNAL writer's region that the abandoned command's rule could write. XMEM is unchanged if
the word is no command, if the command names a reader (R32) or a writer that is not EXTERNAL (R62), and if
the command would not have ended with OK (R236, R241). Holds whatever the free bytes are (log 11). That no
response is delivered is the model's inference from R270's "abandoned" (log 20), and that those already
delivered stay is the model's choice (log 10). -/
def Obligations.ResetDuringACommandIsConfined : Prop :=
  ∀ (s : State) (p : Packet) (rest : List HostAct), s.host = .resetDuring p :: rest →
    ∃ t, step s = .next t ∧
      (∀ x ∈ t.writers, x = Writer.reset) ∧ (∀ x ∈ t.readers, x = Reader.reset) ∧
      t.nw = s.nw ∧ t.nr = s.nr ∧ t.status = .ok ∧ t.cause = .noCause ∧ t.res = 0 ∧
      t.errlog = 0 ∧ t.dout = [] ∧ t.host = rest ∧ t.responses = s.responses ∧
      (∀ e, decodeWord p.cmd = .error e → t.xmem = s.xmem) ∧
      ((¬ ∃ t', runPacket (s.take p rest) = .next t' ∧ t'.status = .ok) → t.xmem = s.xmem) ∧
      (∀ i, decodeWord p.cmd = .ok i → i.namesWriter = false → t.xmem = s.xmem) ∧
      (∀ i, decodeWord p.cmd = .ok i → (s.writer i.unitIndex).mode ≠ .external →
        t.xmem = s.xmem) ∧
      (∀ i, decodeWord p.cmd = .ok i → ∀ a,
        (∀ k, (writeSpan i p (s.writer i.unitIndex)).1 ≤ k →
          k < (writeSpan i p (s.writer i.unitIndex)).2 →
          a ≠ regionAddr (s.writer i.unitIndex).base (k / 8)) →
        t.xmem.read a = s.xmem.read a)

/-! ### Invariants (10_state) -/

/-- Every invariant holds after reset, for every legal setting of the parameters. -/
def Obligations.GoodAtReset : Prop :=
  ∀ c : Config, c.WellFormed → (State.resetWith c).Good

/-- R25, R31, R6: every step keeps `CUR <= VALID <= 8 * CAP`, the region inside XMEM, OWNED capacity
within its bound with BASE 0, and the numbers of units. -/
def Obligations.StepKeepsUnitsSound : Prop :=
  ∀ s t : State, s.UnitsSound → step s = .next t → t.UnitsSound

/-- R27, R28: every step keeps every padding bit of owned storage 0 and no owned byte at or above CAP. -/
def Obligations.StepKeepsOwnedPaddingZero : Prop :=
  ∀ s t : State, s.UnitsSound → s.StoragePadded → step s = .next t → t.StoragePadded

/-- R60, log 3, log 15: every step keeps every memory in canonical form and XMEM within its addresses. -/
def Obligations.StepKeepsMemoriesCanonical : Prop :=
  ∀ s t : State, s.UnitsSound → s.MemoriesCanonical → step s = .next t → t.MemoriesCanonical

/-- R35, R36, R37, R231, R232: every step keeps the response registers consistent. -/
def Obligations.StepKeepsResponseConsistent : Prop :=
  ∀ s t : State, s.ResponseConsistent → step s = .next t → t.ResponseConsistent

/-- R230, R285, R76: from a state whose units are sound, no act of the host stops the machine. -/
def Obligations.SoundStatesAlwaysStep : Prop :=
  ∀ s : State, s.UnitsSound → ∃ t, step s = .next t

/-! ### The bit primitives and the internal procedures (20_memory, 41, 42, 44) -/

/-- R70: PutChunk writes exactly bits c .. c+k-1 and advances the cursor; R71's window algorithm, which
`putChunk` is, has this bit-level effect. -/
def Obligations.PutChunkWritesExactlyItsBits : Prop :=
  ∀ (v : WriterView) (chunk : Byte) (k : Nat), 1 ≤ k → k ≤ 8 → chunk.toNat < 2 ^ k →
    let c := v.unit.cur
    let w := putChunk v chunk k
    (∀ j, j < k → bitAt w.byte (c + j) = chunk.getLsbD (k - 1 - j)) ∧
    (∀ i, (i < c ∨ c + k ≤ i) → bitAt w.byte i = bitAt v.byte i) ∧
    (∀ b, b ≠ c / 8 → (c % 8 + k ≤ 8 ∨ b ≠ c / 8 + 1) → w.byte b = v.byte b) ∧
    (v.unit.mode = .owned → w.xmem = v.xmem) ∧
    (v.unit.mode = .external → w.unit.omem = v.unit.omem ∧
      ∀ a, a ≠ regionAddr v.unit.base (c / 8) →
        (c % 8 + k ≤ 8 ∨ a ≠ regionAddr v.unit.base (c / 8 + 1)) → w.xmem.read a = v.xmem.read a) ∧
    w.unit = { v.unit with cur := c + k, valid := max v.unit.valid (c + k), omem := w.unit.omem }

/-- R72: GetChunk answers `val(bits(S, c, c + k))`, below 2^k, and advances the cursor. -/
def Obligations.GetChunkReadsItsBits : Prop :=
  ∀ (v : ReaderView) (k : Nat), 1 ≤ k → k ≤ 8 →
    let c := v.unit.cur
    (getChunk v k).1.toNat = bitsVal (bitsBetween v.byte c (c + k)) ∧
    (getChunk v k).1.toNat < 2 ^ k ∧
    (getChunk v k).2 = { v with unit := { v.unit with cur := c + k } }

/-- R74: what PutChunk put at a position, GetChunk reads back at that position from any reader whose
storage still holds those k bits as PutChunk left them. -/
def Obligations.WindowSymmetry : Prop :=
  ∀ (v : WriterView) (r : ReaderView) (chunk : Byte) (k : Nat), 1 ≤ k → k ≤ 8 →
    chunk.toNat < 2 ^ k → r.unit.cur = v.unit.cur →
    (∀ j, j < k →
      bitAt r.byte (v.unit.cur + j) = bitAt (putChunk v chunk k).byte (v.unit.cur + j)) →
    (getChunk r k).1 = chunk

/-- R140: WriteField puts `str(value, n)` at the cursor and changes no other bit. -/
def Obligations.WriteFieldWritesTheField : Prop :=
  ∀ (v : WriterView) (value : Word) (n : Nat), n ≤ 64 → value.toNat < 2 ^ n →
    let c := v.unit.cur
    let w := writeField v value n
    bitsBetween w.byte c (c + n) = bitsStr value n ∧
    (∀ i, (i < c ∨ c + n ≤ i) → bitAt w.byte i = bitAt v.byte i) ∧
    w.unit.cur = c + n ∧ (c ≤ v.unit.valid → w.unit.valid = max v.unit.valid (c + n)) ∧
    w.unit = { v.unit with cur := w.unit.cur, valid := w.unit.valid, omem := w.unit.omem }

/-- R200: ReadField answers `val(bits(S, c, c + n))` and advances the cursor by n. -/
def Obligations.ReadFieldReadsTheField : Prop :=
  ∀ (v : ReaderView) (n : Nat), 1 ≤ n → n ≤ 64 →
    (readField v n).1.toNat = bitsVal (bitsBetween v.byte v.unit.cur (v.unit.cur + n)) ∧
    (readField v n).2 = { v with unit := { v.unit with cur := v.unit.cur + n } }

/-- R161: the net effect of Truncate. -/
def Obligations.TruncateCutsTheContent : Prop :=
  ∀ (v : WriterView) (len : Nat), len ≤ v.unit.valid → v.unit.valid ≤ 8 * v.unit.cap →
    let w := truncateTo v len
    let old := v.unit.valid
    (len = old → w = v) ∧
    (len < old →
      (∀ i, i < len → bitAt w.byte i = bitAt v.byte i) ∧
      (v.unit.mode = .owned →
        w.unit.cap = ceil8 len ∧ ∀ i, len ≤ i → bitAt w.byte i = false) ∧
      (v.unit.mode = .external →
        w.unit.cap = v.unit.cap ∧
        (∀ i, len ≤ i → i < 8 * ceil8 old → bitAt w.byte i = false) ∧
        ∀ i, 8 * ceil8 old ≤ i → bitAt w.byte i = bitAt v.byte i) ∧
      w.unit = { v.unit with cap := w.unit.cap, valid := len, omem := w.unit.omem })

/-- R162: the net effect of TailWrite: s stands at the end of the valid content, nothing else changes. -/
def Obligations.TailWriteAppendsAtTheEnd : Prop :=
  ∀ (v : WriterView) (bits : BitString),
    let w := tailWrite v bits
    let old := v.unit.valid
    bitsBetween w.byte old (old + bits.length) = bits ∧
    (∀ i, (i < old ∨ old + bits.length ≤ i) → bitAt w.byte i = bitAt v.byte i) ∧
    w.unit = { v.unit with valid := old + bits.length, cur := old + bits.length,
                           omem := w.unit.omem }

/-! ### Construction and release (40_construct) -/

/-- R120: W.INITO. -/
def Obligations.WInitoConstructsOwnedWriter : Prop :=
  ∀ (s : State) (u : Nat),
    (u < s.nw → s.pkt.payload = [] → (s.writer u).st = .ready →
      exec (.wInito u) s = .next (s.raise .illState)) ∧
    (s.WriterBinds u →
      (s.pkt.a.toNat > s.ownMax → exec (.wInito u) s = .next (s.raise .nomemGrow)) ∧
      (s.pkt.a.toNat ≤ s.ownMax → ∃ t, exec (.wInito u) s = .next t ∧ EndsOk s t 0 [] ∧
        OnlyWriterChanged s t u ∧ t.xmem = s.xmem ∧
        t.writer u = { st := .ready, mode := .owned, base := 0, cap := s.pkt.a.toNat, valid := 0,
                       cur := 0, omem := [] } ∧
        ∀ k, k < s.pkt.a.toNat → (t.writerView u).byte k = 0))

/-- R121: W.ATTACH, its three checks in order. -/
def Obligations.WAttachConstructsExternalWriter : Prop :=
  ∀ (s : State) (u : Nat),
    let base := s.pkt.a
    let len := s.pkt.b.toNat
    let nv := s.pkt.c.toNat
    (u < s.nw → s.pkt.payload = [] → (s.writer u).st = .ready →
      exec (.wAttach u) s = .next (s.raise .illState)) ∧
    (s.WriterBinds u →
      (len > 2 ^ 61 - 1 → exec (.wAttach u) s = .next (s.raise .cfgLength)) ∧
      (len ≤ 2 ^ 61 - 1 → base.toNat + len > 2 ^ 64 →
        exec (.wAttach u) s = .next (s.raise .cfgWrap)) ∧
      (len ≤ 2 ^ 61 - 1 → base.toNat + len ≤ 2 ^ 64 → nv > 8 * len →
        exec (.wAttach u) s = .next (s.raise .cfgNvalid)) ∧
      (len ≤ 2 ^ 61 - 1 → base.toNat + len ≤ 2 ^ 64 → nv ≤ 8 * len →
        ∃ t, exec (.wAttach u) s = .next t ∧ EndsOk s t 0 [] ∧ OnlyWriterChanged s t u ∧
          t.xmem = s.xmem ∧
          t.writer u = { st := .ready, mode := .external, base := base, cap := len,
                         valid := if nv = 0 then 8 * len else nv, cur := 0, omem := [] }))

/-- R123: R.ATTACH, its three checks in order. -/
def Obligations.RAttachConstructsReader : Prop :=
  ∀ (s : State) (r : Nat),
    let base := s.pkt.a
    let len := s.pkt.b.toNat
    let nv := s.pkt.c.toNat
    (r < s.nr → s.pkt.payload = [] → (s.reader r).st = .ready →
      exec (.rAttach r) s = .next (s.raise .illState)) ∧
    (s.ReaderBinds r →
      (len > 2 ^ 61 - 1 → exec (.rAttach r) s = .next (s.raise .cfgLength)) ∧
      (len ≤ 2 ^ 61 - 1 → base.toNat + len > 2 ^ 64 →
        exec (.rAttach r) s = .next (s.raise .cfgWrap)) ∧
      (len ≤ 2 ^ 61 - 1 → base.toNat + len ≤ 2 ^ 64 → nv > 8 * len →
        exec (.rAttach r) s = .next (s.raise .cfgNvalid)) ∧
      (len ≤ 2 ^ 61 - 1 → base.toNat + len ≤ 2 ^ 64 → nv ≤ 8 * len →
        ∃ t, exec (.rAttach r) s = .next t ∧ EndsOk s t 0 [] ∧ OnlyReaderChanged s t r ∧
          t.xmem = s.xmem ∧
          t.reader r = { st := .ready, base := base, cap := len,
                         valid := if nv = 0 then 8 * len else nv, cur := 0 }))

/-- R124: R.ATTACHE over the half-open region from begin to end. -/
def Obligations.RAttacheConstructsReader : Prop :=
  ∀ (s : State) (r : Nat),
    let first := s.pkt.a.toNat
    let last := s.pkt.b.toNat
    (r < s.nr → s.pkt.payload = [] → (s.reader r).st = .ready →
      exec (.rAttache r) s = .next (s.raise .illState)) ∧
    (s.ReaderBinds r →
      ((last < first ∨ last > first + (2 ^ 61 - 1)) →
        exec (.rAttache r) s = .next (s.raise .cfgLength)) ∧
      (first ≤ last → last ≤ first + (2 ^ 61 - 1) →
        ∃ t, exec (.rAttache r) s = .next t ∧ EndsOk s t 0 [] ∧ OnlyReaderChanged s t r ∧
          t.xmem = s.xmem ∧
          t.reader r = { st := .ready, base := s.pkt.a, cap := last - first,
                         valid := 8 * (last - first), cur := 0 }))

/-- R125: R.ATTACHP from a raw pointer and a valid-bits count, its three checks in order. -/
def Obligations.RAttachpConstructsReader : Prop :=
  ∀ (s : State) (r : Nat),
    let nv := s.pkt.c.toNat
    let len := (nv + 7) / 8
    (r < s.nr → s.pkt.payload = [] → (s.reader r).st = .ready →
      exec (.rAttachp r) s = .next (s.raise .illState)) ∧
    (s.ReaderBinds r →
      (nv = 0 → exec (.rAttachp r) s = .next (s.raise .cfgZero)) ∧
      (nv ≠ 0 → len > 2 ^ 61 - 1 → exec (.rAttachp r) s = .next (s.raise .cfgLength)) ∧
      (nv ≠ 0 → len ≤ 2 ^ 61 - 1 → s.pkt.a.toNat + len > 2 ^ 64 →
        exec (.rAttachp r) s = .next (s.raise .cfgWrap)) ∧
      (nv ≠ 0 → len ≤ 2 ^ 61 - 1 → s.pkt.a.toNat + len ≤ 2 ^ 64 →
        ∃ t, exec (.rAttachp r) s = .next t ∧ EndsOk s t 0 [] ∧ OnlyReaderChanged s t r ∧
          t.xmem = s.xmem ∧
          t.reader r = { st := .ready, base := s.pkt.a, cap := len, valid := nv, cur := 0 }))

/-- R122, R126: W.FREE and R.FREE release a READY unit; owned storage ceases to exist and no byte of
XMEM is touched. That the other registers keep their values is R40's table (log 7). -/
def Obligations.FreeReleasesTheUnit : Prop :=
  (∀ (s : State) (u : Nat),
    (u < s.nw → s.pkt.payload = [] → (s.writer u).st = .unbound →
      exec (.wFree u) s = .next (s.raise .illState)) ∧
    (u < s.nw → s.pkt.payload = [] → (s.writer u).st = .faulted →
      exec (.wFree u) s = .next (s.raise .unitFaulted)) ∧
    (s.WriterTakes u →
      ∃ t, exec (.wFree u) s = .next t ∧ EndsOk s t 0 [] ∧ OnlyWriterChanged s t u ∧
        t.xmem = s.xmem ∧ ((s.writer u).mode = .owned → (t.writer u).omem = []) ∧
        t.writer u = { s.writer u with st := .unbound, omem := (t.writer u).omem })) ∧
  (∀ (s : State) (r : Nat),
    (r < s.nr → s.pkt.payload = [] → (s.reader r).st = .unbound →
      exec (.rFree r) s = .next (s.raise .illState)) ∧
    (s.ReaderTakes r →
      ∃ t, exec (.rFree r) s = .next t ∧ EndsOk s t 0 [] ∧ OnlyReaderChanged s t r ∧
        t.xmem = s.xmem ∧ t.reader r = { s.reader r with st := .unbound }))

/-! ### Writing at the cursor (41_writer_write) -/

/-- R141: W.WRITE, its checks in order and its whole effect. -/
def Obligations.WWriteWritesTheLowBits : Prop :=
  ∀ (s : State) (u : Nat) (tw : TypeWidth) (nb : Nat), s.WriterTakes u →
    let x := s.writer u
    (nb > typeBits tw → exec (.wWrite u tw nb) s = .next (s.raise .writeWidth)) ∧
    (nb ≤ typeBits tw → x.mode = .external → x.cur + nb > 8 * x.cap →
      exec (.wWrite u tw nb) s = .next (s.raise .writeCapacity)) ∧
    (nb ≤ typeBits tw → x.mode = .owned → ceil8 (x.cur + nb) > s.ownMax →
      exec (.wWrite u tw nb) s = .next (s.raise .nomemGrow)) ∧
    (nb ≤ typeBits tw → CapacityFor s u (x.cur + nb) →
      ∃ t, exec (.wWrite u tw nb) s = .next t ∧ EndsOk s t 0 [] ∧ OnlyWriterChanged s t u ∧
        FieldWritten s t u nb (x.cur + nb) fun j => s.pkt.a.getLsbD (nb - 1 - j))

/-- R142: W.WBIT is W.WRITE of the one bit A[0], whatever the type width. -/
def Obligations.WWbitIsAOneBitWrite : Prop :=
  (∀ (s : State) (u : Nat) (tw : TypeWidth), exec (.wWbit u) s = exec (.wWrite u tw 1) s) ∧
  ∀ (s : State) (u : Nat), s.WriterTakes u →
    let x := s.writer u
    (x.mode = .external → x.cur + 1 > 8 * x.cap →
      exec (.wWbit u) s = .next (s.raise .writeCapacity)) ∧
    (x.mode = .owned → ceil8 (x.cur + 1) > s.ownMax →
      exec (.wWbit u) s = .next (s.raise .nomemGrow)) ∧
    (CapacityFor s u (x.cur + 1) →
      ∃ t, exec (.wWbit u) s = .next t ∧ EndsOk s t 0 [] ∧ OnlyWriterChanged s t u ∧
        FieldWritten s t u 1 (x.cur + 1) fun _ => s.pkt.a.getLsbD 0)

/-- R144: W.APPEND writes its bytes at the cursor; the cursor follows them only from the end. -/
def Obligations.WAppendWritesBytesAtTheCursor : Prop :=
  ∀ (s : State) (u : Nat), u < s.nw → s.pkt.payload.length = s.pkt.a.toNat →
    (s.writer u).st = .ready → (s.writer u).Sound s.ownMax →
    let x := s.writer u
    let n := 8 * s.pkt.payload.length
    (x.mode = .external → x.cur + n > 8 * x.cap →
      exec (.wAppend u) s = .next (s.raise .appendCapacity)) ∧
    (x.mode = .owned → ceil8 (x.cur + n) > s.ownMax →
      exec (.wAppend u) s = .next (s.raise .nomemGrow)) ∧
    (CapacityFor s u (x.cur + n) →
      ∃ t, exec (.wAppend u) s = .next t ∧ EndsOk s t 0 [] ∧ OnlyWriterChanged s t u ∧
        FieldWritten s t u n (if x.cur = x.valid then x.cur + n else x.cur)
          fun j => (s.pkt.payload.getD (j / 8) 0).getLsbD (7 - j % 8))

/-- R146: W.ALIGN writes zero bits up to the next byte boundary and never fails. -/
def Obligations.WAlignPadsWithZeros : Prop :=
  ∀ (s : State) (u : Nat), s.WriterTakes u →
    let x := s.writer u
    let pad := (8 - x.cur % 8) % 8
    ∃ t, exec (.wAlign u) s = .next t ∧ EndsOk s t 0 [] ∧ OnlyWriterChanged s t u ∧
      FieldWritten s t u pad (8 * ceil8 x.cur) (fun _ => false) ∧
      (x.cur % 8 = 0 → NothingStored s t)

/-! ### Structural edits (42_writer_edit) -/

/-- R163: W.INSERT, its checks in order, the resulting content and the cursor rule. -/
def Obligations.WInsertInsertsTheField : Prop :=
  ∀ (s : State) (u : Nat) (tw : TypeWidth) (nb : Nat), s.WriterTakes u →
    let x := s.writer u
    let p := s.pkt.b.toNat
    (nb > typeBits tw → exec (.wInsert u tw nb) s = .next (s.raise .writeWidth)) ∧
    (nb ≤ typeBits tw → p > x.valid →
      exec (.wInsert u tw nb) s = .next (s.raise .insertRange)) ∧
    (nb ≤ typeBits tw → p ≤ x.valid → x.mode = .external → x.valid + nb > 8 * x.cap →
      exec (.wInsert u tw nb) s = .next (s.raise .insertCapacity)) ∧
    (nb ≤ typeBits tw → p ≤ x.valid → x.mode = .owned → ceil8 (x.valid + nb) > s.ownMax →
      exec (.wInsert u tw nb) s = .next (s.raise .nomemGrow)) ∧
    (nb = 0 → p ≤ x.valid →
      ∃ t, exec (.wInsert u tw nb) s = .next t ∧ EndsOk s t 0 [] ∧ NothingStored s t) ∧
    (0 < nb → nb ≤ typeBits tw → p ≤ x.valid → CapacityFor s u (x.valid + nb) →
      ∃ t, exec (.wInsert u tw nb) s = .next t ∧ EndsOk s t 0 [] ∧ OnlyWriterChanged s t u ∧
        SameBinding s t u ∧
        t.content u = (s.content u).take p ++ bitsStr s.pkt.a nb ++ (s.content u).drop p ∧
        (t.writer u).valid = x.valid + nb ∧
        (t.writer u).cur = (if x.cur < p then x.cur else x.cur + nb) ∧
        (x.mode = .external → (t.writer u).cap = x.cap) ∧
        (x.mode = .owned → (t.writer u).cap =
          (if p < x.valid then ceil8 (x.valid + nb) else max x.cap (ceil8 (x.valid + nb)))) ∧
        XmemStoredOnly s t u p
          (if p < x.valid then max (x.valid + nb) (8 * ceil8 x.valid) else x.valid + nb))

/-- R165: W.ERASE, its check, the resulting content and the cursor rule. -/
def Obligations.WEraseRemovesTheRange : Prop :=
  ∀ (s : State) (u : Nat), s.WriterTakes u →
    let x := s.writer u
    let f := s.pkt.a.toNat
    let n := s.pkt.b.toNat
    (f + n > x.valid → exec (.wErase u) s = .next (s.raise .eraseRange)) ∧
    (f + n ≤ x.valid → n = 0 →
      ∃ t, exec (.wErase u) s = .next t ∧ EndsOk s t 0 [] ∧ NothingStored s t) ∧
    (f + n ≤ x.valid → 0 < n →
      ∃ t, exec (.wErase u) s = .next t ∧ EndsOk s t 0 [] ∧ OnlyWriterChanged s t u ∧
        SameBinding s t u ∧
        t.content u = (s.content u).take f ++ (s.content u).drop (f + n) ∧
        (t.writer u).valid = x.valid - n ∧
        (t.writer u).cur =
          (if x.cur < f then x.cur else if x.cur < f + n then f else x.cur - n) ∧
        (x.mode = .external → (t.writer u).cap = x.cap) ∧
        (x.mode = .owned → (t.writer u).cap = ceil8 (x.valid - n)) ∧
        XmemStoredOnly s t u f (8 * ceil8 x.valid))

/-- R164: the storage outside the valid bits after a successful insert or erase of at least one bit. -/
def Obligations.InsertAndEraseClosedFormPadding : Prop :=
  (∀ (s t : State) (u : Nat) (tw : TypeWidth) (nb : Nat), 0 < nb →
    (s.writer u).PaddingZero → exec (.wInsert u tw nb) s = .next t → t.status = .ok →
    let x := s.writer u
    let p := s.pkt.b.toNat
    t.content u = (s.content u).take p ++ bitsStr s.pkt.a nb ++ (s.content u).drop p ∧
    (t.writer u).valid = x.valid + nb ∧
    (x.mode = .owned →
      (∀ i, x.valid + nb ≤ i → i < 8 * (t.writer u).cap → t.wbit u i = false) ∧
      (t.writer u).cap =
        (if p < x.valid then ceil8 (x.valid + nb) else max x.cap (ceil8 (x.valid + nb)))) ∧
    (x.mode = .external →
      (p < x.valid → ∀ i, x.valid + nb ≤ i → i < 8 * ceil8 x.valid → t.wbit u i = false) ∧
      (p < x.valid → ∀ i, x.valid + nb ≤ i → 8 * ceil8 x.valid ≤ i →
        t.wbit u i = s.wbit u i) ∧
      (p = x.valid → ∀ i, x.valid + nb ≤ i → t.wbit u i = s.wbit u i))) ∧
  (∀ (s t : State) (u : Nat), 0 < s.pkt.b.toNat →
    exec (.wErase u) s = .next t → t.status = .ok →
    let x := s.writer u
    let n := s.pkt.b.toNat
    t.content u = (s.content u).take s.pkt.a.toNat ++ (s.content u).drop (s.pkt.a.toNat + n) ∧
    (t.writer u).valid = x.valid - n ∧
    (x.mode = .owned →
      (∀ i, x.valid - n ≤ i → i < 8 * (t.writer u).cap → t.wbit u i = false) ∧
      (t.writer u).cap = ceil8 (x.valid - n)) ∧
    (x.mode = .external →
      (∀ i, x.valid - n ≤ i → i < 8 * ceil8 x.valid → t.wbit u i = false) ∧
      ∀ i, 8 * ceil8 x.valid ≤ i → t.wbit u i = s.wbit u i))

/-- R166: W.RESIZE, the fault, the error, and the effect of growing, shrinking and neither. -/
def Obligations.WResizeSetsTheLength : Prop :=
  ∀ (s : State) (u : Nat), s.WriterTakes u →
    let x := s.writer u
    let len := s.pkt.a.toNat
    (x.mode = .external → len > 8 * x.cap →
      exec (.wResize u) s = .next (s.raiseFault u .resizeExtCapacity)) ∧
    (x.mode = .owned → ceil8 len > s.ownMax →
      exec (.wResize u) s = .next (s.raise .nomemGrow)) ∧
    (CapacityFor s u len →
      ∃ t, exec (.wResize u) s = .next t ∧ EndsOk s t 0 [] ∧ OnlyWriterChanged s t u ∧
        SameBinding s t u ∧ (t.writer u).valid = len ∧ (t.writer u).cur = min x.cur len ∧
        (∀ i, i < min x.valid len → t.wbit u i = s.wbit u i) ∧
        (len = x.valid → NothingStored s t) ∧
        (x.valid < len →
          (∀ i, x.valid ≤ i → i < len → t.wbit u i = false) ∧
          (∀ i, len ≤ i → i < 8 * x.cap → t.wbit u i = s.wbit u i) ∧
          (∀ i, len ≤ i → 8 * x.cap ≤ i → i < 8 * (t.writer u).cap → t.wbit u i = false) ∧
          (t.writer u).cap = (if x.mode = .owned then max x.cap (ceil8 len) else x.cap)) ∧
        (len < x.valid →
          (x.mode = .owned → (t.writer u).cap = ceil8 len ∧
            ∀ i, len ≤ i → i < 8 * ceil8 len → t.wbit u i = false) ∧
          (x.mode = .external → (t.writer u).cap = x.cap ∧
            (∀ i, len ≤ i → i < 8 * ceil8 x.valid → t.wbit u i = false) ∧
            ∀ i, 8 * ceil8 x.valid ≤ i → t.wbit u i = s.wbit u i)) ∧
        XmemStoredOnly s t u (min x.valid len) (if len < x.valid then 8 * ceil8 x.valid else len))

/-- R168: W.RESERVE grows owned capacity with zero bytes and changes nothing else. -/
def Obligations.WReserveGrowsOwnedCapacity : Prop :=
  ∀ (s : State) (u : Nat), s.WriterTakes u →
    let x := s.writer u
    let need := ceil8 s.pkt.a.toNat
    (x.mode = .external → exec (.wReserve u) s = .next (s.raise .reserveExternal)) ∧
    (x.mode = .owned → need > s.ownMax → exec (.wReserve u) s = .next (s.raise .nomemGrow)) ∧
    (x.mode = .owned → need ≤ s.ownMax →
      ∃ t, exec (.wReserve u) s = .next t ∧ EndsOk s t 0 [] ∧ OnlyWriterChanged s t u ∧
        t.xmem = s.xmem ∧
        t.writer u = { x with cap := max x.cap need, omem := (t.writer u).omem } ∧
        (∀ k, k < x.cap → (t.writerView u).byte k = (s.writerView u).byte k) ∧
        ∀ k, x.cap ≤ k → k < need → (t.writerView u).byte k = 0)

/-! ### Seek, accessors, copy and dump (43, 44) -/

/-- R187 with R180 and R204: W.SEEK and R.SEEK set CUR to base plus signed offset, an exact sum, if it
lies in 0 .. VALID; the three failures in order. -/
def Obligations.SeekMovesTheCursor : Prop :=
  let baseIs (org : Origin) (valid cur base : Nat) : Prop :=
    (org = .fromBegin ∧ base = 0) ∨ (org = .fromEnd ∧ base = valid) ∨
    (org = .fromCurrent ∧ base = cur)
  (∀ (s : State) (u : Nat), s.WriterTakes u →
    let x := s.writer u
    exec (.wSeek u .invalid) s = .next (s.raise .seekOrigin) ∧
    ∀ (org : Origin) (base : Nat), baseIs org x.valid x.cur base →
      let target : Int := (base : Int) + s.pkt.a.toInt
      (target < 0 → exec (.wSeek u org) s = .next (s.raise .seekNegative)) ∧
      (target > (x.valid : Int) → exec (.wSeek u org) s = .next (s.raise .seekBeyond)) ∧
      (0 ≤ target → target ≤ (x.valid : Int) →
        ∃ t, exec (.wSeek u org) s = .next t ∧ EndsOk s t 0 [] ∧ OnlyWriterChanged s t u ∧
          t.xmem = s.xmem ∧ t.writer u = { x with cur := target.toNat })) ∧
  (∀ (s : State) (r : Nat), s.ReaderTakes r →
    let x := s.reader r
    exec (.rSeek r .invalid) s = .next (s.raise .seekOrigin) ∧
    ∀ (org : Origin) (base : Nat), baseIs org x.valid x.cur base →
      let target : Int := (base : Int) + s.pkt.a.toInt
      (target < 0 → exec (.rSeek r org) s = .next (s.raise .seekNegative)) ∧
      (target > (x.valid : Int) → exec (.rSeek r org) s = .next (s.raise .seekBeyond)) ∧
      (0 ≤ target → target ≤ (x.valid : Int) →
        ∃ t, exec (.rSeek r org) s = .next t ∧ EndsOk s t 0 [] ∧ OnlyReaderChanged s t r ∧
          t.xmem = s.xmem ∧ t.reader r = { x with cur := target.toNat }))

/-- R181, R182, R183, R184: the writer accessors answer CUR, VALID, its bytes and BASE, and change no
state. RES holds the whole number. -/
def Obligations.WriterAccessorsAnswer : Prop :=
  ∀ (s : State) (u : Nat), s.WriterTakes u →
    let x := s.writer u
    let answers (i : Instr) (n : Nat) : Prop :=
      ∃ t, exec i s = .next t ∧ EndsOk s t t.res [] ∧ t.res.toNat = n ∧ NothingStored s t
    answers (.wTell u) x.cur ∧ answers (.wNbits u) x.valid ∧
    answers (.wNbytes u) ((x.valid + 7) / 8) ∧ answers (.wPtr u) x.base.toNat

/-- R205 to R210: the reader accessors answer CUR, VALID - CUR, VALID, its bytes, whether CUR = VALID,
and BASE, and change no state. -/
def Obligations.ReaderAccessorsAnswer : Prop :=
  ∀ (s : State) (r : Nat), s.ReaderTakes r →
    let x := s.reader r
    let answers (i : Instr) (n : Nat) : Prop :=
      ∃ t, exec i s = .next t ∧ EndsOk s t t.res [] ∧ t.res.toNat = n ∧ NothingStored s t
    answers (.rTell r) x.cur ∧ answers (.rLeft r) (x.valid - x.cur) ∧
    answers (.rNbits r) x.valid ∧ answers (.rNbytes r) ((x.valid + 7) / 8) ∧
    answers (.rEof r) (if x.cur = x.valid then 1 else 0) ∧ answers (.rPtr r) x.base.toNat

/-- R185: W.COPY answers the valid bytes of an OWNED writer and is refused on an EXTERNAL one. -/
def Obligations.WCopyAnswersTheValidBytes : Prop :=
  ∀ (s : State) (u : Nat), s.WriterTakes u →
    let x := s.writer u
    (x.mode = .external → exec (.wCopy u) s = .next (s.raise .illMode)) ∧
    (x.mode = .owned →
      ∃ t, exec (.wCopy u) s = .next t ∧ EndsOk s t t.res t.dout ∧ NothingStored s t ∧
        t.res.toNat = ceil8 x.valid ∧ t.dout.length = ceil8 x.valid ∧
        ∀ k, k < ceil8 x.valid → t.dout[k]? = some ((s.writerView u).byte k))

/-- R186, R211: the dumps answer one byte `0x30 + bit(S, i)` per valid bit, bit 0 first, and change no
state. -/
def Obligations.DumpsAnswerOneCharacterPerBit : Prop :=
  (∀ (s : State) (u : Nat), s.WriterTakes u →
    ∃ t, exec (.wDump u) s = .next t ∧ EndsOk s t t.res t.dout ∧ NothingStored s t ∧
      t.res.toNat = (s.writer u).valid ∧ t.dout.length = (s.writer u).valid ∧
      ∀ i, i < (s.writer u).valid →
        t.dout[i]? = some (0x30#8 + BitVec.ofNat 8 (s.wbit u i).toNat)) ∧
  (∀ (s : State) (r : Nat), s.ReaderTakes r →
    ∃ t, exec (.rDump r) s = .next t ∧ EndsOk s t t.res t.dout ∧ NothingStored s t ∧
      t.res.toNat = (s.reader r).valid ∧ t.dout.length = (s.reader r).valid ∧
      ∀ i, i < (s.reader r).valid →
        t.dout[i]? = some (0x30#8 + BitVec.ofNat 8 (s.rbit r i).toNat))

/-! ### Reads (44_reader) -/

/-- R202: R.READU, its checks in order and its result. -/
def Obligations.RReaduReadsUnsigned : Prop :=
  ∀ (s : State) (r : Nat) (tw : TypeWidth) (nb : Nat), s.ReaderTakes r →
    let x := s.reader r
    (nb = 0 → ∃ t, exec (.rReadu r tw nb) s = .next t ∧ EndsOk s t 0 [] ∧ NothingStored s t) ∧
    (0 < nb → nb > x.valid - x.cur →
      exec (.rReadu r tw nb) s = .next (s.raise .readNobits)) ∧
    (0 < nb → nb ≤ x.valid - x.cur → nb > typeBits tw →
      exec (.rReadu r tw nb) s = .next (s.raise .readWidth)) ∧
    (0 < nb → nb ≤ x.valid - x.cur → nb ≤ typeBits tw →
      ∃ t, exec (.rReadu r tw nb) s = .next t ∧ EndsOk s t t.res [] ∧
        t.res.toNat = bitsVal (bitsBetween (s.readerView r).byte x.cur (x.cur + nb)) ∧
        t.res.toNat < 2 ^ nb ∧ OnlyReaderChanged s t r ∧ t.xmem = s.xmem ∧
        t.reader r = { x with cur := x.cur + nb })

/-- R203: R.READS, its checks in order; the result is the nb-bit two's complement reading of the field,
sign-extended to 64 bits. -/
def Obligations.RReadsReadsSigned : Prop :=
  ∀ (s : State) (r : Nat) (tw : TypeWidth) (nb : Nat), s.ReaderTakes r →
    let x := s.reader r
    (nb = 0 → ∃ t, exec (.rReads r tw nb) s = .next t ∧ EndsOk s t 0 [] ∧ NothingStored s t) ∧
    (0 < nb → nb > x.valid - x.cur →
      exec (.rReads r tw nb) s = .next (s.raise .readNobits)) ∧
    (0 < nb → nb ≤ x.valid - x.cur → nb > typeBits tw →
      exec (.rReads r tw nb) s = .next (s.raise .readWidth)) ∧
    (0 < nb → nb ≤ x.valid - x.cur → nb ≤ typeBits tw →
      let raw := bitsVal (bitsBetween (s.readerView r).byte x.cur (x.cur + nb))
      ∃ t, exec (.rReads r tw nb) s = .next t ∧ EndsOk s t t.res [] ∧
        t.res.toInt = (if raw < 2 ^ (nb - 1) then (raw : Int) else (raw : Int) - 2 ^ nb) ∧
        OnlyReaderChanged s t r ∧ t.xmem = s.xmem ∧
        t.reader r = { x with cur := x.cur + nb })

/-! ### Laws -/

/-- R201: what W.WRITE wrote at a cursor c, a reader over the same bytes with its cursor at c reads back,
unsigned and signed. `s'` is any later state in which the storage bytes of reader `r` that hold the field
equal those of the writer: the same XMEM bytes, or a copy of an OWNED writer's. -/
def Obligations.WriteThenReadRoundTrips : Prop :=
  ∀ (s t s' : State) (u r : Nat) (tw : TypeWidth) (nb : Nat),
    nb ≤ typeBits tw → exec (.wWrite u tw nb) s = .next t → t.status = .ok →
    s'.ReaderTakes r → (s'.reader r).cur = (s.writer u).cur →
    (s.writer u).cur + nb ≤ (s'.reader r).valid →
    (∀ k, (s.writer u).cur / 8 ≤ k → 8 * k < (s.writer u).cur + nb →
      (s'.readerView r).byte k = (t.writerView u).byte k) →
    (∃ t', exec (.rReadu r tw nb) s' = .next t' ∧ t'.status = .ok ∧
      t'.res.toNat = s.pkt.a.toNat % 2 ^ nb) ∧
    (0 < nb → ∃ t', exec (.rReads r tw nb) s' = .next t' ∧ t'.status = .ok ∧
      t'.res = (s.pkt.a.setWidth nb).signExtend 64)

/-- R167 (a): erasing exactly what was inserted restores the valid bit string, VALID and CUR. -/
def Obligations.EraseUndoesInsert : Prop :=
  ∀ (s t : State) (u : Nat) (tw : TypeWidth) (nb : Nat) (p : Packet),
    s.ParametersOk → nb < 128 → exec (.wInsert u tw nb) s = .next t → t.status = .ok →
    p.a = s.pkt.b → p.b = BitVec.ofNat 64 nb → p.payload = [] →
    ∃ t', exec (.wErase u) { t with pkt := p } = .next t' ∧ t'.status = .ok ∧
      t'.content u = s.content u ∧ (t'.writer u).valid = (s.writer u).valid ∧
      (t'.writer u).cur = (s.writer u).cur

/-- R167 (b): growing to L1 and then shrinking to L0 leaves the first L0 bits as they were. -/
def Obligations.GrowThenShrinkKeepsThePrefix : Prop :=
  ∀ (s t t' : State) (u : Nat) (p : Packet),
    exec (.wResize u) s = .next t → t.status = .ok → (s.writer u).valid ≤ s.pkt.a.toNat →
    p.a.toNat ≤ (s.writer u).valid →
    exec (.wResize u) { t with pkt := p } = .next t' → t'.status = .ok →
    (t'.writer u).valid = p.a.toNat ∧ t'.content u = (s.content u).take p.a.toNat

/-! ### Errors, faults and the response (60_exceptions, 10_state) -/

/-- R234, R232: what a failure records, and that the high four bits of CAUSE equal STATUS. -/
def Obligations.RaiseRecordsTheFailure : Prop :=
  (∀ c : Cause, (c.code >>> 4).setWidth 4 = c.status.code) ∧
  ∀ (s : State) (c : Cause), c ≠ .noCause →
    let t := s.raise c
    t.status = c.status ∧ t.cause = c ∧ t.res = 0 ∧ t.dout = [] ∧
    (∀ k, t.errlog.getLsbD k = (s.errlog.getLsbD k || decide (k = c.status.code.toNat))) ∧
    NothingStored s t ∧ t.ownMax = s.ownMax ∧ t.host = s.host ∧ t.freeCtr = s.freeCtr ∧
    t.responses = s.responses ++ [{ status := c.status.code, cause := c.code, res := 0,
                                    errlog := t.errlog, dout := [] }]

/-- R236: a command, legal or not, that ends with an error code or with FAULTED has changed no unit
register, no byte of any storage and no capacity. -/
def Obligations.ErrorsArePrecise : Prop :=
  ∀ (s t : State) (p : Packet) (rest : List HostAct), s.host = .command p :: rest →
    step s = .next t → t.status ≠ .ok → t.status ≠ .resizeFault →
    NothingStored s t ∧ t.ownMax = s.ownMax ∧ t.host = rest ∧ t.freeCtr = s.freeCtr

/-- R241: the one fault, the state it leaves; a FAULTED unit refuses every command and stays FAULTED
until reset; and a unit's being FAULTED does not affect a command that names another unit. -/
def Obligations.ResizeFaultAndTheFaultedUnit : Prop :=
  (∀ (i : Instr) (s t : State), exec i s = .next t → t.status = .resizeFault →
    ∃ u, i = .wResize u ∧ (s.writer u).mode = .external ∧ s.pkt.a.toNat > 8 * (s.writer u).cap ∧
      t.cause = .resizeExtCapacity ∧ t.res = 0 ∧ t.dout = [] ∧
      t.writer u = { s.writer u with st := .faulted } ∧ OnlyWriterChanged s t u ∧
      t.xmem = s.xmem) ∧
  (∀ (i : Instr) (s : State), i.namesWriter = true → i.unitIndex < s.nw →
    payloadFits i s.pkt = true → (s.writer i.unitIndex).st = .faulted →
    exec i s = .next (s.raise .unitFaulted)) ∧
  (∀ (s t : State) (u : Nat), step s = .next t → (s.writer u).st = .faulted →
    (∀ rest, s.host ≠ .reset :: rest) → (∀ p rest, s.host ≠ .resetDuring p :: rest) →
    t.writer u = s.writer u) ∧
  (∀ (i : Instr) (s t : State) (u : Nat), (i.namesWriter = false ∨ i.unitIndex ≠ u) →
    exec i s = .next t →
    exec i (s.setWriter u { s.writer u with st := .faulted }) =
      .next (t.setWriter u { t.writer u with st := .faulted }))

/-- R101: the decode checks in their order; the first that fails ends the command with its cause. -/
def Obligations.DecodeChecksComeInOrder : Prop :=
  ∀ (s : State) (p : Packet) (rest : List HostAct), s.host = .command p :: rest →
    let s' : State := { s with pkt := p, host := rest }
    let listed : Prop := ∃ row ∈ opcodeMap, bitSlice row.pattern 0 8 = bitSlice p.cmd 0 8
    let legal : Prop := ∃ row ∈ opcodeMap, p.cmd &&& row.mask = row.pattern
    ((bitSlice p.cmd 23 9 ≠ 0 ∨ ¬ listed) → step s = .next (s'.raise .illOpcode)) ∧
    (bitSlice p.cmd 23 9 = 0 → listed → ¬ legal → step s = .next (s'.raise .illField)) ∧
    ∀ i, decodeWord p.cmd = .ok i →
      let u := i.unitIndex
      let exists_ : Prop := if i.namesWriter then u < s.nw else u < s.nr
      let unbound : Prop :=
        if i.namesWriter then (s.writer u).st = .unbound else (s.reader u).st = .unbound
      let faulted : Prop := i.namesWriter = true ∧ (s.writer u).st = .faulted
      (¬ exists_ → step s = .next (s'.raise .illUnit)) ∧
      (exists_ → payloadFits i p = false → step s = .next (s'.raise .illPayload)) ∧
      (exists_ → payloadFits i p = true → faulted → step s = .next (s'.raise .unitFaulted)) ∧
      (exists_ → payloadFits i p = true → ¬ faulted → ¬ (unbound ↔ constructs i = true) →
        step s = .next (s'.raise .illState))

/-- R36: a command, legal or not, sets exactly the ERRLOG bit numbered by its STATUS and never bit 0;
no step but a reset clears a bit, and a reset clears all. -/
def Obligations.ErrlogIsSticky : Prop :=
  (∀ (s t : State) (p : Packet) (rest : List HostAct), s.host = .command p :: rest →
    step s = .next t → ∀ k,
      t.errlog.getLsbD k =
        (s.errlog.getLsbD k || (decide (k ≠ 0) && decide (k = t.status.code.toNat)))) ∧
  (∀ s t : State, step s = .next t →
    (∀ rest, s.host ≠ .reset :: rest) → (∀ p rest, s.host ≠ .resetDuring p :: rest) →
    ∀ k, s.errlog.getLsbD k = true → t.errlog.getLsbD k = true) ∧
  (∀ (s : State) (rest : List HostAct), s.host = .reset :: rest →
    ∃ t, step s = .next t ∧ t.errlog = 0)

/-- R92: a command packet that is executed to its end gets exactly one response packet, in order, with the
values of the response registers after the command; no other act of the host gets one. That a packet
presented and abandoned by reset gets none is the model's inference from R270's "abandoned" (log 20); that
a reset keeps the responses already delivered is the model's choice (log 10). -/
def Obligations.OneResponsePerCommand : Prop :=
  ∀ s t : State, step s = .next t →
    ((∃ p rest, s.host = .command p :: rest) →
      t.responses = s.responses ++ [{ status := t.status.code, cause := t.cause.code, res := t.res,
                                      errlog := t.errlog, dout := t.dout }]) ∧
    ((∀ p rest, s.host ≠ .command p :: rest) → t.responses = s.responses)

/-- R37: after a command, legal or not, DOUT is empty but for a W.COPY, W.DUMP or R.DUMP that ended
with OK. -/
def Obligations.DoutOnlyFromCopyAndDumps : Prop :=
  ∀ (s t : State) (p : Packet) (rest : List HostAct), s.host = .command p :: rest →
    step s = .next t → t.dout ≠ [] →
    t.status = .ok ∧ ∃ u, decodeWord p.cmd = .ok (.wCopy u) ∨ decodeWord p.cmd = .ok (.wDump u) ∨
      decodeWord p.cmd = .ok (.rDump u)

/-- R233: the statuses and causes a command can end with. -/
def Obligations.CausesPerCommand : Prop :=
  ∀ (i : Instr) (s t : State), exec i s = .next t →
    t.status = t.cause.status ∧
    (t.cause = .noCause ∨ t.cause ∈ decodeCauses i ∨ t.cause ∈ ownCauses i)

/-- R127, R26, R29, R31: while a unit stays bound, MODE, an external writer's BASE and CAP, and a
reader's BASE, CAP and VALID do not change. -/
def Obligations.BindingIsFixedForALifetime : Prop :=
  ∀ (s t : State) (u : Nat), step s = .next t →
    (∀ rest, s.host ≠ .reset :: rest) → (∀ p rest, s.host ≠ .resetDuring p :: rest) →
    ((s.writer u).st ≠ .unbound → (t.writer u).st ≠ .unbound →
      (t.writer u).mode = (s.writer u).mode ∧ (t.writer u).base = (s.writer u).base ∧
      ((s.writer u).mode = .external → (t.writer u).cap = (s.writer u).cap)) ∧
    ((s.reader u).st = .ready → (t.reader u).st = .ready →
      (t.reader u).base = (s.reader u).base ∧ (t.reader u).cap = (s.reader u).cap ∧
      (t.reader u).valid = (s.reader u).valid)

/-- R66, R22, R32: a command changes no unit but its own; a writer command stores to no XMEM byte
outside its external region, and a reader command to none at all. -/
def Obligations.CommandsStayInTheirUnitAndRegion : Prop :=
  ∀ (i : Instr) (s t : State), exec i s = .next t →
    let u := i.unitIndex
    (i.namesWriter = true →
      OnlyWriterChanged s t u ∧
      ((s.writer u).mode = .owned → t.xmem = s.xmem) ∧
      ∀ a, (∀ k, k < (s.writer u).cap → a ≠ regionAddr (s.writer u).base k) →
        t.xmem.read a = s.xmem.read a) ∧
    (i.namesWriter = false → OnlyReaderChanged s t u ∧ t.xmem = s.xmem)

/-- R90, 93 U13: an operand, or a bit of `A`, that the command's rule does not name does not affect the
outcome. -/
def Obligations.UnusedOperandsAreIgnored : Prop :=
  ∀ (i : Instr) (s : State) (p q : Packet), operandsAgree i p q →
    exec i { s with pkt := p } = exec i { s with pkt := q }

/-- R38: the capacity of an owned storage is hidden. Two states that differ only in the CAP of an OWNED
writer give the same responses and differ afterwards at most in that CAP. -/
def Obligations.OwnedCapacityIsHidden : Prop :=
  ∀ (i : Instr) (s t : State) (u c : Nat),
    let s' := s.setWriter u { s.writer u with cap := c }
    u < s.nw → (s.writer u).st = .ready → (s.writer u).mode = .owned →
    s.UnitsSound → s'.UnitsSound → s.StoragePadded → s'.StoragePadded → s.MemoriesCanonical →
    exec i s = .next t →
    ∃ t', exec i s' = .next t' ∧ t'.responses = t.responses ∧ t'.status = t.status ∧
      t'.res = t.res ∧ t'.dout = t.dout ∧
      t' = t.setWriter u { t.writer u with cap := (t'.writer u).cap }
end

