-- ==== Sys2Proof/Laws/Memory.lean ====
section
/-! SUPPORT. The laws of the byte memories: what a read gives after a write, that every operation keeps
the canonical form, and that canonical memories with the same bytes are equal. -/
namespace Sys2Proof.Machine

@[simp] theorem Memory.read_nil (a : Nat) : Memory.read [] a = 0 := rfl

theorem Memory.read_cons (cell : Host.Cell) (m : Memory) (a : Nat) :
    Memory.read (cell :: m) a = if cell.1 = a then cell.2 else Memory.read m a := rfl

/-- An address that no entry has reads as the fill byte. -/
theorem Memory.read_unlisted (m : Memory) (a : Nat) (h : ∀ cell ∈ m, cell.1 ≠ a) : m.read a = 0 := by
  induction m with
  | nil => rfl
  | cons cell m ih =>
    simp only [List.mem_cons, forall_eq_or_imp] at h
    rw [Memory.read_cons, if_neg h.1, ih h.2]

/-! ### Reading after an update -/

theorem Memory.read_drop (m : Memory) (a b : Nat) :
    (m.drop a).read b = if b = a then 0 else m.read b := by
  induction m with
  | nil => simp [Memory.drop]
  | cons cell m ih =>
    simp only [Memory.drop, List.filter_cons] at ih ⊢
    by_cases h : cell.1 = a
    · simp only [h, ne_eq, not_true_eq_false, decide_false, Bool.false_eq_true, if_false, ih,
        Memory.read_cons]
      split
      · rfl
      · rename_i hb; rw [if_neg (fun e => hb e.symm)]
    · simp only [ne_eq, h, not_false_eq_true, decide_true, if_true, Memory.read_cons, ih]
      by_cases hb : cell.1 = b
      · rw [if_pos hb, if_neg (fun e => h (hb.trans e)), if_pos hb]
      · rw [if_neg hb, if_neg hb]

theorem Memory.read_insert (m : Memory) (a b : Nat) (v : Byte) (h : ∀ cell ∈ m, cell.1 ≠ a) :
    (Memory.insert m a v).read b = if b = a then v else m.read b := by
  induction m with
  | nil => simp [Memory.insert, Memory.read_cons, eq_comm]
  | cons cell m ih =>
    simp only [List.mem_cons, forall_eq_or_imp] at h
    simp only [Memory.insert]
    split
    · rw [Memory.read_cons]; simp [eq_comm]
    · rw [Memory.read_cons, ih h.2, Memory.read_cons]
      by_cases hb : cell.1 = b
      · rw [if_pos hb, if_neg (fun e => h.1 (hb.trans e)), if_pos hb]
      · rw [if_neg hb, if_neg hb]

theorem Memory.mem_drop (m : Memory) (a : Nat) (cell : Host.Cell) :
    cell ∈ m.drop a ↔ cell ∈ m ∧ cell.1 ≠ a := by
  simp [Memory.drop, List.mem_filter]

/-- A read of one byte after a write of one byte (20_memory R61). -/
theorem Memory.read_write (m : Memory) (a b : Nat) (v : Byte) :
    (m.write a v).read b = if b = a then v else m.read b := by
  unfold Memory.write
  split
  · rename_i h; rw [Memory.read_drop, h]; rfl
  · rw [Memory.read_insert _ _ _ _ (fun cell hc => ((Memory.mem_drop m a cell).1 hc).2),
      Memory.read_drop]
    split <;> rfl

@[simp] theorem Memory.read_write_same (m : Memory) (a : Nat) (v : Byte) : (m.write a v).read a = v := by
  rw [Memory.read_write, if_pos rfl]

theorem Memory.read_write_other (m : Memory) (a b : Nat) (v : Byte) (h : b ≠ a) :
    (m.write a v).read b = m.read b := by
  rw [Memory.read_write, if_neg h]

theorem Memory.read_cut (m : Memory) (n a : Nat) : (m.cut n).read a = if a < n then m.read a else 0 := by
  induction m with
  | nil => simp [Memory.cut]
  | cons cell m ih =>
    simp only [Memory.cut, List.filter_cons] at ih ⊢
    by_cases h : cell.1 < n
    · simp only [h, decide_true, if_true, Memory.read_cons, ih]
      by_cases ha : cell.1 = a
      · rw [if_pos ha, if_pos (ha ▸ h), if_pos ha]
      · rw [if_neg ha, if_neg ha]
    · simp only [h, decide_false, Bool.false_eq_true, if_false, ih, Memory.read_cons]
      by_cases ha : a < n
      · rw [if_pos ha, if_pos ha, if_neg (fun e : cell.1 = a => h (by rw [e]; exact ha))]
      · rw [if_neg ha, if_neg ha]

/-! ### Which addresses are listed after an update -/

theorem Memory.mem_insert (m : Memory) (a : Nat) (v : Byte) (cell : Host.Cell)
    (h : cell ∈ Memory.insert m a v) : cell = (a, v) ∨ cell ∈ m := by
  induction m with
  | nil => simpa [Memory.insert] using h
  | cons c m ih =>
    simp only [Memory.insert] at h
    split at h
    · simpa using h
    · rcases List.mem_cons.1 h with h | h
      · exact .inr (h ▸ List.mem_cons_self)
      · exact (ih h).imp id (List.mem_cons_of_mem _)

theorem Memory.mem_write (m : Memory) (a : Nat) (v : Byte) (cell : Host.Cell)
    (h : cell ∈ m.write a v) : cell = (a, v) ∧ v ≠ 0 ∨ cell ∈ m ∧ cell.1 ≠ a := by
  unfold Memory.write at h
  split at h
  · exact .inr ((Memory.mem_drop m a cell).1 h)
  · rename_i hv
    exact (Memory.mem_insert _ _ _ _ h).imp (fun e => ⟨e, hv⟩) (Memory.mem_drop m a cell).1

theorem Memory.mem_cut (m : Memory) (n : Nat) (cell : Host.Cell) :
    cell ∈ m.cut n ↔ cell ∈ m ∧ cell.1 < n := by
  simp [Memory.cut, List.mem_filter]

/-! ### The canonical form -/

theorem Memory.wf_nil : Memory.wf [] := by simp [Memory.wf]

theorem Memory.wf_drop (m : Memory) (a : Nat) (h : m.wf) : (m.drop a).wf :=
  ⟨h.1.filter _, fun c hc => h.2 c ((Memory.mem_drop m a c).1 hc).1⟩

theorem Memory.wf_cut (m : Memory) (n : Nat) (h : m.wf) : (m.cut n).wf :=
  ⟨h.1.filter _, fun c hc => h.2 c ((Memory.mem_cut m n c).1 hc).1⟩

theorem Memory.wf_insert (m : Memory) (a : Nat) (v : Byte) (h : m.wf) (hv : v ≠ 0)
    (ha : ∀ cell ∈ m, cell.1 ≠ a) : (Memory.insert m a v).wf := by
  refine ⟨?_, fun c hc => ?_⟩
  · have hs := h.1
    clear h
    induction m with
    | nil => simp [Memory.insert]
    | cons cell m ih =>
      simp only [List.mem_cons, forall_eq_or_imp] at ha
      rw [List.pairwise_cons] at hs
      simp only [Memory.insert]
      split
      · rename_i hlt
        refine List.pairwise_cons.2 ⟨fun c hc => ?_, List.pairwise_cons.2 hs⟩
        rcases List.mem_cons.1 hc with hc | hc
        · exact hc ▸ hlt
        · exact Nat.lt_trans hlt (hs.1 c hc)
      · rename_i hnl
        refine List.pairwise_cons.2 ⟨fun c hc => ?_, ih ha.2 hs.2⟩
        rcases Memory.mem_insert _ _ _ _ hc with hc | hc
        · subst hc; have := ha.1; show cell.1 < a; omega
        · exact hs.1 c hc
  · rcases Memory.mem_insert _ _ _ _ hc with hc | hc
    · exact hc ▸ hv
    · exact h.2 c hc

/-- A write keeps the canonical form. -/
theorem Memory.wf_write (m : Memory) (a : Nat) (v : Byte) (h : m.wf) : (m.write a v).wf := by
  unfold Memory.write
  split
  · exact Memory.wf_drop m a h
  · rename_i hv
    exact Memory.wf_insert _ a v (Memory.wf_drop m a h) hv
      (fun cell hc => ((Memory.mem_drop m a cell).1 hc).2)

/-- A listed byte of a canonical memory is what a read of its address gives. -/
theorem Memory.read_mem (m : Memory) (h : m.wf) (cell : Host.Cell) (hc : cell ∈ m) :
    m.read cell.1 = cell.2 := by
  induction m with
  | nil => cases hc
  | cons c m ih =>
    have hs := List.pairwise_cons.1 h.1
    rw [Memory.read_cons]
    rcases List.mem_cons.1 hc with hc | hc
    · rw [if_pos (by rw [hc]), hc]
    · rw [if_neg (by have := hs.1 cell hc; omega)]
      exact ih ⟨hs.2, fun x hx => h.2 x (List.mem_cons_of_mem _ hx)⟩ hc

/-- An address a canonical memory does not read as 0 is listed. -/
theorem Memory.mem_of_read (m : Memory) (a : Nat) (h : m.read a ≠ 0) : (a, m.read a) ∈ m := by
  induction m with
  | nil => exact absurd rfl h
  | cons c m ih =>
    rw [Memory.read_cons] at h ⊢
    by_cases hc : c.1 = a
    · rw [if_pos hc]; subst hc; exact List.mem_cons_self
    · rw [if_neg hc] at h ⊢; exact List.mem_cons_of_mem _ (ih h)

/-- Equal memories are equal data: canonical memories with the same bytes are the same list. -/
theorem Memory.ext_read (m n : Memory) (hm : m.wf) (hn : n.wf) (h : ∀ a, m.read a = n.read a) :
    m = n := by
  have sub : ∀ p q : Memory, p.wf → q.wf → (∀ a, p.read a = q.read a) → ∀ c ∈ p, c ∈ q := by
    intro p q hp hq hpq c hc
    have hr := Memory.read_mem p hp c hc
    have := Memory.mem_of_read q c.1 (by rw [← hpq, hr]; exact hp.2 c hc)
    rwa [← hpq, hr] at this
  have nd : ∀ p : Memory, p.wf → p.Nodup := by
    intro p hp
    exact hp.1.imp fun hlt e => absurd hlt (by rw [e]; exact Nat.lt_irrefl _)
  have hperm : m.Perm n :=
    (List.perm_ext_iff_of_nodup (nd m hm) (nd n hn)).2 fun c =>
      ⟨sub m n hm hn h c, sub n m hn hm (fun a => (h a).symm) c⟩
  exact hperm.eq_of_pairwise
    (fun a b _ _ hab hba => absurd (Nat.lt_trans hab hba) (Nat.lt_irrefl _)) hm.1 hn.1

/-- The free bytes after an abandoned command keep the canonical form. -/
theorem Memory.wf_freeBytes (ctr : Nat) (n : Nat) : ∀ (m : Memory) (a : Nat), m.wf →
    (freeBytes ctr m a n).wf := by
  induction n with
  | zero => intro m a h; exact h
  | succ n ih => intro m a h; exact ih _ _ (Memory.wf_write m a _ h)

/-- The free bytes are exactly the `n` bytes from address `a` on. -/
theorem read_freeBytes (ctr : Nat) (n : Nat) : ∀ (m : Memory) (a b : Nat),
    (freeBytes ctr m a n).read b =
      if a ≤ b ∧ b < a + n then Config.abandonedByte ctr b else m.read b := by
  induction n with
  | zero => intro m a b; rw [if_neg (by omega)]; rfl
  | succ n ih =>
    intro m a b
    rw [freeBytes, ih, Memory.read_write]
    by_cases h : b = a
    · subst h; rw [if_neg (by omega), if_pos rfl, if_pos (by omega)]
    · rw [if_neg h]
      by_cases h' : a ≤ b ∧ b < a + (n + 1)
      · rw [if_pos (by omega), if_pos h']
      · rw [if_neg (by omega), if_neg h']

/-- XMEM is in canonical form after reset, whatever the parameters. -/
theorem State.resetWith_xmem_wf (c : Config) : (State.resetWith c).xmem.wf := Memory.wf_nil

theorem State.reset_xmem_wf : State.reset.xmem.wf := Memory.wf_nil

end Sys2Proof.Machine
end

