-- ==== Sys2Proof/Laws/State.lean ====
section
/-! SUPPORT. One lemma per field per update of the state, of a writer view and of a reader view, each
true by definition, so that no later proof unfolds a record update. -/
namespace Sys2Proof.Machine

@[simp] theorem State.respond_ownMax (s : State) (st : Status) (c : Cause) (r : Word) (d : List Byte) :
    (s.respond st c r d).ownMax = s.ownMax := rfl
@[simp] theorem State.respond_writers (s : State) (st : Status) (c : Cause) (r : Word) (d : List Byte) :
    (s.respond st c r d).writers = s.writers := rfl
@[simp] theorem State.respond_readers (s : State) (st : Status) (c : Cause) (r : Word) (d : List Byte) :
    (s.respond st c r d).readers = s.readers := rfl
@[simp] theorem State.respond_xmem (s : State) (st : Status) (c : Cause) (r : Word) (d : List Byte) :
    (s.respond st c r d).xmem = s.xmem := rfl
@[simp] theorem State.respond_status (s : State) (st : Status) (c : Cause) (r : Word) (d : List Byte) :
    (s.respond st c r d).status = st := rfl
@[simp] theorem State.respond_cause (s : State) (st : Status) (c : Cause) (r : Word) (d : List Byte) :
    (s.respond st c r d).cause = c := rfl
@[simp] theorem State.respond_res (s : State) (st : Status) (c : Cause) (r : Word) (d : List Byte) :
    (s.respond st c r d).res = r := rfl
@[simp] theorem State.respond_errlog (s : State) (st : Status) (c : Cause) (r : Word) (d : List Byte) :
    (s.respond st c r d).errlog = s.errlog ||| st.logBit := rfl
@[simp] theorem State.respond_dout (s : State) (st : Status) (c : Cause) (r : Word) (d : List Byte) :
    (s.respond st c r d).dout = d := rfl
@[simp] theorem State.respond_pkt (s : State) (st : Status) (c : Cause) (r : Word) (d : List Byte) :
    (s.respond st c r d).pkt = Packet.none := rfl
@[simp] theorem State.respond_host (s : State) (st : Status) (c : Cause) (r : Word) (d : List Byte) :
    (s.respond st c r d).host = s.host := rfl
@[simp] theorem State.respond_responses (s : State) (st : Status) (c : Cause) (r : Word) (d : List Byte) :
    (s.respond st c r d).responses = s.responses ++
      [{ status := st.code, cause := c.code, res := r, errlog := s.errlog ||| st.logBit, dout := d }] := rfl
@[simp] theorem State.respond_freeCtr (s : State) (st : Status) (c : Cause) (r : Word) (d : List Byte) :
    (s.respond st c r d).freeCtr = s.freeCtr := rfl

@[simp] theorem State.done_ownMax (s : State) (r : Word) (d : List Byte) :
    (s.done r d).ownMax = s.ownMax := rfl
@[simp] theorem State.done_writers (s : State) (r : Word) (d : List Byte) :
    (s.done r d).writers = s.writers := rfl
@[simp] theorem State.done_readers (s : State) (r : Word) (d : List Byte) :
    (s.done r d).readers = s.readers := rfl
@[simp] theorem State.done_xmem (s : State) (r : Word) (d : List Byte) :
    (s.done r d).xmem = s.xmem := rfl
@[simp] theorem State.done_status (s : State) (r : Word) (d : List Byte) :
    (s.done r d).status = .ok := rfl
@[simp] theorem State.done_cause (s : State) (r : Word) (d : List Byte) :
    (s.done r d).cause = .noCause := rfl
@[simp] theorem State.done_res (s : State) (r : Word) (d : List Byte) :
    (s.done r d).res = r := rfl
@[simp] theorem State.done_errlog (s : State) (r : Word) (d : List Byte) :
    (s.done r d).errlog = s.errlog ||| Status.ok.logBit := rfl
@[simp] theorem State.done_dout (s : State) (r : Word) (d : List Byte) :
    (s.done r d).dout = d := rfl
@[simp] theorem State.done_pkt (s : State) (r : Word) (d : List Byte) :
    (s.done r d).pkt = Packet.none := rfl
@[simp] theorem State.done_host (s : State) (r : Word) (d : List Byte) :
    (s.done r d).host = s.host := rfl
@[simp] theorem State.done_responses (s : State) (r : Word) (d : List Byte) :
    (s.done r d).responses = s.responses ++
      [{ status := Status.ok.code, cause := Cause.noCause.code, res := r,
         errlog := s.errlog ||| Status.ok.logBit, dout := d }] := rfl
@[simp] theorem State.done_freeCtr (s : State) (r : Word) (d : List Byte) :
    (s.done r d).freeCtr = s.freeCtr := rfl

@[simp] theorem State.raise_ownMax (s : State) (c : Cause) :
    (s.raise c).ownMax = s.ownMax := rfl
@[simp] theorem State.raise_writers (s : State) (c : Cause) :
    (s.raise c).writers = s.writers := rfl
@[simp] theorem State.raise_readers (s : State) (c : Cause) :
    (s.raise c).readers = s.readers := rfl
@[simp] theorem State.raise_xmem (s : State) (c : Cause) :
    (s.raise c).xmem = s.xmem := rfl
@[simp] theorem State.raise_status (s : State) (c : Cause) :
    (s.raise c).status = c.status := rfl
@[simp] theorem State.raise_cause (s : State) (c : Cause) :
    (s.raise c).cause = c := rfl
@[simp] theorem State.raise_res (s : State) (c : Cause) :
    (s.raise c).res = 0 := rfl
@[simp] theorem State.raise_errlog (s : State) (c : Cause) :
    (s.raise c).errlog = s.errlog ||| c.status.logBit := rfl
@[simp] theorem State.raise_dout (s : State) (c : Cause) :
    (s.raise c).dout = [] := rfl
@[simp] theorem State.raise_pkt (s : State) (c : Cause) :
    (s.raise c).pkt = Packet.none := rfl
@[simp] theorem State.raise_host (s : State) (c : Cause) :
    (s.raise c).host = s.host := rfl
@[simp] theorem State.raise_responses (s : State) (c : Cause) :
    (s.raise c).responses = s.responses ++
      [{ status := c.status.code, cause := c.code, res := 0, errlog := s.errlog ||| c.status.logBit,
         dout := [] }] := rfl
@[simp] theorem State.raise_freeCtr (s : State) (c : Cause) :
    (s.raise c).freeCtr = s.freeCtr := rfl

@[simp] theorem State.raiseFault_ownMax (s : State) (w : Nat) (c : Cause) :
    (s.raiseFault w c).ownMax = s.ownMax := rfl
@[simp] theorem State.raiseFault_writers (s : State) (w : Nat) (c : Cause) :
    (s.raiseFault w c).writers = s.writers.set w { s.writer w with st := .faulted } := rfl
@[simp] theorem State.raiseFault_readers (s : State) (w : Nat) (c : Cause) :
    (s.raiseFault w c).readers = s.readers := rfl
@[simp] theorem State.raiseFault_xmem (s : State) (w : Nat) (c : Cause) :
    (s.raiseFault w c).xmem = s.xmem := rfl
@[simp] theorem State.raiseFault_status (s : State) (w : Nat) (c : Cause) :
    (s.raiseFault w c).status = c.status := rfl
@[simp] theorem State.raiseFault_cause (s : State) (w : Nat) (c : Cause) :
    (s.raiseFault w c).cause = c := rfl
@[simp] theorem State.raiseFault_res (s : State) (w : Nat) (c : Cause) :
    (s.raiseFault w c).res = 0 := rfl
@[simp] theorem State.raiseFault_errlog (s : State) (w : Nat) (c : Cause) :
    (s.raiseFault w c).errlog = s.errlog ||| c.status.logBit := rfl
@[simp] theorem State.raiseFault_dout (s : State) (w : Nat) (c : Cause) :
    (s.raiseFault w c).dout = [] := rfl
@[simp] theorem State.raiseFault_pkt (s : State) (w : Nat) (c : Cause) :
    (s.raiseFault w c).pkt = Packet.none := rfl
@[simp] theorem State.raiseFault_host (s : State) (w : Nat) (c : Cause) :
    (s.raiseFault w c).host = s.host := rfl
@[simp] theorem State.raiseFault_responses (s : State) (w : Nat) (c : Cause) :
    (s.raiseFault w c).responses = s.responses ++
      [{ status := c.status.code, cause := c.code, res := 0, errlog := s.errlog ||| c.status.logBit,
         dout := [] }] := rfl
@[simp] theorem State.raiseFault_freeCtr (s : State) (w : Nat) (c : Cause) :
    (s.raiseFault w c).freeCtr = s.freeCtr := rfl

@[simp] theorem State.setWriter_ownMax (s : State) (w : Nat) (x : Writer) :
    (s.setWriter w x).ownMax = s.ownMax := rfl
@[simp] theorem State.setWriter_writers (s : State) (w : Nat) (x : Writer) :
    (s.setWriter w x).writers = s.writers.set w x := rfl
@[simp] theorem State.setWriter_readers (s : State) (w : Nat) (x : Writer) :
    (s.setWriter w x).readers = s.readers := rfl
@[simp] theorem State.setWriter_xmem (s : State) (w : Nat) (x : Writer) :
    (s.setWriter w x).xmem = s.xmem := rfl
@[simp] theorem State.setWriter_status (s : State) (w : Nat) (x : Writer) :
    (s.setWriter w x).status = s.status := rfl
@[simp] theorem State.setWriter_cause (s : State) (w : Nat) (x : Writer) :
    (s.setWriter w x).cause = s.cause := rfl
@[simp] theorem State.setWriter_res (s : State) (w : Nat) (x : Writer) :
    (s.setWriter w x).res = s.res := rfl
@[simp] theorem State.setWriter_errlog (s : State) (w : Nat) (x : Writer) :
    (s.setWriter w x).errlog = s.errlog := rfl
@[simp] theorem State.setWriter_dout (s : State) (w : Nat) (x : Writer) :
    (s.setWriter w x).dout = s.dout := rfl
@[simp] theorem State.setWriter_pkt (s : State) (w : Nat) (x : Writer) :
    (s.setWriter w x).pkt = s.pkt := rfl
@[simp] theorem State.setWriter_host (s : State) (w : Nat) (x : Writer) :
    (s.setWriter w x).host = s.host := rfl
@[simp] theorem State.setWriter_responses (s : State) (w : Nat) (x : Writer) :
    (s.setWriter w x).responses = s.responses := rfl
@[simp] theorem State.setWriter_freeCtr (s : State) (w : Nat) (x : Writer) :
    (s.setWriter w x).freeCtr = s.freeCtr := rfl

@[simp] theorem State.setReader_ownMax (s : State) (r : Nat) (x : Reader) :
    (s.setReader r x).ownMax = s.ownMax := rfl
@[simp] theorem State.setReader_writers (s : State) (r : Nat) (x : Reader) :
    (s.setReader r x).writers = s.writers := rfl
@[simp] theorem State.setReader_readers (s : State) (r : Nat) (x : Reader) :
    (s.setReader r x).readers = s.readers.set r x := rfl
@[simp] theorem State.setReader_xmem (s : State) (r : Nat) (x : Reader) :
    (s.setReader r x).xmem = s.xmem := rfl
@[simp] theorem State.setReader_status (s : State) (r : Nat) (x : Reader) :
    (s.setReader r x).status = s.status := rfl
@[simp] theorem State.setReader_cause (s : State) (r : Nat) (x : Reader) :
    (s.setReader r x).cause = s.cause := rfl
@[simp] theorem State.setReader_res (s : State) (r : Nat) (x : Reader) :
    (s.setReader r x).res = s.res := rfl
@[simp] theorem State.setReader_errlog (s : State) (r : Nat) (x : Reader) :
    (s.setReader r x).errlog = s.errlog := rfl
@[simp] theorem State.setReader_dout (s : State) (r : Nat) (x : Reader) :
    (s.setReader r x).dout = s.dout := rfl
@[simp] theorem State.setReader_pkt (s : State) (r : Nat) (x : Reader) :
    (s.setReader r x).pkt = s.pkt := rfl
@[simp] theorem State.setReader_host (s : State) (r : Nat) (x : Reader) :
    (s.setReader r x).host = s.host := rfl
@[simp] theorem State.setReader_responses (s : State) (r : Nat) (x : Reader) :
    (s.setReader r x).responses = s.responses := rfl
@[simp] theorem State.setReader_freeCtr (s : State) (r : Nat) (x : Reader) :
    (s.setReader r x).freeCtr = s.freeCtr := rfl

@[simp] theorem State.commit_ownMax (s : State) (w : Nat) (v : WriterView) :
    (s.commit w v).ownMax = s.ownMax := rfl
@[simp] theorem State.commit_writers (s : State) (w : Nat) (v : WriterView) :
    (s.commit w v).writers = s.writers.set w v.unit := rfl
@[simp] theorem State.commit_readers (s : State) (w : Nat) (v : WriterView) :
    (s.commit w v).readers = s.readers := rfl
@[simp] theorem State.commit_xmem (s : State) (w : Nat) (v : WriterView) :
    (s.commit w v).xmem = v.xmem := rfl
@[simp] theorem State.commit_status (s : State) (w : Nat) (v : WriterView) :
    (s.commit w v).status = s.status := rfl
@[simp] theorem State.commit_cause (s : State) (w : Nat) (v : WriterView) :
    (s.commit w v).cause = s.cause := rfl
@[simp] theorem State.commit_res (s : State) (w : Nat) (v : WriterView) :
    (s.commit w v).res = s.res := rfl
@[simp] theorem State.commit_errlog (s : State) (w : Nat) (v : WriterView) :
    (s.commit w v).errlog = s.errlog := rfl
@[simp] theorem State.commit_dout (s : State) (w : Nat) (v : WriterView) :
    (s.commit w v).dout = s.dout := rfl
@[simp] theorem State.commit_pkt (s : State) (w : Nat) (v : WriterView) :
    (s.commit w v).pkt = s.pkt := rfl
@[simp] theorem State.commit_host (s : State) (w : Nat) (v : WriterView) :
    (s.commit w v).host = s.host := rfl
@[simp] theorem State.commit_responses (s : State) (w : Nat) (v : WriterView) :
    (s.commit w v).responses = s.responses := rfl
@[simp] theorem State.commit_freeCtr (s : State) (w : Nat) (v : WriterView) :
    (s.commit w v).freeCtr = s.freeCtr := rfl

@[simp] theorem State.take_ownMax (s : State) (p : Packet) (rest : List HostAct) :
    (s.take p rest).ownMax = s.ownMax := rfl
@[simp] theorem State.take_writers (s : State) (p : Packet) (rest : List HostAct) :
    (s.take p rest).writers = s.writers := rfl
@[simp] theorem State.take_readers (s : State) (p : Packet) (rest : List HostAct) :
    (s.take p rest).readers = s.readers := rfl
@[simp] theorem State.take_xmem (s : State) (p : Packet) (rest : List HostAct) :
    (s.take p rest).xmem = s.xmem := rfl
@[simp] theorem State.take_status (s : State) (p : Packet) (rest : List HostAct) :
    (s.take p rest).status = s.status := rfl
@[simp] theorem State.take_cause (s : State) (p : Packet) (rest : List HostAct) :
    (s.take p rest).cause = s.cause := rfl
@[simp] theorem State.take_res (s : State) (p : Packet) (rest : List HostAct) :
    (s.take p rest).res = s.res := rfl
@[simp] theorem State.take_errlog (s : State) (p : Packet) (rest : List HostAct) :
    (s.take p rest).errlog = s.errlog := rfl
@[simp] theorem State.take_dout (s : State) (p : Packet) (rest : List HostAct) :
    (s.take p rest).dout = s.dout := rfl
@[simp] theorem State.take_pkt (s : State) (p : Packet) (rest : List HostAct) :
    (s.take p rest).pkt = p := rfl
@[simp] theorem State.take_host (s : State) (p : Packet) (rest : List HostAct) :
    (s.take p rest).host = rest := rfl
@[simp] theorem State.take_responses (s : State) (p : Packet) (rest : List HostAct) :
    (s.take p rest).responses = s.responses := rfl
@[simp] theorem State.take_freeCtr (s : State) (p : Packet) (rest : List HostAct) :
    (s.take p rest).freeCtr = s.freeCtr := rfl

@[simp] theorem State.hostStore_ownMax (s : State) (a : Word) (v : Byte) (rest : List HostAct) :
    (s.hostStore a v rest).ownMax = s.ownMax := rfl
@[simp] theorem State.hostStore_writers (s : State) (a : Word) (v : Byte) (rest : List HostAct) :
    (s.hostStore a v rest).writers = s.writers := rfl
@[simp] theorem State.hostStore_readers (s : State) (a : Word) (v : Byte) (rest : List HostAct) :
    (s.hostStore a v rest).readers = s.readers := rfl
@[simp] theorem State.hostStore_xmem (s : State) (a : Word) (v : Byte) (rest : List HostAct) :
    (s.hostStore a v rest).xmem = s.xmem.write a.toNat v := rfl
@[simp] theorem State.hostStore_status (s : State) (a : Word) (v : Byte) (rest : List HostAct) :
    (s.hostStore a v rest).status = s.status := rfl
@[simp] theorem State.hostStore_cause (s : State) (a : Word) (v : Byte) (rest : List HostAct) :
    (s.hostStore a v rest).cause = s.cause := rfl
@[simp] theorem State.hostStore_res (s : State) (a : Word) (v : Byte) (rest : List HostAct) :
    (s.hostStore a v rest).res = s.res := rfl
@[simp] theorem State.hostStore_errlog (s : State) (a : Word) (v : Byte) (rest : List HostAct) :
    (s.hostStore a v rest).errlog = s.errlog := rfl
@[simp] theorem State.hostStore_dout (s : State) (a : Word) (v : Byte) (rest : List HostAct) :
    (s.hostStore a v rest).dout = s.dout := rfl
@[simp] theorem State.hostStore_pkt (s : State) (a : Word) (v : Byte) (rest : List HostAct) :
    (s.hostStore a v rest).pkt = s.pkt := rfl
@[simp] theorem State.hostStore_host (s : State) (a : Word) (v : Byte) (rest : List HostAct) :
    (s.hostStore a v rest).host = rest := rfl
@[simp] theorem State.hostStore_responses (s : State) (a : Word) (v : Byte) (rest : List HostAct) :
    (s.hostStore a v rest).responses = s.responses := rfl
@[simp] theorem State.hostStore_freeCtr (s : State) (a : Word) (v : Byte) (rest : List HostAct) :
    (s.hostStore a v rest).freeCtr = s.freeCtr := rfl

@[simp] theorem State.applyReset_ownMax (s : State) :
    (s.applyReset).ownMax = s.ownMax := rfl
@[simp] theorem State.applyReset_writers (s : State) :
    (s.applyReset).writers = s.writers.map fun _ => Writer.reset := rfl
@[simp] theorem State.applyReset_readers (s : State) :
    (s.applyReset).readers = s.readers.map fun _ => Reader.reset := rfl
@[simp] theorem State.applyReset_xmem (s : State) :
    (s.applyReset).xmem = s.xmem := rfl
@[simp] theorem State.applyReset_status (s : State) :
    (s.applyReset).status = .ok := rfl
@[simp] theorem State.applyReset_cause (s : State) :
    (s.applyReset).cause = .noCause := rfl
@[simp] theorem State.applyReset_res (s : State) :
    (s.applyReset).res = 0 := rfl
@[simp] theorem State.applyReset_errlog (s : State) :
    (s.applyReset).errlog = 0 := rfl
@[simp] theorem State.applyReset_dout (s : State) :
    (s.applyReset).dout = [] := rfl
@[simp] theorem State.applyReset_pkt (s : State) :
    (s.applyReset).pkt = Packet.none := rfl
@[simp] theorem State.applyReset_host (s : State) :
    (s.applyReset).host = s.host := rfl
@[simp] theorem State.applyReset_responses (s : State) :
    (s.applyReset).responses = s.responses := rfl
@[simp] theorem State.applyReset_freeCtr (s : State) :
    (s.applyReset).freeCtr = s.freeCtr := rfl

@[simp] theorem WriterView.setCur_st (v : WriterView) (c : Nat) :
    (v.setCur c).unit.st = v.unit.st := rfl
@[simp] theorem WriterView.setCur_mode (v : WriterView) (c : Nat) :
    (v.setCur c).unit.mode = v.unit.mode := rfl
@[simp] theorem WriterView.setCur_base (v : WriterView) (c : Nat) :
    (v.setCur c).unit.base = v.unit.base := rfl
@[simp] theorem WriterView.setCur_cap (v : WriterView) (c : Nat) :
    (v.setCur c).unit.cap = v.unit.cap := rfl
@[simp] theorem WriterView.setCur_valid (v : WriterView) (c : Nat) :
    (v.setCur c).unit.valid = v.unit.valid := rfl
@[simp] theorem WriterView.setCur_cur (v : WriterView) (c : Nat) :
    (v.setCur c).unit.cur = c := rfl
@[simp] theorem WriterView.setCur_omem (v : WriterView) (c : Nat) :
    (v.setCur c).unit.omem = v.unit.omem := rfl
@[simp] theorem WriterView.setCur_xmem (v : WriterView) (c : Nat) : (v.setCur c).xmem = v.xmem := rfl

@[simp] theorem WriterView.setValid_st (v : WriterView) (n : Nat) :
    (v.setValid n).unit.st = v.unit.st := rfl
@[simp] theorem WriterView.setValid_mode (v : WriterView) (n : Nat) :
    (v.setValid n).unit.mode = v.unit.mode := rfl
@[simp] theorem WriterView.setValid_base (v : WriterView) (n : Nat) :
    (v.setValid n).unit.base = v.unit.base := rfl
@[simp] theorem WriterView.setValid_cap (v : WriterView) (n : Nat) :
    (v.setValid n).unit.cap = v.unit.cap := rfl
@[simp] theorem WriterView.setValid_valid (v : WriterView) (n : Nat) :
    (v.setValid n).unit.valid = n := rfl
@[simp] theorem WriterView.setValid_cur (v : WriterView) (n : Nat) :
    (v.setValid n).unit.cur = v.unit.cur := rfl
@[simp] theorem WriterView.setValid_omem (v : WriterView) (n : Nat) :
    (v.setValid n).unit.omem = v.unit.omem := rfl
@[simp] theorem WriterView.setValid_xmem (v : WriterView) (n : Nat) : (v.setValid n).xmem = v.xmem := rfl

@[simp] theorem WriterView.setOwnedCap_st (v : WriterView) (n : Nat) :
    (v.setOwnedCap n).unit.st = v.unit.st := rfl
@[simp] theorem WriterView.setOwnedCap_mode (v : WriterView) (n : Nat) :
    (v.setOwnedCap n).unit.mode = v.unit.mode := rfl
@[simp] theorem WriterView.setOwnedCap_base (v : WriterView) (n : Nat) :
    (v.setOwnedCap n).unit.base = v.unit.base := rfl
@[simp] theorem WriterView.setOwnedCap_cap (v : WriterView) (n : Nat) :
    (v.setOwnedCap n).unit.cap = n := rfl
@[simp] theorem WriterView.setOwnedCap_valid (v : WriterView) (n : Nat) :
    (v.setOwnedCap n).unit.valid = v.unit.valid := rfl
@[simp] theorem WriterView.setOwnedCap_cur (v : WriterView) (n : Nat) :
    (v.setOwnedCap n).unit.cur = v.unit.cur := rfl
@[simp] theorem WriterView.setOwnedCap_omem (v : WriterView) (n : Nat) :
    (v.setOwnedCap n).unit.omem = v.unit.omem.cut (min v.unit.cap n) := rfl
@[simp] theorem WriterView.setOwnedCap_xmem (v : WriterView) (n : Nat) : (v.setOwnedCap n).xmem = v.xmem := rfl

@[simp] theorem WriterView.advance_st (v : WriterView) (k : Nat) :
    (v.advance k).unit.st = v.unit.st := rfl
@[simp] theorem WriterView.advance_mode (v : WriterView) (k : Nat) :
    (v.advance k).unit.mode = v.unit.mode := rfl
@[simp] theorem WriterView.advance_base (v : WriterView) (k : Nat) :
    (v.advance k).unit.base = v.unit.base := rfl
@[simp] theorem WriterView.advance_cap (v : WriterView) (k : Nat) :
    (v.advance k).unit.cap = v.unit.cap := rfl
@[simp] theorem WriterView.advance_valid (v : WriterView) (k : Nat) :
    (v.advance k).unit.valid = max v.unit.valid (v.unit.cur + k) := rfl
@[simp] theorem WriterView.advance_cur (v : WriterView) (k : Nat) :
    (v.advance k).unit.cur = v.unit.cur + k := rfl
@[simp] theorem WriterView.advance_omem (v : WriterView) (k : Nat) :
    (v.advance k).unit.omem = v.unit.omem := rfl
@[simp] theorem WriterView.advance_xmem (v : WriterView) (k : Nat) : (v.advance k).xmem = v.xmem := rfl

@[simp] theorem ReaderView.advance_st (v : ReaderView) (k : Nat) :
    (v.advance k).unit.st = v.unit.st := rfl
@[simp] theorem ReaderView.advance_base (v : ReaderView) (k : Nat) :
    (v.advance k).unit.base = v.unit.base := rfl
@[simp] theorem ReaderView.advance_cap (v : ReaderView) (k : Nat) :
    (v.advance k).unit.cap = v.unit.cap := rfl
@[simp] theorem ReaderView.advance_valid (v : ReaderView) (k : Nat) :
    (v.advance k).unit.valid = v.unit.valid := rfl
@[simp] theorem ReaderView.advance_cur (v : ReaderView) (k : Nat) :
    (v.advance k).unit.cur = v.unit.cur + k := rfl
@[simp] theorem ReaderView.advance_xmem (v : ReaderView) (k : Nat) : (v.advance k).xmem = v.xmem := rfl

@[simp] theorem State.writerView_unit (s : State) (w : Nat) : (s.writerView w).unit = s.writer w := rfl
@[simp] theorem State.writerView_xmem (s : State) (w : Nat) : (s.writerView w).xmem = s.xmem := rfl
@[simp] theorem State.readerView_unit (s : State) (r : Nat) : (s.readerView r).unit = s.reader r := rfl
@[simp] theorem State.readerView_xmem (s : State) (r : Nat) : (s.readerView r).xmem = s.xmem := rfl

/-! ### Counting and finding units after an update -/

@[simp] theorem State.nw_setWriter (s : State) (w : Nat) (x : Writer) : (s.setWriter w x).nw = s.nw := by
  simp [State.nw]

@[simp] theorem State.nr_setReader (s : State) (r : Nat) (x : Reader) : (s.setReader r x).nr = s.nr := by
  simp [State.nr]

@[simp] theorem State.nw_commit (s : State) (w : Nat) (v : WriterView) : (s.commit w v).nw = s.nw := by
  simp [State.nw]

@[simp] theorem State.nw_applyReset (s : State) : s.applyReset.nw = s.nw := by simp [State.nw]

@[simp] theorem State.nr_applyReset (s : State) : s.applyReset.nr = s.nr := by simp [State.nr]

theorem State.writer_setWriter_self (s : State) (w : Nat) (x : Writer) (h : w < s.nw) :
    (s.setWriter w x).writer w = x := by
  have h' : w < s.writers.length := h
  simp [State.writer, List.getD, h']

theorem State.writer_setWriter_other (s : State) (w k : Nat) (x : Writer) (h : k ≠ w) :
    (s.setWriter w x).writer k = s.writer k := by
  simp [State.writer, List.getD, Ne.symm h]

theorem State.reader_setReader_self (s : State) (r : Nat) (x : Reader) (h : r < s.nr) :
    (s.setReader r x).reader r = x := by
  have h' : r < s.readers.length := h
  simp [State.reader, List.getD, h']

theorem State.reader_setReader_other (s : State) (r k : Nat) (x : Reader) (h : k ≠ r) :
    (s.setReader r x).reader k = s.reader k := by
  simp [State.reader, List.getD, Ne.symm h]

theorem State.writer_commit_self (s : State) (w : Nat) (v : WriterView) (h : w < s.nw) :
    (s.commit w v).writer w = v.unit := by
  have h' : w < s.writers.length := h
  simp [State.writer, List.getD, h']

theorem State.writer_commit_other (s : State) (w k : Nat) (v : WriterView) (h : k ≠ w) :
    (s.commit w v).writer k = s.writer k := by
  simp [State.writer, List.getD, Ne.symm h]

/-- Storing a unit back where it stands changes nothing. -/
theorem State.setWriter_writer (s : State) (w : Nat) : s.setWriter w (s.writer w) = s := by
  have h : s.writers.set w (s.writer w) = s.writers := by
    apply List.ext_getElem? ; intro i
    rw [List.getElem?_set]
    split
    · subst i
      split
      · rename_i h; simp [State.writer, List.getD, h]
      · rename_i h; simp at h; simp [h]
    · rfl
  simp [State.setWriter, h]

/-- Storing a unit back where it stands changes nothing. -/
theorem State.setReader_reader (s : State) (r : Nat) : s.setReader r (s.reader r) = s := by
  have h : s.readers.set r (s.reader r) = s.readers := by
    apply List.ext_getElem? ; intro i
    rw [List.getElem?_set]
    split
    · subst i
      split
      · rename_i h; simp [State.reader, List.getD, h]
      · rename_i h; simp at h; simp [h]
    · rfl
  simp [State.setReader, h]

/-- Committing the view a command found changes nothing. -/
theorem State.commit_writerView (s : State) (w : Nat) : s.commit w (s.writerView w) = s := by
  have h := State.setWriter_writer s w
  simpa [State.setWriter, State.commit] using h

/-- A unit that exists is in the list of units. -/
theorem State.writer_mem (s : State) (w : Nat) (h : w < s.nw) : s.writer w ∈ s.writers := by
  have h' : w < s.writers.length := h
  simp [State.writer, List.getD, h']

theorem State.reader_mem (s : State) (r : Nat) (h : r < s.nr) : s.reader r ∈ s.readers := by
  have h' : r < s.readers.length := h
  simp [State.reader, List.getD, h']

@[simp] theorem Status.logBit_ok : Status.ok.logBit = 0 := rfl

/-- Every unit command but a failing one finds the operands it was given. -/
theorem Packet.none_payload : Packet.none.payload = [] := rfl

end Sys2Proof.Machine
end

