-- ==== Sys2Proof/Laws/Ops.lean ====
section
/-! SUPPORT. One lemma per shared operation that says once everything it can do, so that no later proof
unfolds it: the storage accesses, the two bit primitives and the procedures built from them, the
capacity checks, the decode checks, the ways a command can end, and one step. -/
namespace Sys2Proof.Machine

/-! ### Bits and bytes -/

theorem bitAt_congr {f g : Nat → Byte} {i : Nat} (h : f (i / 8) = g (i / 8)) : bitAt f i = bitAt g i := by
  unfold bitAt; rw [h]

@[simp] theorem length_bitsBetween (f : Nat → Byte) (a b : Nat) : (bitsBetween f a b).length = b - a := by
  simp [bitsBetween]

theorem getElem?_bitsBetween (f : Nat → Byte) (a b j : Nat) (h : j < b - a) :
    (bitsBetween f a b)[j]? = some (bitAt f (a + j)) := by
  simp [bitsBetween, h]

@[simp] theorem length_bitsStr (v : Word) (n : Nat) : (bitsStr v n).length = n := by simp [bitsStr]

theorem getElem?_bitsStr (v : Word) (n j : Nat) (h : j < n) :
    (bitsStr v n)[j]? = some (v.getLsbD (n - 1 - j)) := by
  simp [bitsStr, h]

@[simp] theorem bitsVal_nil : bitsVal [] = 0 := rfl

theorem bitsVal_append (s t : BitString) : bitsVal (s ++ t) = bitsVal s * 2 ^ t.length + bitsVal t := by
  have gen : ∀ (t : BitString) (a : Nat),
      t.foldl (fun acc b => 2 * acc + b.toNat) a = a * 2 ^ t.length + bitsVal t := by
    intro t
    induction t with
    | nil => intro a; simp
    | cons b t ih =>
      intro a
      have hb : bitsVal (b :: t) = (2 * 0 + b.toNat) * 2 ^ t.length + bitsVal t := ih _
      rw [List.foldl_cons, ih, hb, List.length_cons, Nat.pow_succ]; ring
  have h : bitsVal (s ++ t) = t.foldl (fun acc b => 2 * acc + b.toNat) (bitsVal s) := by
    unfold bitsVal; rw [List.foldl_append]
  rw [h, gen]

theorem bitsVal_lt (s : BitString) : bitsVal s < 2 ^ s.length := by
  induction s using List.reverseRecOn with
  | nil => simp
  | append_singleton s b ih =>
    rw [bitsVal_append, List.length_append, Nat.pow_add]
    have : bitsVal [b] < 2 ^ [b].length := by cases b <;> decide
    have : bitsVal s + 1 ≤ 2 ^ s.length := ih
    nlinarith [Nat.zero_le (bitsVal s)]

theorem ceil8_le_iff (x n : Nat) : ceil8 x ≤ n ↔ x ≤ 8 * n := by unfold ceil8; omega

theorem le_ceil8 (x : Nat) : x ≤ 8 * ceil8 x := by unfold ceil8; omega

theorem regionAddr_inj (base : Word) (j k : Nat) : regionAddr base j = regionAddr base k ↔ j = k := by
  unfold regionAddr; omega

/-! ### One byte of a storage -/

theorem WriterView.byte_setByte (v : WriterView) (k j : Nat) (b : Byte) :
    (v.setByte k b).byte j = if j = k then b else v.byte j := by
  unfold WriterView.setByte WriterView.byte
  cases h : v.unit.mode <;> simp only [h, Memory.read_write, regionAddr_inj]

/-- A byte write changes no register of the unit, and of the memories only the one it goes to. -/
theorem WriterView.setByte_frame (v : WriterView) (k : Nat) (b : Byte) :
    (v.setByte k b).unit = { v.unit with omem := (v.setByte k b).unit.omem } ∧
    (v.unit.mode = .owned → (v.setByte k b).xmem = v.xmem ∧
      (v.setByte k b).unit.omem = v.unit.omem.write k b) ∧
    (v.unit.mode = .external → (v.setByte k b).unit = v.unit ∧
      (v.setByte k b).xmem = v.xmem.write (regionAddr v.unit.base k) b) := by
  obtain ⟨⟨st, mode, base, cap, valid, cur, omem⟩, xmem⟩ := v
  cases mode <;> simp [WriterView.setByte]

@[simp] theorem WriterView.setByte_st (v : WriterView) (k : Nat) (b : Byte) :
    (v.setByte k b).unit.st = v.unit.st := by rw [(v.setByte_frame k b).1]
@[simp] theorem WriterView.setByte_mode (v : WriterView) (k : Nat) (b : Byte) :
    (v.setByte k b).unit.mode = v.unit.mode := by rw [(v.setByte_frame k b).1]
@[simp] theorem WriterView.setByte_base (v : WriterView) (k : Nat) (b : Byte) :
    (v.setByte k b).unit.base = v.unit.base := by rw [(v.setByte_frame k b).1]
@[simp] theorem WriterView.setByte_cap (v : WriterView) (k : Nat) (b : Byte) :
    (v.setByte k b).unit.cap = v.unit.cap := by rw [(v.setByte_frame k b).1]
@[simp] theorem WriterView.setByte_valid (v : WriterView) (k : Nat) (b : Byte) :
    (v.setByte k b).unit.valid = v.unit.valid := by rw [(v.setByte_frame k b).1]
@[simp] theorem WriterView.setByte_cur (v : WriterView) (k : Nat) (b : Byte) :
    (v.setByte k b).unit.cur = v.unit.cur := by rw [(v.setByte_frame k b).1]

theorem WriterView.byte_setCur (v : WriterView) (c : Nat) : (v.setCur c).byte = v.byte := rfl
theorem WriterView.byte_setValid (v : WriterView) (n : Nat) : (v.setValid n).byte = v.byte := rfl
theorem WriterView.byte_advance (v : WriterView) (k : Nat) : (v.advance k).byte = v.byte := rfl
theorem ReaderView.byte_advance (v : ReaderView) (k : Nat) : (v.advance k).byte = v.byte := rfl

/-- Owned bytes after a change of capacity: those below both capacities stay, the others are 0. -/
theorem WriterView.byte_setOwnedCap (v : WriterView) (n k : Nat) (h : v.unit.mode = .owned) :
    (v.setOwnedCap n).byte k = if k < min v.unit.cap n then v.byte k else 0 := by
  simp [WriterView.byte, WriterView.setOwnedCap, h, Memory.read_cut]

/-- How a storing operation may change a view: not the binding, and of the memories only the unit's
own. Every procedure below has this frame. -/
structure SameStorage (v w : WriterView) : Prop where
  st : w.unit.st = v.unit.st
  mode : w.unit.mode = v.unit.mode
  base : w.unit.base = v.unit.base
  xmem : v.unit.mode = .owned → w.xmem = v.xmem
  omem : v.unit.mode = .external → w.unit.omem = v.unit.omem
  wfX : v.xmem.wf → w.xmem.wf
  wfO : v.unit.omem.wf → w.unit.omem.wf

theorem SameStorage.refl (v : WriterView) : SameStorage v v :=
  ⟨rfl, rfl, rfl, fun _ => rfl, fun _ => rfl, id, id⟩

theorem SameStorage.trans {u v w : WriterView} (h : SameStorage u v) (g : SameStorage v w) :
    SameStorage u w :=
  ⟨g.st.trans h.st, g.mode.trans h.mode, g.base.trans h.base,
   fun e => (g.xmem (h.mode.trans e)).trans (h.xmem e),
   fun e => (g.omem (h.mode.trans e)).trans (h.omem e), g.wfX ∘ h.wfX, g.wfO ∘ h.wfO⟩

theorem sameStorage_setByte (v : WriterView) (k : Nat) (b : Byte) : SameStorage v (v.setByte k b) := by
  obtain ⟨-, ho, he⟩ := v.setByte_frame k b
  refine ⟨by simp, by simp, by simp, fun h => (ho h).1, fun h => by rw [(he h).1], ?_, ?_⟩
  · intro hx
    cases h : v.unit.mode
    · rw [(ho h).1]; exact hx
    · rw [(he h).2]; exact Memory.wf_write _ _ _ hx
  · intro hx
    cases h : v.unit.mode
    · rw [(ho h).2]; exact Memory.wf_write _ _ _ hx
    · rw [(he h).1]; exact hx

theorem sameStorage_advance (v : WriterView) (k : Nat) : SameStorage v (v.advance k) :=
  ⟨rfl, rfl, rfl, fun _ => rfl, fun _ => rfl, id, id⟩

theorem sameStorage_setCur (v : WriterView) (c : Nat) : SameStorage v (v.setCur c) :=
  ⟨rfl, rfl, rfl, fun _ => rfl, fun _ => rfl, id, id⟩

theorem sameStorage_setValid (v : WriterView) (n : Nat) : SameStorage v (v.setValid n) :=
  ⟨rfl, rfl, rfl, fun _ => rfl, fun _ => rfl, id, id⟩

theorem sameStorage_setOwnedCap (v : WriterView) (n : Nat) (h : v.unit.mode = .owned) :
    SameStorage v (v.setOwnedCap n) :=
  ⟨rfl, rfl, rfl, fun _ => rfl, fun e => (by rw [h] at e; cases e), id, Memory.wf_cut _ _⟩

/-! ### The write primitive and the field write -/

/-- PutChunk is one byte write, or two when the chunk straddles the byte boundary, and an advance. -/
theorem putChunk_cases (v : WriterView) (chunk : Byte) (k : Nat) :
    (v.unit.cur % 8 + k ≤ 8 ∧ ∃ b,
      putChunk v chunk k = (v.setByte (v.unit.cur / 8) b).advance k) ∨
    (8 < v.unit.cur % 8 + k ∧ ∃ b b',
      putChunk v chunk k = ((v.setByte (v.unit.cur / 8) b).setByte (v.unit.cur / 8 + 1) b').advance k) := by
  unfold putChunk
  by_cases h : v.unit.cur % 8 + k ≤ 8
  · exact .inl ⟨h, _, by simp only [h, if_true]; rfl⟩
  · exact .inr ⟨by omega, _, _, by simp only [h, if_false]; rfl⟩

@[simp] theorem putChunk_cur (v : WriterView) (chunk : Byte) (k : Nat) :
    (putChunk v chunk k).unit.cur = v.unit.cur + k := by
  rcases putChunk_cases v chunk k with ⟨-, b, h⟩ | ⟨-, b, b', h⟩ <;> simp [h]

@[simp] theorem putChunk_valid (v : WriterView) (chunk : Byte) (k : Nat) :
    (putChunk v chunk k).unit.valid = max v.unit.valid (v.unit.cur + k) := by
  rcases putChunk_cases v chunk k with ⟨-, b, h⟩ | ⟨-, b, b', h⟩ <;> simp [h]

@[simp] theorem putChunk_cap (v : WriterView) (chunk : Byte) (k : Nat) :
    (putChunk v chunk k).unit.cap = v.unit.cap := by
  rcases putChunk_cases v chunk k with ⟨-, b, h⟩ | ⟨-, b, b', h⟩ <;> simp [h]

theorem sameStorage_putChunk (v : WriterView) (chunk : Byte) (k : Nat) :
    SameStorage v (putChunk v chunk k) := by
  rcases putChunk_cases v chunk k with ⟨-, b, h⟩ | ⟨-, b, b', h⟩
  · rw [h]; exact (sameStorage_setByte v _ _).trans (sameStorage_advance _ _)
  · rw [h]
    exact ((sameStorage_setByte v _ _).trans (sameStorage_setByte _ _ _)).trans (sameStorage_advance _ _)

theorem sameStorage_writeWholeBytes (value : Word) (q : Nat) : ∀ v : WriterView,
    SameStorage v (writeWholeBytes v value q) ∧
    (writeWholeBytes v value q).unit.cur = v.unit.cur + 8 * q ∧
    (writeWholeBytes v value q).unit.cap = v.unit.cap := by
  induction q with
  | zero => intro v; exact ⟨SameStorage.refl v, rfl, rfl⟩
  | succ q ih =>
    intro v
    obtain ⟨hs, hc, hp⟩ := ih (putChunk v ((value >>> (8 * q)).setWidth 8) 8)
    refine ⟨(sameStorage_putChunk v _ _).trans hs, ?_, ?_⟩
    · rw [writeWholeBytes, hc, putChunk_cur]; omega
    · rw [writeWholeBytes, hp, putChunk_cap]

/-- What a field write keeps, and where it leaves the cursor. -/
theorem sameStorage_writeField (v : WriterView) (value : Word) (n : Nat) :
    SameStorage v (writeField v value n) ∧ (writeField v value n).unit.cur = v.unit.cur + n ∧
    (writeField v value n).unit.cap = v.unit.cap := by
  unfold writeField
  by_cases h : n % 8 > 0
  · simp only [h, if_true]
    obtain ⟨hs, hc, hp⟩ := sameStorage_writeWholeBytes value (n / 8)
      (putChunk v ((value >>> (8 * (n / 8))).setWidth 8 &&& mask 8 (n % 8)) (n % 8))
    refine ⟨(sameStorage_putChunk v _ _).trans hs, ?_, ?_⟩
    · rw [hc, putChunk_cur]; omega
    · rw [hp, putChunk_cap]
  · simp only [h, if_false]
    obtain ⟨hs, hc, hp⟩ := sameStorage_writeWholeBytes value (n / 8) v
    exact ⟨hs, by rw [hc]; omega, hp⟩

/-- What the bytes of an append keep, and where they leave the cursor. -/
theorem sameStorage_appendBytes (bytes : List Byte) : ∀ v : WriterView,
    SameStorage v (appendBytes v bytes) ∧
    (appendBytes v bytes).unit.cur = v.unit.cur + 8 * bytes.length ∧
    (appendBytes v bytes).unit.cap = v.unit.cap := by
  induction bytes with
  | nil => intro v; exact ⟨SameStorage.refl v, rfl, rfl⟩
  | cons b bytes ih =>
    intro v
    obtain ⟨hs, hc, hp⟩ := ih (writeField v (b.setWidth 64) 8)
    obtain ⟨fs, fc, fp⟩ := sameStorage_writeField v (b.setWidth 64) 8
    have e : appendBytes v (b :: bytes) = appendBytes (writeField v (b.setWidth 64) 8) bytes := rfl
    refine ⟨e ▸ fs.trans hs, ?_, ?_⟩
    · rw [e, hc, fc, List.length_cons]; omega
    · rw [e, hp, fp]

/-! ### The read primitive -/

/-- Whole-byte reads move the cursor of the reader and nothing else. -/
theorem readWholeBytes_view (q : Nat) : ∀ (v : ReaderView) (acc : Word),
    (readWholeBytes v acc q).2 = v.advance (8 * q) := by
  induction q with
  | zero => intro v acc; rfl
  | succ q ih =>
    intro v acc
    have e : readWholeBytes v acc (q + 1) =
        readWholeBytes (v.advance 8) (acc <<< 8 ||| (getChunk v 8).1.setWidth 64) q := rfl
    rw [e, ih]
    simp only [ReaderView.advance, Nat.mul_add, Nat.add_assoc, Nat.mul_one, Nat.add_comm 8]

/-- A chunk reads the bytes it covers and no other. -/
theorem chunkAt_congr (f g : Nat → Byte) (c k : Nat) (h0 : f (c / 8) = g (c / 8))
    (h1 : 8 < c % 8 + k → f (c / 8 + 1) = g (c / 8 + 1)) : chunkAt f c k = chunkAt g c k := by
  unfold chunkAt
  by_cases h : c % 8 + k ≤ 8
  · simp only [h, if_true, h0]
  · simp only [h, if_false, h0, h1 (by omega)]

/-! ### Capacity -/

/-- What EnsureCap answers (41 R143). -/
theorem ensureCap_cases (own : Nat) (v : WriterView) (need : Nat) (cause : Cause) :
    (v.unit.mode = .external ∧ need > 8 * v.unit.cap ∧ ensureCap own v need cause = .error cause) ∨
    (v.unit.mode = .external ∧ need ≤ 8 * v.unit.cap ∧ ensureCap own v need cause = .ok v) ∨
    (v.unit.mode = .owned ∧ ceil8 need > own ∧ ensureCap own v need cause = .error .nomemGrow) ∨
    (v.unit.mode = .owned ∧ ceil8 need ≤ own ∧
      ensureCap own v need cause = .ok (growOwned v (ceil8 need))) := by
  unfold ensureCap
  cases h : v.unit.mode <;> dsimp only
  · by_cases g : ceil8 need > own
    · exact .inr (.inr (.inl ⟨rfl, g, if_pos g⟩))
    · exact .inr (.inr (.inr ⟨rfl, by omega, if_neg g⟩))
  · by_cases g : need > 8 * v.unit.cap
    · exact .inl ⟨rfl, g, if_pos g⟩
    · exact .inr (.inl ⟨rfl, by omega, if_neg g⟩)

/-- CheckCap fails exactly when EnsureCap does, with the same cause (42 R169). -/
theorem checkCap_eq (own : Nat) (v : WriterView) (need : Nat) (cause : Cause) :
    checkCap own v need cause =
      match ensureCap own v need cause with
      | .error c => some c
      | .ok _ => none := by
  unfold checkCap ensureCap
  cases v.unit.mode <;> dsimp only <;> split <;> rfl

/-- The growth of owned storage: CAP becomes the larger, old bytes stay, new ones are 0. -/
theorem growOwned_spec (v : WriterView) (need : Nat) (h : v.unit.mode = .owned) :
    SameStorage v (growOwned v need) ∧ (growOwned v need).unit.cap = max v.unit.cap need ∧
    (growOwned v need).unit.valid = v.unit.valid ∧ (growOwned v need).unit.cur = v.unit.cur ∧
    (∀ k, k < v.unit.cap → (growOwned v need).byte k = v.byte k) ∧
    ∀ k, v.unit.cap ≤ k → k < need → (growOwned v need).byte k = 0 := by
  unfold growOwned
  by_cases g : need > v.unit.cap
  · simp only [g, if_true]
    refine ⟨sameStorage_setOwnedCap v _ h, ?_, rfl, rfl, fun k hk => ?_, fun k hk _ => ?_⟩
    · simp only [WriterView.setOwnedCap_cap]; omega
    · rw [WriterView.byte_setOwnedCap _ _ _ h, if_pos (by omega)]
    · rw [WriterView.byte_setOwnedCap _ _ _ h, if_neg (by omega)]
  · rw [if_neg g]
    exact ⟨SameStorage.refl v, by omega, rfl, rfl, fun _ _ => rfl, fun k hk hn => by omega⟩

/-- What the checks on a region answer (40 R121, R123). -/
theorem regionValid_cases (base : Word) (len nvalid : Nat) :
    (len > Config.extMaxBytes ∧ regionValid base len nvalid = .error .cfgLength) ∨
    (len ≤ Config.extMaxBytes ∧ base.toNat + len > Config.addrSpace ∧
      regionValid base len nvalid = .error .cfgWrap) ∨
    (len ≤ Config.extMaxBytes ∧ base.toNat + len ≤ Config.addrSpace ∧ nvalid > 8 * len ∧
      regionValid base len nvalid = .error .cfgNvalid) ∨
    (len ≤ Config.extMaxBytes ∧ base.toNat + len ≤ Config.addrSpace ∧ nvalid ≤ 8 * len ∧
      regionValid base len nvalid = .ok (if nvalid = 0 then 8 * len else nvalid)) := by
  unfold regionValid
  by_cases h : len > Config.extMaxBytes
  · exact .inl ⟨h, if_pos h⟩
  · rw [if_neg h]
    by_cases g : base.toNat + len > Config.addrSpace
    · exact .inr (.inl ⟨by omega, g, if_pos g⟩)
    · rw [if_neg g]
      by_cases k : nvalid > 8 * len
      · exact .inr (.inr (.inl ⟨by omega, by omega, k, if_pos k⟩))
      · exact .inr (.inr (.inr ⟨by omega, by omega, by omega, if_neg k⟩))

/-- A constructed unit is sound (10_state R25, R31). -/
theorem Writer.attached_sound (own : Nat) (base : Word) (len valid : Nat)
    (h1 : len ≤ Config.extMaxBytes) (h2 : base.toNat + len ≤ Config.addrSpace)
    (h3 : valid ≤ 8 * len) : (Writer.attached base len valid).Sound own :=
  ⟨Nat.zero_le _, h3, h1, fun _ => h2, fun h => by cases h⟩

theorem Writer.owning_sound (own n : Nat) (h1 : n ≤ own) (h2 : own ≤ Config.extMaxBytes) :
    (Writer.owning n).Sound own :=
  ⟨Nat.le_refl _, Nat.zero_le _, Nat.le_trans h1 h2, fun h => (by cases h), fun _ => ⟨h1, rfl⟩⟩

theorem Reader.attached_sound (base : Word) (len valid : Nat) (h1 : len ≤ Config.extMaxBytes)
    (h2 : base.toNat + len ≤ Config.addrSpace) (h3 : valid ≤ 8 * len) :
    (Reader.attached base len valid).Sound :=
  ⟨Nat.zero_le _, h3, h1, h2⟩

/-! ### Structural edits -/

theorem zeroBytes_spec (n : Nat) : ∀ (v : WriterView) (k : Nat),
    SameStorage v (zeroBytes v k n) ∧
    (zeroBytes v k n).unit = { v.unit with omem := (zeroBytes v k n).unit.omem } ∧
    ∀ j, (zeroBytes v k n).byte j = if k ≤ j ∧ j < k + n then 0 else v.byte j := by
  induction n with
  | zero => intro v k; exact ⟨SameStorage.refl v, rfl, fun j => by rw [if_neg (by omega)]; rfl⟩
  | succ n ih =>
    intro v k
    obtain ⟨hs, hu, hb⟩ := ih (v.setByte k 0) (k + 1)
    refine ⟨(sameStorage_setByte v k 0).trans hs, ?_, fun j => ?_⟩
    · rw [zeroBytes, hu, (v.setByte_frame k 0).1]
    · rw [zeroBytes, hb, WriterView.byte_setByte]
      by_cases e : j = k
      · subst e; rw [if_neg (by omega), if_pos rfl, if_pos (by omega)]
      · rw [if_neg e]
        by_cases g : k ≤ j ∧ j < k + (n + 1)
        · rw [if_pos (by omega), if_pos g]
        · rw [if_neg (by omega), if_neg g]

theorem sameStorage_maskLastByte (v : WriterView) (len : Nat) :
    SameStorage v (maskLastByte v len) ∧
    (maskLastByte v len).unit = { v.unit with omem := (maskLastByte v len).unit.omem } := by
  unfold maskLastByte
  split
  · exact ⟨SameStorage.refl v, rfl⟩
  · exact ⟨sameStorage_setByte _ _ _, (v.setByte_frame _ _).1⟩

theorem sameStorage_truncateTo (v : WriterView) (len : Nat) :
    SameStorage v (truncateTo v len) ∧ (truncateTo v len).unit.valid = len ∧
    (truncateTo v len).unit.cur = v.unit.cur := by
  unfold truncateTo
  by_cases h : len = v.unit.valid
  · rw [if_pos h]; exact ⟨SameStorage.refl v, h.symm, rfl⟩
  · rw [if_neg h]
    obtain ⟨hm, hu⟩ := sameStorage_maskLastByte v len
    refine ⟨?_, rfl, ?_⟩
    · refine hm.trans (SameStorage.trans ?_ (sameStorage_setValid _ _))
      unfold dropTail
      cases hmode : (maskLastByte v len).unit.mode
      · exact sameStorage_setOwnedCap _ _ hmode
      · exact (zeroBytes_spec _ _ _).1
    · rw [WriterView.setValid_cur]
      unfold dropTail
      cases hmode : (maskLastByte v len).unit.mode
      · simp only [WriterView.setOwnedCap_cur]; rw [hu]
      · simp only; rw [(zeroBytes_spec _ _ _).2.1, hu]

theorem sameStorage_writeGroups (n : Nat) : ∀ (v : WriterView) (s : BitString),
    SameStorage v (writeGroups n v s) ∧ (writeGroups n v s).unit.cap = v.unit.cap := by
  induction n with
  | zero => intro v s; exact ⟨SameStorage.refl v, rfl⟩
  | succ n ih =>
    intro v s
    cases s with
    | nil => exact ⟨SameStorage.refl v, rfl⟩
    | cons b s =>
      obtain ⟨hs, hc⟩ := ih
        (putChunk v (BitVec.ofNat 8 (bitsVal ((b :: s).take 8))) ((b :: s).take 8).length)
        ((b :: s).drop 8)
      exact ⟨(sameStorage_putChunk v _ _).trans hs, hc.trans (putChunk_cap _ _ _)⟩

theorem sameStorage_tailWrite (v : WriterView) (s : BitString) :
    SameStorage v (tailWrite v s) ∧ (tailWrite v s).unit.cap = v.unit.cap := by
  obtain ⟨hs, hc⟩ := sameStorage_writeGroups s.length (v.setCur v.unit.valid) s
  exact ⟨(sameStorage_setCur v _).trans hs, hc⟩

/-! ### Seek -/

/-- What Seek answers (43 R187). -/
theorem seekTarget_cases (org : Origin) (a : Word) (valid cur : Nat) :
    (org = .invalid ∧ seekTarget org a valid cur = .error .seekOrigin) ∨
    ∃ base, originBase org valid cur = some base ∧
      (((base : Int) + signedOffset a < 0 ∧ seekTarget org a valid cur = .error .seekNegative) ∨
       (0 ≤ (base : Int) + signedOffset a ∧ (valid : Int) < base + signedOffset a ∧
         seekTarget org a valid cur = .error .seekBeyond) ∨
       (0 ≤ (base : Int) + signedOffset a ∧ (base : Int) + signedOffset a ≤ valid ∧
         seekTarget org a valid cur = .ok ((base : Int) + signedOffset a).toNat)) := by
  have go : ∀ base, originBase org valid cur = some base →
      (((base : Int) + signedOffset a < 0 ∧ seekTarget org a valid cur = .error .seekNegative) ∨
       (0 ≤ (base : Int) + signedOffset a ∧ (valid : Int) < base + signedOffset a ∧
         seekTarget org a valid cur = .error .seekBeyond) ∨
       (0 ≤ (base : Int) + signedOffset a ∧ (base : Int) + signedOffset a ≤ valid ∧
         seekTarget org a valid cur = .ok ((base : Int) + signedOffset a).toNat)) := by
    intro base hb
    unfold seekTarget
    rw [hb]
    simp only
    by_cases h : (base : Int) + signedOffset a < 0
    · exact .inl ⟨h, if_pos h⟩
    · rw [if_neg h]
      by_cases g : (base : Int) + signedOffset a > valid
      · exact .inr (.inl ⟨by omega, g, if_pos g⟩)
      · exact .inr (.inr ⟨by omega, by omega, if_neg g⟩)
  cases org
  · exact .inr ⟨0, rfl, go 0 rfl⟩
  · exact .inr ⟨valid, rfl, go valid rfl⟩
  · exact .inr ⟨cur, rfl, go cur rfl⟩
  · exact .inl ⟨rfl, rfl⟩

/-- The signed offset is the two's complement reading of the operand (30_encoding R97). -/
theorem signedOffset_eq_toInt (a : Word) : signedOffset a = a.toInt := by
  unfold signedOffset
  rw [BitVec.toInt_eq_toNat_cond]
  have := a.isLt
  split <;> split <;> omega

/-! ### The decode checks and the ways a command can end -/

/-- The checks pass exactly when the unit exists, the payload fits, ST is the needed one and a READY
unit is sound. -/
theorem admitWriter_granted_iff (s : State) (w : Nat) (p : Bool) (need : WriterLife)
    (hn : need ≠ .faulted) :
    admitWriter s w p need = .granted ↔
      w < s.nw ∧ p = true ∧ (s.writer w).st = need ∧
      (need = .ready → (s.writer w).Sound s.ownMax) := by
  unfold admitWriter
  by_cases h1 : w < s.nw <;> by_cases h2 : p = true <;> by_cases h3 : (s.writer w).st = need <;>
    by_cases h4 : (s.writer w).st = .faulted <;> simp_all [Writer.Sound]

/-- A check that fails gives one of the four causes. -/
theorem admitWriter_refuse (s : State) (w : Nat) (p : Bool) (need : WriterLife) (c : Cause)
    (h : admitWriter s w p need = .refuse c) :
    (¬ w < s.nw ∧ c = .illUnit) ∨ (w < s.nw ∧ p = false ∧ c = .illPayload) ∨
    (w < s.nw ∧ p = true ∧ (s.writer w).st = .faulted ∧ c = .unitFaulted) ∨
    (w < s.nw ∧ p = true ∧ (s.writer w).st ≠ .faulted ∧ (s.writer w).st ≠ need ∧ c = .illState) := by
  unfold admitWriter at h
  split at h
  · exact .inl ⟨‹_›, by injection h with h; exact h.symm⟩
  · rename_i h1
    split at h
    · rename_i h2
      exact .inr (.inl ⟨not_not.1 h1, by simpa using h2, by injection h with h; exact h.symm⟩)
    · rename_i h2
      have hp : p = true := by simpa using h2
      split at h
      · exact .inr (.inr (.inl ⟨not_not.1 h1, hp, ‹_›, by injection h with h; exact h.symm⟩))
      · split at h
        · exact .inr (.inr (.inr ⟨not_not.1 h1, hp, ‹_›, ‹_›, by injection h with h; exact h.symm⟩))
        · split at h <;> cases h

/-- Only a READY writer whose registers are unsound is broken (log 8). -/
theorem admitWriter_broken (s : State) (w : Nat) (p : Bool) (need : WriterLife)
    (h : admitWriter s w p need = .broken) :
    w < s.nw ∧ need = .ready ∧ (s.writer w).st = .ready ∧ ¬ (s.writer w).Sound s.ownMax := by
  unfold admitWriter at h
  split at h
  · cases h
  · split at h
    · cases h
    · split at h
      · cases h
      · split at h
        · cases h
        · split at h
          · rename_i h1 _ _ h4 h5
            exact ⟨not_not.1 h1, h5.1, h5.1 ▸ not_not.1 h4, h5.2⟩
          · cases h

theorem admitReader_granted_iff (s : State) (r : Nat) (need : ReaderLife) :
    admitReader s r need = .granted ↔
      r < s.nr ∧ s.pkt.payload = [] ∧ (s.reader r).st = need ∧
      (need = .ready → (s.reader r).Sound) := by
  unfold admitReader
  by_cases h1 : r < s.nr <;> by_cases h2 : s.pkt.payload = [] <;>
    by_cases h3 : (s.reader r).st = need <;> simp_all

theorem admitReader_refuse (s : State) (r : Nat) (need : ReaderLife) (c : Cause)
    (h : admitReader s r need = .refuse c) :
    (¬ r < s.nr ∧ c = .illUnit) ∨ (r < s.nr ∧ s.pkt.payload ≠ [] ∧ c = .illPayload) ∨
    (r < s.nr ∧ s.pkt.payload = [] ∧ (s.reader r).st ≠ need ∧ c = .illState) := by
  unfold admitReader at h
  split at h
  · exact .inl ⟨‹_›, by injection h with h; exact h.symm⟩
  · rename_i h1
    split at h
    · exact .inr (.inl ⟨not_not.1 h1, ‹_›, by injection h with h; exact h.symm⟩)
    · rename_i h2
      split at h
      · exact .inr (.inr ⟨not_not.1 h1, not_not.1 h2, ‹_›, by injection h with h; exact h.symm⟩)
      · split at h <;> cases h

theorem admitReader_broken (s : State) (r : Nat) (need : ReaderLife)
    (h : admitReader s r need = .broken) :
    r < s.nr ∧ need = .ready ∧ (s.reader r).st = .ready ∧ ¬ (s.reader r).Sound := by
  unfold admitReader at h
  split at h
  · cases h
  · split at h
    · cases h
    · split at h
      · cases h
      · split at h
        · rename_i h1 _ h3 h4
          exact ⟨not_not.1 h1, h4.1, h4.1 ▸ not_not.1 h3, h4.2⟩
        · cases h

/-- A READY writer that takes its command runs the command's rule. -/
theorem runWriterWith_granted (s : State) (w : Nat) (p : Bool) (rule : WriterView → WriterEnd)
    (hw : w < s.nw) (hp : p = true) (hst : (s.writer w).st = .ready)
    (hs : (s.writer w).Sound s.ownMax) :
    runWriterWith s w p rule = finishWriter s w (rule (s.writerView w)) := by
  unfold runWriterWith
  rw [(admitWriter_granted_iff s w p .ready (by decide)).2 ⟨hw, hp, hst, fun _ => hs⟩]

theorem runWriter_granted (s : State) (w : Nat) (rule : WriterView → WriterEnd)
    (h : s.WriterTakes w) : runWriter s w rule = finishWriter s w (rule (s.writerView w)) :=
  runWriterWith_granted s w _ rule h.1 (decide_eq_true h.2.1) h.2.2.1 h.2.2.2

theorem runReader_granted (s : State) (r : Nat) (rule : ReaderView → ReaderEnd)
    (h : s.ReaderTakes r) : runReader s r rule = finishReader s r (rule (s.readerView r)) := by
  unfold runReader
  rw [(admitReader_granted_iff s r .ready).2 ⟨h.1, h.2.1, h.2.2.1, fun _ => h.2.2.2⟩]

/-- Everything a command of a READY writer can do when it does not stop. -/
theorem runWriterWith_next (s t : State) (w : Nat) (p : Bool) (rule : WriterView → WriterEnd)
    (h : runWriterWith s w p rule = .next t) :
    (∃ c, c ∈ [Cause.illUnit, .illPayload, .unitFaulted, .illState] ∧
      admitWriter s w p .ready = .refuse c ∧ t = s.raise c) ∨
    (w < s.nw ∧ p = true ∧ (s.writer w).st = .ready ∧ (s.writer w).Sound s.ownMax ∧
      ((∃ v r d, rule (s.writerView w) = .done v r d ∧ t = (s.commit w v).done r d) ∨
       (∃ c, rule (s.writerView w) = .error c ∧ t = s.raise c) ∨
       (∃ c, rule (s.writerView w) = .faulted c ∧ t = s.raiseFault w c))) := by
  unfold runWriterWith at h
  split at h
  · rename_i c hc
    refine .inl ⟨c, ?_, hc, by injection h with h; exact h.symm⟩
    rcases admitWriter_refuse s w p .ready c hc with ⟨-, e⟩ | ⟨-, -, e⟩ | ⟨-, -, -, e⟩ | ⟨-, -, -, -, e⟩ <;>
      simp [e]
  · cases h
  · rename_i hg
    obtain ⟨h1, h2, h3, h4⟩ := (admitWriter_granted_iff s w p .ready (by decide)).1 hg
    refine .inr ⟨h1, h2, h3, h4 rfl, ?_⟩
    cases hr : rule (s.writerView w) with
    | done v r d =>
      rw [hr] at h; exact .inl ⟨v, r, d, rfl, by injection h with h; exact h.symm⟩
    | error c =>
      rw [hr] at h; exact .inr (.inl ⟨c, rfl, by injection h with h; exact h.symm⟩)
    | faulted c =>
      rw [hr] at h; exact .inr (.inr ⟨c, rfl, by injection h with h; exact h.symm⟩)

/-- Everything a command of a READY reader can do when it does not stop. -/
theorem runReader_next (s t : State) (r : Nat) (rule : ReaderView → ReaderEnd)
    (h : runReader s r rule = .next t) :
    (∃ c, c ∈ [Cause.illUnit, .illPayload, .illState] ∧
      admitReader s r .ready = .refuse c ∧ t = s.raise c) ∨
    (s.ReaderTakes r ∧
      ((∃ u x d, rule (s.readerView r) = .done u x d ∧ t = (s.setReader r u).done x d) ∨
       (∃ c, rule (s.readerView r) = .error c ∧ t = s.raise c))) := by
  unfold runReader at h
  split at h
  · rename_i c hc
    refine .inl ⟨c, ?_, hc, by injection h with h; exact h.symm⟩
    rcases admitReader_refuse s r .ready c hc with ⟨-, e⟩ | ⟨-, -, e⟩ | ⟨-, -, -, e⟩ <;> simp [e]
  · cases h
  · rename_i hg
    obtain ⟨h1, h2, h3, h4⟩ := (admitReader_granted_iff s r .ready).1 hg
    refine .inr ⟨⟨h1, h2, h3, h4 rfl⟩, ?_⟩
    cases hr : rule (s.readerView r) with
    | done u x d =>
      rw [hr] at h; exact .inl ⟨u, x, d, rfl, by injection h with h; exact h.symm⟩
    | error c =>
      rw [hr] at h; exact .inr ⟨c, rfl, by injection h with h; exact h.symm⟩

/-- Everything a construction command of a writer can do; it never stops. -/
theorem bindWriter_cases (s : State) (w : Nat) (made : Except Cause Writer) :
    (∃ c, c ∈ [Cause.illUnit, .illPayload, .unitFaulted, .illState] ∧
      admitWriter s w (decide (s.pkt.payload = [])) .unbound = .refuse c ∧
      bindWriter s w made = .next (s.raise c)) ∨
    (s.WriterBinds w ∧
      ((∃ c, made = .error c ∧ bindWriter s w made = .next (s.raise c)) ∨
       (∃ x, made = .ok x ∧ bindWriter s w made = .next ((s.setWriter w x).done 0 [])))) := by
  unfold bindWriter
  cases ha : admitWriter s w (decide (s.pkt.payload = [])) .unbound with
  | refuse c =>
    refine .inl ⟨c, ?_, rfl, rfl⟩
    rcases admitWriter_refuse s w _ .unbound c ha with ⟨-, e⟩ | ⟨-, -, e⟩ | ⟨-, -, -, e⟩ | ⟨-, -, -, -, e⟩ <;>
      simp [e]
  | broken => exact absurd (admitWriter_broken s w _ .unbound ha).2.1 (by decide)
  | granted =>
    obtain ⟨h1, h2, h3, -⟩ := (admitWriter_granted_iff s w _ .unbound (by decide)).1 ha
    refine .inr ⟨⟨h1, of_decide_eq_true h2, h3⟩, ?_⟩
    cases made with
    | error c => exact .inl ⟨c, rfl, rfl⟩
    | ok x => exact .inr ⟨x, rfl, rfl⟩

/-- Everything a construction command of a reader can do; it never stops. -/
theorem bindReader_cases (s : State) (r : Nat) (made : Except Cause Reader) :
    (∃ c, c ∈ [Cause.illUnit, .illPayload, .illState] ∧
      admitReader s r .unbound = .refuse c ∧ bindReader s r made = .next (s.raise c)) ∨
    (s.ReaderBinds r ∧
      ((∃ c, made = .error c ∧ bindReader s r made = .next (s.raise c)) ∨
       (∃ x, made = .ok x ∧ bindReader s r made = .next ((s.setReader r x).done 0 [])))) := by
  unfold bindReader
  cases ha : admitReader s r .unbound with
  | refuse c =>
    refine .inl ⟨c, ?_, rfl, rfl⟩
    rcases admitReader_refuse s r .unbound c ha with ⟨-, e⟩ | ⟨-, -, e⟩ | ⟨-, -, -, e⟩ <;> simp [e]
  | broken => exact absurd (admitReader_broken s r .unbound ha).2.1 (by decide)
  | granted =>
    obtain ⟨h1, h2, h3, -⟩ := (admitReader_granted_iff s r .unbound).1 ha
    refine .inr ⟨⟨h1, h2, h3⟩, ?_⟩
    cases made with
    | error c => exact .inl ⟨c, rfl, rfl⟩
    | ok x => exact .inr ⟨x, rfl, rfl⟩

/-! ### The shape of each command -/

/-- How a command's meaning is built: a rule of a READY writer, a rule of a READY reader, or a
construction. Later proofs over all commands split into these four cases. -/
theorem exec_shape (i : Instr) (s : State) :
    (i.namesWriter = true ∧ constructs i = false ∧
      ∃ rule, exec i s = runWriterWith s i.unitIndex (payloadFits i s.pkt) rule) ∨
    (i.namesWriter = false ∧ constructs i = false ∧ ∃ rule, exec i s = runReader s i.unitIndex rule) ∨
    (i.namesWriter = true ∧ constructs i = true ∧ ∃ made, exec i s = bindWriter s i.unitIndex made) ∨
    (i.namesWriter = false ∧ constructs i = true ∧ ∃ made, exec i s = bindReader s i.unitIndex made) := by
  cases i <;>
    first
    | refine .inl ⟨rfl, rfl, ?_⟩
    | refine .inr (.inl ⟨rfl, rfl, ?_⟩)
    | refine .inr (.inr (.inl ⟨rfl, rfl, ?_⟩))
    | refine .inr (.inr (.inr ⟨rfl, rfl, ?_⟩))
  all_goals
    simp only [exec, execWInito, execWAttach, execWFree, execWWrite, execWWbit, execWAppend,
    execWInsert, execWErase, execWResize, execWSeek, execWAlign, execWReserve, execWTell,
    execWNbits, execWNbytes, execWPtr, execWCopy, execWDump, execRAttach, execRAttache,
    execRAttachp, execRFree, execRReadu, execRReads, execRSeek, execRTell, execRLeft,
    execRNbits, execRNbytes, execREof, execRPtr, execRDump, runWriter, payloadFits,
    Instr.unitIndex]
    exact ⟨_, rfl⟩

/-! ### One step -/

/-- Everything one step can do. -/
theorem step_cases (s : State) :
    (s.host = [] ∧ step s = .next s) ∨
    (∃ p rest e, s.host = .command p :: rest ∧ decodeWord p.cmd = .error e ∧
      step s = .next ((s.take p rest).raise (decodeCause e))) ∨
    (∃ p rest i, s.host = .command p :: rest ∧ decodeWord p.cmd = .ok i ∧
      step s = exec i (s.take p rest)) ∨
    (∃ a v rest, s.host = .store a v :: rest ∧ step s = .next (s.hostStore a v rest)) ∨
    (∃ rest, s.host = .reset :: rest ∧ step s = .next (s.take Packet.none rest).applyReset) ∨
    (∃ p rest, s.host = .resetDuring p :: rest ∧
      step s = .next (s.abandon p rest (decodeWord p.cmd, runPacket (s.take p rest)))) := by
  unfold step
  cases hh : s.host with
  | nil => exact .inl ⟨rfl, rfl⟩
  | cons act rest =>
    cases act with
    | command p =>
      cases hd : decodeWord p.cmd with
      | error e =>
        refine .inr (.inl ⟨p, rest, e, rfl, hd, ?_⟩)
        simp [runPacket, hd]
      | ok i =>
        refine .inr (.inr (.inl ⟨p, rest, i, rfl, hd, ?_⟩))
        simp [runPacket, hd]
    | store a v => exact .inr (.inr (.inr (.inl ⟨a, v, rest, rfl, rfl⟩)))
    | reset => exact .inr (.inr (.inr (.inr (.inl ⟨rest, rfl, rfl⟩))))
    | resetDuring p => exact .inr (.inr (.inr (.inr (.inr ⟨p, rest, rfl, rfl⟩))))

/-- A reader command has no span of writes (10_state R32). -/
theorem writeSpan_reader (i : Instr) (p : Packet) (x : Writer) (h : i.namesWriter = false) :
    writeSpan i p x = (0, 0) := by
  cases i <;> first | rfl | cases h

/-- What XMEM is after an abandoned command that would have ended with OK: as before, or with free bytes
over a non-empty span of an EXTERNAL writer's region. -/
theorem abandonedXmem_cases (s : State) (i : Instr) (p : Packet) :
    abandonedXmem s i p = s.xmem ∨
    ∃ lo hi, writeSpan i p (s.writer i.unitIndex) = (lo, hi) ∧ lo < hi ∧
      (s.writer i.unitIndex).mode = .external ∧
      abandonedXmem s i p = freeBytes s.freeCtr s.xmem
        (regionAddr (s.writer i.unitIndex).base (lo / 8)) (ceil8 hi - lo / 8) := by
  unfold abandonedXmem
  dsimp only
  split
  · rename_i h; exact .inr ⟨_, _, rfl, h.2, h.1, rfl⟩
  · exact .inl rfl

/-- What abandoning a command leaves: the engine reset, the next free value numbered, no response, and
XMEM as it was or as `abandonedXmem` says. -/
theorem abandon_spec (s : State) (p : Packet) (rest : List HostAct)
    (f : Except DecodeError Instr × Host.Outcome State Fault Refusal) :
    ∃ m, s.abandon p rest f =
      State.applyReset { s with xmem := m, host := rest, freeCtr := s.freeCtr + 1 } ∧
      (m = s.xmem ∨ ∃ i t, f = (.ok i, .next t) ∧ t.status = .ok ∧ m = abandonedXmem s i p) := by
  refine ⟨_, rfl, ?_⟩
  obtain ⟨d, o⟩ := f
  cases d with
  | error e => exact .inl rfl
  | ok i =>
    cases o with
    | next t =>
      by_cases h : t.status = .ok
      · exact .inr ⟨i, t, rfl, h, by simp [h]⟩
      · exact .inl (by simp [h])
    | fault r => exact .inl rfl
    | refused r => exact .inl rfl

end Sys2Proof.Machine
end

