-- ==== Sys2Proof/Laws/PerInstr.lean ====
section
/-! SUPPORT. Statements made instruction by instruction. -/

/-- The fields of a command's word decode to the command (30_encoding R98, R99), whatever its operands. -/
def Sys2Proof.Laws.FieldsRoundTrip.Statement (i : Sys2Proof.Instr) : Prop :=
  Sys2Proof.decodeFields (Sys2Proof.encodeFields i) = .ok i

namespace Sys2Proof.Laws

theorem FieldsRoundTrip.wInito (u : Nat) :
    FieldsRoundTrip.Statement (.wInito u) := rfl

theorem FieldsRoundTrip.wAttach (u : Nat) :
    FieldsRoundTrip.Statement (.wAttach u) := rfl

theorem FieldsRoundTrip.wFree (u : Nat) :
    FieldsRoundTrip.Statement (.wFree u) := rfl

theorem FieldsRoundTrip.wWrite (u : Nat) (tw : TypeWidth) (nb : Nat) :
    FieldsRoundTrip.Statement (.wWrite u tw nb) := by cases tw <;> rfl

theorem FieldsRoundTrip.wWbit (u : Nat) :
    FieldsRoundTrip.Statement (.wWbit u) := rfl

theorem FieldsRoundTrip.wAppend (u : Nat) :
    FieldsRoundTrip.Statement (.wAppend u) := rfl

theorem FieldsRoundTrip.wInsert (u : Nat) (tw : TypeWidth) (nb : Nat) :
    FieldsRoundTrip.Statement (.wInsert u tw nb) := by cases tw <;> rfl

theorem FieldsRoundTrip.wErase (u : Nat) :
    FieldsRoundTrip.Statement (.wErase u) := rfl

theorem FieldsRoundTrip.wResize (u : Nat) :
    FieldsRoundTrip.Statement (.wResize u) := rfl

theorem FieldsRoundTrip.wSeek (u : Nat) (org : Origin) :
    FieldsRoundTrip.Statement (.wSeek u org) := by cases org <;> rfl

theorem FieldsRoundTrip.wAlign (u : Nat) :
    FieldsRoundTrip.Statement (.wAlign u) := rfl

theorem FieldsRoundTrip.wReserve (u : Nat) :
    FieldsRoundTrip.Statement (.wReserve u) := rfl

theorem FieldsRoundTrip.wTell (u : Nat) :
    FieldsRoundTrip.Statement (.wTell u) := rfl

theorem FieldsRoundTrip.wNbits (u : Nat) :
    FieldsRoundTrip.Statement (.wNbits u) := rfl

theorem FieldsRoundTrip.wNbytes (u : Nat) :
    FieldsRoundTrip.Statement (.wNbytes u) := rfl

theorem FieldsRoundTrip.wPtr (u : Nat) :
    FieldsRoundTrip.Statement (.wPtr u) := rfl

theorem FieldsRoundTrip.wCopy (u : Nat) :
    FieldsRoundTrip.Statement (.wCopy u) := rfl

theorem FieldsRoundTrip.wDump (u : Nat) :
    FieldsRoundTrip.Statement (.wDump u) := rfl

theorem FieldsRoundTrip.rAttach (u : Nat) :
    FieldsRoundTrip.Statement (.rAttach u) := rfl

theorem FieldsRoundTrip.rAttache (u : Nat) :
    FieldsRoundTrip.Statement (.rAttache u) := rfl

theorem FieldsRoundTrip.rAttachp (u : Nat) :
    FieldsRoundTrip.Statement (.rAttachp u) := rfl

theorem FieldsRoundTrip.rFree (u : Nat) :
    FieldsRoundTrip.Statement (.rFree u) := rfl

theorem FieldsRoundTrip.rReadu (u : Nat) (tw : TypeWidth) (nb : Nat) :
    FieldsRoundTrip.Statement (.rReadu u tw nb) := by cases tw <;> rfl

theorem FieldsRoundTrip.rReads (u : Nat) (tw : TypeWidth) (nb : Nat) :
    FieldsRoundTrip.Statement (.rReads u tw nb) := by cases tw <;> rfl

theorem FieldsRoundTrip.rSeek (u : Nat) (org : Origin) :
    FieldsRoundTrip.Statement (.rSeek u org) := by cases org <;> rfl

theorem FieldsRoundTrip.rTell (u : Nat) :
    FieldsRoundTrip.Statement (.rTell u) := rfl

theorem FieldsRoundTrip.rLeft (u : Nat) :
    FieldsRoundTrip.Statement (.rLeft u) := rfl

theorem FieldsRoundTrip.rNbits (u : Nat) :
    FieldsRoundTrip.Statement (.rNbits u) := rfl

theorem FieldsRoundTrip.rNbytes (u : Nat) :
    FieldsRoundTrip.Statement (.rNbytes u) := rfl

theorem FieldsRoundTrip.rEof (u : Nat) :
    FieldsRoundTrip.Statement (.rEof u) := rfl

theorem FieldsRoundTrip.rPtr (u : Nat) :
    FieldsRoundTrip.Statement (.rPtr u) := rfl

theorem FieldsRoundTrip.rDump (u : Nat) :
    FieldsRoundTrip.Statement (.rDump u) := rfl

end Sys2Proof.Laws
end

