-- ==== Sys2Proof/Tests/Slice0.lean ====
section
/-! SUPPORT. The model's own tests: the well-formedness smoke, the decoding of every constructor from a
word written out from 30_encoding R91 and R98, one or two one-step tests per command with results from
the spec's examples and vectors (cited), and for every statement with hypotheses a witness that they can
be met, clause by clause and at the boundaries. -/

open Sys2Proof Sys2Proof.Machine

namespace Sys2Proof.Tests

/-! ### Helpers -/

/-- The next state of an outcome; the reset state where there is none. -/
def nextOf : Host.Outcome State Fault Refusal → State
  | .next t => t
  | _ => State.reset

def isNext : Host.Outcome State Fault Refusal → Bool
  | .next _ => true
  | _ => false

theorem eq_next_of_isNext {o : Host.Outcome State Fault Refusal} (h : isNext o = true) :
    o = .next (nextOf o) := by
  cases o <;> first | rfl | cases h

/-- A packet with the given operands. -/
def pk (a b c : Nat) (payload : List Byte := []) : Packet :=
  { cmd := 0, a := BitVec.ofNat 64 a, b := BitVec.ofNat 64 b, c := BitVec.ofNat 64 c, payload := payload }

/-- Nothing bound. -/
def fresh (p : Packet) : State := { State.reset with pkt := p }

/-- One OWNED writer, with room for 2 bytes. -/
def owned (cap valid cur : Nat) (m : Memory) (p : Packet) : State :=
  { State.reset with
    ownMax := 2
    writers := [{ st := .ready, mode := .owned, base := 0, cap := cap, valid := valid, cur := cur,
                  omem := m }]
    pkt := p }

/-- One EXTERNAL writer over `cap` bytes at 0x1000. -/
def ext (cap valid cur : Nat) (m : Memory) (p : Packet) : State :=
  { State.reset with
    writers := [{ st := .ready, mode := .external, base := 0x1000, cap := cap, valid := valid,
                  cur := cur, omem := [] }]
    xmem := m
    pkt := p }

/-- One reader over `cap` bytes at 0x1000. -/
def rdr (cap valid cur : Nat) (m : Memory) (p : Packet := pk 0 0 0) : State :=
  { State.reset with
    readers := [{ st := .ready, base := 0x1000, cap := cap, valid := valid, cur := cur }]
    xmem := m
    pkt := p }

/-- The state with writer 0 FAULTED. -/
def broken (s : State) : State := s.setWriter 0 { s.writer 0 with st := .faulted }

/-- The host presents the command word `cmd` with the operands of `p`. -/
def present (s : State) (cmd : Nat) (p : Packet := pk 0 0 0) : State :=
  { s with host := [.command { p with cmd := BitVec.ofNat 32 cmd }] }

/-! ### Well-formedness -/

theorem test_wellFormed_bounds :
    (Instr.wWrite 15 .w64 127).WellFormed ∧ ¬ (Instr.wTell 16).WellFormed ∧
    ¬ (Instr.wWrite 0 .w8 128).WellFormed ∧ ¬ (Instr.rReads 0 .w8 128).WellFormed ∧
    ¬ (Instr.rSeek 16 .fromEnd).WellFormed := by decide

theorem test_config_bounds :
    Config.default.WellFormed ∧ ¬ Config.WellFormed { nw := 0, nr := 1, ownMaxBytes := 0 } ∧
    ¬ Config.WellFormed { nw := 17, nr := 1, ownMaxBytes := 0 } ∧
    ¬ Config.WellFormed { nw := 1, nr := 0, ownMaxBytes := 0 } ∧
    ¬ Config.WellFormed { nw := 1, nr := 17, ownMaxBytes := 0 } ∧
    ¬ Config.WellFormed { nw := 1, nr := 1, ownMaxBytes := 2 ^ 61 } := by decide

/-! ### Decoding: RSV NB ORG TW UID OPC, from the left (30_encoding R91, R98) -/

theorem test_decode_lifecycle :
    decodeWord 0b000000000_0000000_00_00_0000_00000001#32 = .ok (.wInito 0) ∧
    decodeWord 0b000000000_0000000_00_00_0011_00000010#32 = .ok (.wAttach 3) ∧
    decodeWord 0b000000000_0000000_00_00_1111_00000011#32 = .ok (.wFree 15) ∧
    decodeWord 0b000000000_0000000_00_00_0001_00100001#32 = .ok (.rAttach 1) ∧
    decodeWord 0b000000000_0000000_00_00_0010_00100010#32 = .ok (.rAttache 2) ∧
    decodeWord 0b000000000_0000000_00_00_0100_00100011#32 = .ok (.rAttachp 4) ∧
    decodeWord 0b000000000_0000000_00_00_1000_00100100#32 = .ok (.rFree 8) := by decide

theorem test_decode_writing :
    decodeWord 0b000000000_0001101_00_01_0000_00010000#32 = .ok (.wWrite 0 .w16 13) ∧
    decodeWord 0b000000000_0000000_00_00_0001_00010001#32 = .ok (.wWbit 1) ∧
    decodeWord 0b000000000_0000000_00_00_0010_00010010#32 = .ok (.wAppend 2) ∧
    decodeWord 0b000000000_1000000_00_11_0011_00010011#32 = .ok (.wInsert 3 .w64 64) ∧
    decodeWord 0b000000000_0000000_00_00_0100_00010100#32 = .ok (.wErase 4) ∧
    decodeWord 0b000000000_0000000_00_00_0101_00010101#32 = .ok (.wResize 5) ∧
    decodeWord 0b000000000_0000000_00_00_0111_00010111#32 = .ok (.wAlign 7) ∧
    decodeWord 0b000000000_0000000_00_00_1000_00011000#32 = .ok (.wReserve 8) := by decide

theorem test_decode_writer_access :
    decodeWord 0b000000000_0000000_01_00_0110_00010110#32 = .ok (.wSeek 6 .fromEnd) ∧
    decodeWord 0b000000000_0000000_00_00_1001_00011001#32 = .ok (.wTell 9) ∧
    decodeWord 0b000000000_0000000_00_00_1010_00011010#32 = .ok (.wNbits 10) ∧
    decodeWord 0b000000000_0000000_00_00_1011_00011011#32 = .ok (.wNbytes 11) ∧
    decodeWord 0b000000000_0000000_00_00_1100_00011100#32 = .ok (.wPtr 12) ∧
    decodeWord 0b000000000_0000000_00_00_1101_00011101#32 = .ok (.wCopy 13) ∧
    decodeWord 0b000000000_0000000_00_00_1110_00011110#32 = .ok (.wDump 14) := by decide

theorem test_decode_reader :
    decodeWord 0b000000000_1111111_00_00_0000_00110000#32 = .ok (.rReadu 0 .w8 127) ∧
    decodeWord 0b000000000_0001001_00_10_0010_00110001#32 = .ok (.rReads 2 .w32 9) ∧
    decodeWord 0b000000000_0000000_11_00_0001_00110010#32 = .ok (.rSeek 1 .invalid) ∧
    decodeWord 0b000000000_0000000_00_00_0011_00110011#32 = .ok (.rTell 3) ∧
    decodeWord 0b000000000_0000000_00_00_0100_00110100#32 = .ok (.rLeft 4) ∧
    decodeWord 0b000000000_0000000_00_00_0101_00110101#32 = .ok (.rNbits 5) ∧
    decodeWord 0b000000000_0000000_00_00_0110_00110110#32 = .ok (.rNbytes 6) ∧
    decodeWord 0b000000000_0000000_00_00_0111_00110111#32 = .ok (.rEof 7) ∧
    decodeWord 0b000000000_0000000_00_00_1000_00111000#32 = .ok (.rPtr 8) ∧
    decodeWord 0b000000000_0000000_00_00_1001_00111001#32 = .ok (.rDump 9) := by decide

/-- Illegal words (30_encoding R100): the zero word, an unlisted opcode, RSV, and an unused TW, ORG or
NB; RSV is checked before the fields (R101). -/
theorem test_decode_illegal :
    decodeWord 0x00000000#32 = .error .illOpcode ∧ decodeWord 0x0000001F#32 = .error .illOpcode ∧
    decodeWord 0x00800019#32 = .error .illOpcode ∧ decodeWord 0x80001019#32 = .error .illOpcode ∧
    decodeWord 0x00001019#32 = .error .illField ∧ decodeWord 0x00008010#32 = .error .illField ∧
    decodeWord 0x00010016#32 = .error .illField := by decide

theorem test_encode : encode (.wWrite 0 .w32 32) = 0x00202010#32 ∧
    encode (.rSeek 15 .fromCurrent) = 0x00008F32#32 := by decide

/-- The interface: a table row's word decodes, and step runs it as the first command. -/
theorem test_fetch :
    decodeTableWord 32 0x19 = some (.wTell 0) ∧ decodeTableWord 32 0 = none ∧
    (nextOf (step (State.reset.withFetchWord 32 0x01))).writers =
      [{ st := .ready, mode := .owned, base := 0, cap := 0, valid := 0, cur := 0, omem := [] }] := by
  decide

/-! ### One step of each command; results from the rules' examples -/

/-- R120's example. -/
theorem test_wInito :
    (nextOf (execWInito 0 (fresh (pk 4 0 0)))).writers =
      [{ st := .ready, mode := .owned, base := 0, cap := 4, valid := 0, cur := 0, omem := [] }] := by
  decide

/-- R121's example. -/
theorem test_wAttach :
    (nextOf (execWAttach 0 (fresh (pk 0x1000 5 40)))).writers =
      [{ st := .ready, mode := .external, base := 0x1000, cap := 5, valid := 40, cur := 0,
         omem := [] }] := by decide

/-- R122: the unit is UNBOUND and the owned bytes are gone. -/
theorem test_wFree :
    ((nextOf (execWFree 0 (owned 1 8 0 [(0, 0xF0)] (pk 0 0 0)))).writer 0).st = .unbound ∧
    ((nextOf (execWFree 0 (owned 1 8 0 [(0, 0xF0)] (pk 0 0 0)))).writer 0).omem = [] := by decide

/-- R123's, R124's and R125's examples. -/
theorem test_rAttach :
    (nextOf (execRAttach 0 (fresh (pk 0x1000 2 11)))).readers =
      [{ st := .ready, base := 0x1000, cap := 2, valid := 11, cur := 0 }] := by decide

theorem test_rAttache :
    (nextOf (execRAttache 0 (fresh (pk 0x2000 0x2003 0)))).readers =
      [{ st := .ready, base := 0x2000, cap := 3, valid := 24, cur := 0 }] := by decide

theorem test_rAttachp :
    (nextOf (execRAttachp 0 (fresh (pk 0x3000 0 13)))).readers =
      [{ st := .ready, base := 0x3000, cap := 2, valid := 13, cur := 0 }] := by decide

theorem test_rFree : ((nextOf (execRFree 0 (rdr 2 11 3 []))).reader 0).st = .unbound := by decide

/-- R141's example (95 S1): bytes 0 to 3 become 0, byte 4 stays FF. -/
theorem test_wWrite :
    (nextOf (execWWrite 0 .w32 32
      (ext 5 40 0 [(0x1000, 0xFF), (0x1001, 0xFF), (0x1002, 0xFF), (0x1003, 0xFF), (0x1004, 0xFF)]
        (pk 0 0 0)))).xmem = [(0x1004, 0xFF)] := by decide

/-- R141: the low bits, most significant first, across a byte boundary. -/
theorem test_wWrite_straddles :
    (nextOf (execWWrite 0 .w16 10 (owned 1 4 4 [(0, 0xA0)] (pk 0xFE81 0 0)))).writers =
      [{ st := .ready, mode := .owned, base := 0, cap := 2, valid := 14, cur := 14,
         omem := [(0, 0xAA), (1, 0x04)] }] := by decide

/-- R142's example. -/
theorem test_wWbit :
    (nextOf (execWWbit 0 (owned 0 0 0 [] (pk 1 0 0)))).writers =
      [{ st := .ready, mode := .owned, base := 0, cap := 1, valid := 1, cur := 1,
         omem := [(0, 0x80)] }] := by decide

/-- R144's examples: at the end, and not at the end. -/
theorem test_wAppend_atEnd :
    (nextOf (execWAppend 0 (owned 1 3 3 [(0, 0xA0)] (pk 1 0 0 [0xFF])))).writers =
      [{ st := .ready, mode := .owned, base := 0, cap := 2, valid := 11, cur := 11,
         omem := [(0, 0xBF), (1, 0xE0)] }] := by decide

theorem test_wAppend_notAtEnd :
    (nextOf (execWAppend 0 (owned 1 3 0 [(0, 0xA0)] (pk 1 0 0 [0xFF])))).writers =
      [{ st := .ready, mode := .owned, base := 0, cap := 1, valid := 8, cur := 0,
         omem := [(0, 0xFF)] }] := by decide

/-- R146's second example: the pad overwrites valid bits. -/
theorem test_wAlign :
    (nextOf (execWAlign 0 (owned 1 8 3 [(0, 0xFF)] (pk 0 0 0)))).writers =
      [{ st := .ready, mode := .owned, base := 0, cap := 1, valid := 8, cur := 8,
         omem := [(0, 0xE0)] }] := by decide

/-- R163's example (95 S2), the cursor at the insertion point. -/
theorem test_wInsert :
    (nextOf (execWInsert 0 .w8 3 (owned 1 8 5 [(0, 0xF0)] (pk 5 5 0)))).writers =
      [{ st := .ready, mode := .owned, base := 0, cap := 2, valid := 11, cur := 8,
         omem := [(0, 0xF5)] }] := by decide

/-- R165's example (95 S3), the cursor inside the range. -/
theorem test_wErase :
    (nextOf (execWErase 0 (owned 1 8 3 [(0, 0xFF)] (pk 2 3 0)))).writers =
      [{ st := .ready, mode := .owned, base := 0, cap := 1, valid := 5, cur := 2,
         omem := [(0, 0xF8)] }] := by decide

/-- R166's example, and its fault. -/
theorem test_wResize :
    (nextOf (execWResize 0 (owned 2 16 12 [(0, 0xFF), (1, 0xFF)] (pk 11 0 0)))).writers =
      [{ st := .ready, mode := .owned, base := 0, cap := 2, valid := 11, cur := 11,
         omem := [(0, 0xFF), (1, 0xE0)] }] := by decide

theorem test_wResize_fault :
    ((nextOf (execWResize 0 (ext 1 8 0 [] (pk 9 0 0)))).writer 0).st = .faulted ∧
    (nextOf (execWResize 0 (ext 1 8 0 [] (pk 9 0 0)))).cause.code = 0xB1 ∧
    (nextOf (execWResize 0 (ext 1 8 0 [] (pk 9 0 0)))).errlog = 0x0800 := by decide

/-- R168: growth, and the refusal in EXTERNAL mode. -/
theorem test_wReserve :
    ((nextOf (execWReserve 0 (owned 0 0 0 [] (pk 16 0 0)))).writer 0).cap = 2 ∧
    (nextOf (execWReserve 0 (ext 1 8 0 [] (pk 16 0 0)))).cause.code = 0x71 := by decide

/-- R180's example: end - 3, then current + 4 fails. -/
theorem test_wSeek :
    ((nextOf (execWSeek 0 .fromEnd (owned 2 11 11 [(0, 0xF5)] (pk (2 ^ 64 - 3) 0 0)))).writer 0).cur
      = 8 ∧
    (nextOf (execWSeek 0 .fromCurrent (owned 2 11 8 [(0, 0xF5)] (pk 4 0 0)))).cause.code = 0x32 := by
  decide

/-- R181 to R184. -/
theorem test_wTell : (nextOf (execWTell 0 (owned 2 11 3 [] (pk 0 0 0)))).res = 3 := by decide
theorem test_wNbits : (nextOf (execWNbits 0 (owned 2 11 3 [] (pk 0 0 0)))).res = 11 := by decide
theorem test_wNbytes : (nextOf (execWNbytes 0 (owned 2 11 3 [] (pk 0 0 0)))).res = 2 := by decide
theorem test_wPtr : (nextOf (execWPtr 0 (ext 5 40 0 [] (pk 0 0 0)))).res = 0x1000 := by decide

/-- R185's and R186's examples. -/
theorem test_wCopy :
    (nextOf (execWCopy 0 (owned 2 11 0 [(0, 0xF5)] (pk 0 0 0)))).dout = [0xF5, 0x00] := by decide

theorem test_wDump :
    (nextOf (execWDump 0 (owned 1 5 0 [(0, 0xF8)] (pk 0 0 0)))).dout =
      [0x31, 0x31, 0x31, 0x31, 0x31] := by decide

/-- R202's example: 5 bits of F5 00. -/
theorem test_rReadu :
    (nextOf (execRReadu 0 .w8 5 (rdr 2 11 0 [(0x1000, 0xF5)]))).res = 0x1E ∧
    (nextOf (execRReadu 0 .w8 4 (rdr 2 11 8 [(0x1000, 0xF5)]))).cause.code = 0x11 := by decide

/-- R203's example: 101 as a signed 8-bit result is -3. -/
theorem test_rReads :
    (nextOf (execRReads 0 .w8 3 (rdr 1 3 0 [(0x1000, 0xA0)]))).res = 0xFFFFFFFFFFFFFFFD := by decide

/-- R204's example. -/
theorem test_rSeek :
    ((nextOf (execRSeek 0 .fromBegin (rdr 2 11 8 [] (pk 5 0 0)))).reader 0).cur = 5 ∧
    (nextOf (execRSeek 0 .fromEnd (rdr 2 11 8 [] (pk 1 0 0)))).cause.code = 0x32 := by decide

/-- R205 to R210. -/
theorem test_rTell : (nextOf (execRTell 0 (rdr 2 11 8 []))).res = 8 := by decide
theorem test_rLeft : (nextOf (execRLeft 0 (rdr 2 11 8 []))).res = 3 := by decide
theorem test_rNbits : (nextOf (execRNbits 0 (rdr 2 11 8 []))).res = 11 := by decide
theorem test_rNbytes : (nextOf (execRNbytes 0 (rdr 2 11 8 []))).res = 2 := by decide
theorem test_rEof :
    (nextOf (execREof 0 (rdr 2 11 11 []))).res = 1 ∧ (nextOf (execREof 0 (rdr 2 11 10 []))).res = 0 := by
  decide
theorem test_rPtr : (nextOf (execRPtr 0 (rdr 2 11 8 []))).res = 0x1000 := by decide

/-- R211's example, text 11110101000. -/
theorem test_rDump :
    (nextOf (execRDump 0 (rdr 2 11 8 [(0x1000, 0xF5)]))).dout =
      [0x31, 0x31, 0x31, 0x31, 0x30, 0x31, 0x30, 0x31, 0x30, 0x30, 0x30] := by decide

/-- The assembler's encoding of R103's forms (95, the programs' listings). -/
theorem test_assembler :
    assembleWriter "W.TOEND" 0 [] = some { cmd := 0x00004016, a := 0, b := 0, c := 0, payload := [] } ∧
    assembleReader "R.NREAD" 2 [] = some { cmd := 0x00000233, a := 0, b := 0, c := 0, payload := [] } := by
  decide

/-! ### Witnesses: each statement's hypotheses can be met, clause by clause -/

/-- The owned writer of 95 S2: 8 valid bits 11110000. -/
abbrev ow8 (p : Packet) : State := owned 1 8 5 [(0, 0xF0)] p

/-- The external writer of 95 S1, 5 bytes FF. -/
abbrev ex40 (cur : Nat) (p : Packet) : State :=
  ext 5 40 cur [(0x1000, 0xFF), (0x1001, 0xFF), (0x1002, 0xFF), (0x1003, 0xFF), (0x1004, 0xFF)] p

/-- An external writer with padding: 11 valid bits of 3 bytes. -/
abbrev ex11 (cur : Nat) (p : Packet) : State :=
  ext 3 11 cur [(0x1000, 0xF5), (0x1001, 0xFF), (0x1002, 0xFF)] p

theorem witness_DecodeOfEncodeIsIdentity :
    (Instr.wInsert 15 .w64 127).WellFormed ∧ (Instr.rDump 0).WellFormed := by decide

theorem witness_EncodeOfDecodeIsIdentity :
    decodeWord 0x007F3F10#32 = .ok (.wWrite 15 .w64 127) ∧ decodeWord 0x00000001#32 = .ok (.wInito 0) := by
  decide

theorem witness_LegalWordsAreTheOpcodeMapRows :
    decodeWord 0x00203013#32 = .ok (.wInsert 0 .w64 32) ∧
    ∃ row ∈ opcodeMap, 0x0000CF32#32 &&& row.mask = row.pattern := by decide

theorem witness_StepRunsTheDecodedCommand :
    ∃ (s : State) (p : Packet) (rest : List HostAct) (i : Instr),
      s.host = .command p :: rest ∧ decodeWord p.cmd = .ok i :=
  ⟨present (fresh (pk 0 0 0)) 0x01 (pk 4 0 0), _, _, .wInito 0, rfl, by decide⟩

theorem witness_IdleStepsAndHostStores :
    State.reset.host = [] ∧
    ({ State.reset with host := [.store 0xFFFFFFFFFFFFFFFF 0xAB] } : State).host =
      [.store 0xFFFFFFFFFFFFFFFF 0xAB] := ⟨rfl, rfl⟩

theorem witness_ResetLeavesTheTableValues :
    ({ broken (ex40 0 (pk 0 0 0)) with host := [.reset] } : State).host = [.reset] := rfl

/-- A W.WRITE of 32 bits over FF bytes, and an illegal word, each cut short by reset; addresses on both
sides of the span's ends. -/
theorem witness_ResetDuringACommandIsConfined :
    decodeWord 0x00202010#32 = .ok (.wWrite 0 .w32 32) ∧ decodeWord 0#32 = .error .illOpcode ∧
    writeSpan (.wWrite 0 .w32 32) (pk 0 0 0) ((ex40 0 (pk 0 0 0)).writer 0) = (0, 32) ∧
    ((ex40 0 (pk 0 0 0)).writer 0).mode = .external ∧
    (∀ a ∈ [0x0FFF, 0x1004], ∀ k, 0 ≤ k → k < 32 →
      a ≠ regionAddr ((ex40 0 (pk 0 0 0)).writer 0).base (k / 8)) := by
  refine ⟨by decide, by decide, by decide, by decide, ?_⟩
  intro a ha k _ hk
  have h : ((ex40 0 (pk 0 0 0)).writer 0).base.toNat = 0x1000 := by decide
  simp only [regionAddr, h, List.mem_cons, List.not_mem_nil, or_false] at ha ⊢
  omega

/-- The host presents the command word `cmd` with the operands of `p`, and resets while it executes. -/
abbrev cutShort (s : State) (cmd : Nat) (p : Packet := pk 0 0 0) : State :=
  { s with host := [.resetDuring { p with cmd := BitVec.ofNat 32 cmd }] }

/-- The hypotheses of O9's clause on commands that would not have ended with OK. -/
abbrev CutShortWithoutOk (s : State) : Prop :=
  ∃ p rest i, s.host = .resetDuring p :: rest ∧ decodeWord p.cmd = .ok i ∧
    ¬ ∃ t', runPacket (s.take p rest) = .next t' ∧ t'.status = .ok

/-- Whether an outcome is a command ended with OK. -/
def endedOk : Host.Outcome State Fault Refusal → Bool
  | .next t => decide (t.status = .ok)
  | _ => false

theorem not_ok_of_endedOk {o : Host.Outcome State Fault Refusal} (h : endedOk o = false) :
    ¬ ∃ t, o = .next t ∧ t.status = .ok := by
  rintro ⟨t, rfl, ht⟩
  exact of_decide_eq_false h ht

/-- The command that is cut short names an OWNED writer and would have ended with OK. -/
theorem witness_ResetDuringACommandIsConfined_owned :
    ∃ (s : State) (p : Packet) (rest : List HostAct) (i : Instr), s.host = .resetDuring p :: rest ∧
      decodeWord p.cmd = .ok i ∧ (s.writer i.unitIndex).mode ≠ .external ∧
      endedOk (runPacket (s.take p rest)) = true ∧
      writeSpan i p (s.writer i.unitIndex) = (5, 13) :=
  ⟨cutShort (ow8 (pk 0 0 0)) 0x00080010 (pk 0xFF 0 0), _, _, .wWrite 0 .w8 8, rfl, by decide, by decide,
    by decide, by decide⟩

/-- It names a reader, over a state whose writer 0 is EXTERNAL. -/
theorem witness_ResetDuringACommandIsConfined_reader :
    ∃ (s : State) (p : Packet) (rest : List HostAct) (i : Instr), s.host = .resetDuring p :: rest ∧
      decodeWord p.cmd = .ok i ∧ i.namesWriter = false ∧ (s.writer i.unitIndex).mode = .external :=
  ⟨cutShort (ex40 0 (pk 0 0 0)) 0x33, _, _, .rTell 0, rfl, by decide, by decide, by decide⟩

/-- It would have been refused: UNBOUND, FAULTED, UID out of range, a payload it does not take. -/
theorem witness_ResetDuringACommandIsConfined_refused :
    CutShortWithoutOk (cutShort (fresh (pk 0 0 0)) 0x00080010) ∧
    CutShortWithoutOk (cutShort (broken (ex40 0 (pk 0 0 0))) 0x00080010) ∧
    CutShortWithoutOk (cutShort (ex40 0 (pk 0 0 0)) 0x00080110) ∧
    CutShortWithoutOk (cutShort (ex40 0 (pk 0 0 0)) 0x00080010 (pk 0 0 0 [0xFF])) :=
  ⟨⟨_, _, .wWrite 0 .w8 8, rfl, by decide, not_ok_of_endedOk (by decide)⟩,
    ⟨_, _, .wWrite 0 .w8 8, rfl, by decide, not_ok_of_endedOk (by decide)⟩,
    ⟨_, _, .wWrite 1 .w8 8, rfl, by decide, not_ok_of_endedOk (by decide)⟩,
    ⟨_, _, .wWrite 0 .w8 8, rfl, by decide, not_ok_of_endedOk (by decide)⟩⟩

/-- It would have failed its own checks: one bit too wide, one bit past the region, the resize fault. -/
theorem witness_ResetDuringACommandIsConfined_failed :
    CutShortWithoutOk (cutShort (ex40 0 (pk 0 0 0)) 0x00090010) ∧
    CutShortWithoutOk (cutShort (ex40 33 (pk 0 0 0)) 0x00080010) ∧
    CutShortWithoutOk (cutShort (ex40 0 (pk 0 0 0)) 0x15 (pk 41 0 0)) :=
  ⟨⟨_, _, .wWrite 0 .w8 9, rfl, by decide, not_ok_of_endedOk (by decide)⟩,
    ⟨_, _, .wWrite 0 .w8 8, rfl, by decide, not_ok_of_endedOk (by decide)⟩,
    ⟨_, _, .wResize 0, rfl, by decide, not_ok_of_endedOk (by decide)⟩⟩

theorem witness_GoodAtReset :
    Config.default.WellFormed ∧ Config.WellFormed { nw := 1, nr := 1, ownMaxBytes := 0 } ∧
    Config.WellFormed { nw := 16, nr := 16, ownMaxBytes := 2 ^ 61 - 1 } := by decide

/-- A sound owned writer with one padding byte reserved. -/
abbrev owPadded : State := owned 2 8 5 [(0, 0xF0)] (pk 0 0 0)

theorem witness_UnitsSound :
    owPadded.UnitsSound ∧ (ex40 40 (pk 0 0 0)).UnitsSound ∧ (rdr 2 16 16 []).UnitsSound :=
  ⟨by decide, by decide, by decide⟩

theorem padding_owned (cap : Nat) (p : Packet) (h : cap ≤ 2) :
    (owned cap 8 5 [(0, 0xF0)] p).StoragePadded ↔ 0 < cap := by
  unfold State.StoragePadded Writer.PaddingZero
  interval_cases cap
  · simp [owned]
  · simp [owned]
    refine ⟨by decide, fun i h1 h2 => by omega⟩
  · simp [owned]
    refine ⟨by decide, fun i h1 h2 => ?_⟩
    interval_cases i <;> decide

theorem witness_StoragePadded : owPadded.StoragePadded := (padding_owned 2 _ (by decide)).2 (by decide)

theorem witness_MemoriesCanonical : owPadded.MemoriesCanonical ∧ (ex40 0 (pk 0 0 0)).MemoriesCanonical := by
  unfold State.MemoriesCanonical; decide

/-- A state whose last command failed. -/
theorem witness_ResponseConsistent :
    (State.reset.raise .seekBeyond).ResponseConsistent ∧ State.reset.ResponseConsistent := by
  unfold State.ResponseConsistent; decide

/-- A step of each kind from states that meet the invariants. -/
theorem witness_steps :
    isNext (step (present owPadded 0x00082010 (pk 0xAB 0 0))) = true ∧
    isNext (step (present (ex40 40 (pk 0 0 0)) 0x00000015 (pk 41 0 0))) = true ∧
    isNext (step { owPadded with host := [.reset] }) = true ∧
    isNext (step { owPadded with host := [.store 0 1] }) = true ∧
    isNext (step { owPadded with host := [.resetDuring (pk 0 0 0)] }) = true := by decide

/-- The invariants hold together in a state that takes a step. -/
theorem witness_StepKeeps :
    ∃ s t : State, s.UnitsSound ∧ s.StoragePadded ∧ s.MemoriesCanonical ∧ s.ResponseConsistent ∧
      step s = .next t := by
  refine ⟨present owPadded 0x00082010 (pk 0xAB 0 0), _, by decide, ?_, ?_, ?_,
    eq_next_of_isNext witness_steps.1⟩
  · exact witness_StoragePadded
  · unfold State.MemoriesCanonical; decide
  · unfold State.ResponseConsistent; decide

/-- Chunks of 1 and of 8 bits, in one byte and across two, in both modes. -/
theorem witness_PutChunkWritesExactlyItsBits :
    1 ≤ 1 ∧ (1#8).toNat < 2 ^ 1 ∧ (0xFF#8).toNat < 2 ^ 8 ∧
    ((ow8 (pk 0 0 0)).writerView 0).unit.mode = .owned ∧ 5 % 8 + 1 ≤ 8 ∧
    ((ex40 5 (pk 0 0 0)).writerView 0).unit.mode = .external ∧ ¬ (5 % 8 + 8 ≤ 8) := by decide

/-- Chunks of 1 and of 8 bits. -/
theorem witness_GetChunkReadsItsBits : (1 ≤ 1 ∧ 1 ≤ 8) ∧ (1 ≤ 8 ∧ 8 ≤ 8) := by decide

/-- An external writer and a reader over the same bytes; the chunk straddles a byte boundary. -/
theorem witness_WindowSymmetry :
    let v := (ex40 5 (pk 0 0 0)).writerView 0
    let r : ReaderView := { unit := { st := .ready, base := 0x1000, cap := 5, valid := 40, cur := 5 }
                            xmem := (putChunk v 0x5A 8).xmem }
    (0x5A#8).toNat < 2 ^ 8 ∧ r.unit.cur = v.unit.cur ∧
    ∀ j, j < 8 → bitAt r.byte (v.unit.cur + j) = bitAt (putChunk v 0x5A 8).byte (v.unit.cur + j) := by
  decide

/-- Fields of 0 and of 64 bits. -/
theorem witness_WriteFieldWritesTheField :
    (0#64).toNat < 2 ^ 0 ∧ (0xFFFFFFFFFFFFFFFF#64).toNat < 2 ^ 64 ∧
    ((ow8 (pk 0 0 0)).writerView 0).unit.cur ≤ ((ow8 (pk 0 0 0)).writerView 0).unit.valid := by decide

/-- Fields of 1 and of 64 bits. -/
theorem witness_ReadFieldReadsTheField : (1 ≤ 1 ∧ 1 ≤ 64) ∧ (1 ≤ 64 ∧ 64 ≤ 64) := by decide

/-- No cut, and a cut inside a byte in each mode. -/
theorem witness_TruncateCutsTheContent :
    let v := (ow8 (pk 0 0 0)).writerView 0
    let w := (ex11 0 (pk 0 0 0)).writerView 0
    (v.unit.valid ≤ 8 * v.unit.cap ∧ 8 = v.unit.valid ∧ 3 < v.unit.valid ∧ v.unit.mode = .owned) ∧
    (w.unit.valid ≤ 8 * w.unit.cap ∧ 0 < w.unit.valid ∧ w.unit.mode = .external) := by decide

/-- A bound unit; the largest capacity and one byte more. -/
theorem witness_WInitoConstructsOwnedWriter :
    (0 < (ow8 (pk 4 0 0)).nw ∧ (ow8 (pk 4 0 0)).pkt.payload = [] ∧
      ((ow8 (pk 4 0 0)).writer 0).st = .ready) ∧
    ((fresh (pk (2 ^ 61) 0 0)).WriterBinds 0 ∧
      (fresh (pk (2 ^ 61) 0 0)).pkt.a.toNat > (fresh (pk (2 ^ 61) 0 0)).ownMax) ∧
    ((fresh (pk (2 ^ 61 - 1) 0 0)).WriterBinds 0 ∧
      (fresh (pk (2 ^ 61 - 1) 0 0)).pkt.a.toNat ≤ (fresh (pk (2 ^ 61 - 1) 0 0)).ownMax) := by decide

/-- A bound unit; then length, top of XMEM and valid-bits count at and just past their bounds. -/
theorem witness_WAttachConstructsExternalWriter :
    ((ow8 (pk 0 1 0)).pkt.payload = [] ∧ ((ow8 (pk 0 1 0)).writer 0).st = .ready) ∧
    ((fresh (pk 0 (2 ^ 61) 0)).WriterBinds 0 ∧ (fresh (pk 0 (2 ^ 61) 0)).pkt.b.toNat > 2 ^ 61 - 1) ∧
    ((fresh (pk (2 ^ 64 - 4) 5 0)).WriterBinds 0 ∧
      (fresh (pk (2 ^ 64 - 4) 5 0)).pkt.a.toNat + (fresh (pk (2 ^ 64 - 4) 5 0)).pkt.b.toNat > 2 ^ 64) ∧
    ((fresh (pk (2 ^ 64 - 5) 5 41)).pkt.a.toNat + (fresh (pk (2 ^ 64 - 5) 5 41)).pkt.b.toNat ≤ 2 ^ 64 ∧
      (fresh (pk (2 ^ 64 - 5) 5 41)).pkt.c.toNat > 8 * (fresh (pk (2 ^ 64 - 5) 5 41)).pkt.b.toNat) ∧
    ((fresh (pk (2 ^ 64 - 5) 5 40)).WriterBinds 0 ∧
      (fresh (pk (2 ^ 64 - 5) 5 40)).pkt.a.toNat + (fresh (pk (2 ^ 64 - 5) 5 40)).pkt.b.toNat ≤ 2 ^ 64 ∧
      (fresh (pk (2 ^ 64 - 5) 5 40)).pkt.c.toNat ≤ 8 * (fresh (pk (2 ^ 64 - 5) 5 40)).pkt.b.toNat) := by
  decide

theorem witness_RAttachConstructsReader :
    ((rdr 2 11 3 []).pkt.payload = [] ∧ ((rdr 2 11 3 []).reader 0).st = .ready ∧
      0 < (rdr 2 11 3 []).nr) ∧
    ((fresh (pk 0 (2 ^ 61) 0)).ReaderBinds 0 ∧ (fresh (pk 0 (2 ^ 61) 0)).pkt.b.toNat > 2 ^ 61 - 1) ∧
    ((fresh (pk (2 ^ 64 - 4) 5 0)).ReaderBinds 0 ∧
      (fresh (pk (2 ^ 64 - 4) 5 0)).pkt.a.toNat + (fresh (pk (2 ^ 64 - 4) 5 0)).pkt.b.toNat > 2 ^ 64) ∧
    ((fresh (pk 0 5 41)).ReaderBinds 0 ∧
      (fresh (pk 0 5 41)).pkt.c.toNat > 8 * (fresh (pk 0 5 41)).pkt.b.toNat) ∧
    ((fresh (pk 0 (2 ^ 61 - 1) 0)).ReaderBinds 0 ∧
      (fresh (pk 0 (2 ^ 61 - 1) 0)).pkt.b.toNat ≤ 2 ^ 61 - 1) := by decide

/-- End before begin, a region one byte too long, an empty region, and the longest. -/
theorem witness_RAttacheConstructsReader :
    ((rdr 2 11 3 []).pkt.payload = [] ∧ ((rdr 2 11 3 []).reader 0).st = .ready) ∧
    ((fresh (pk 1 0 0)).ReaderBinds 0 ∧ (fresh (pk 1 0 0)).pkt.b.toNat < (fresh (pk 1 0 0)).pkt.a.toNat) ∧
    ((fresh (pk 1 (2 ^ 61 + 1) 0)).ReaderBinds 0 ∧
      (fresh (pk 1 (2 ^ 61 + 1) 0)).pkt.b.toNat >
        (fresh (pk 1 (2 ^ 61 + 1) 0)).pkt.a.toNat + (2 ^ 61 - 1)) ∧
    ((fresh (pk 1 1 0)).ReaderBinds 0 ∧ (fresh (pk 1 1 0)).pkt.a.toNat ≤ (fresh (pk 1 1 0)).pkt.b.toNat) ∧
    ((fresh (pk 1 (2 ^ 61) 0)).pkt.b.toNat ≤ (fresh (pk 1 (2 ^ 61) 0)).pkt.a.toNat + (2 ^ 61 - 1)) := by
  decide

/-- A count of 0, one that needs too many bytes, one at the top of XMEM and one past it. -/
theorem witness_RAttachpConstructsReader :
    ((rdr 2 11 3 []).pkt.payload = [] ∧ ((rdr 2 11 3 []).reader 0).st = .ready) ∧
    ((fresh (pk 0 0 0)).ReaderBinds 0 ∧ (fresh (pk 0 0 0)).pkt.c.toNat = 0) ∧
    ((fresh (pk 0 0 (2 ^ 64 - 7))).ReaderBinds 0 ∧
      ((fresh (pk 0 0 (2 ^ 64 - 7))).pkt.c.toNat + 7) / 8 > 2 ^ 61 - 1) ∧
    ((fresh (pk (2 ^ 64 - 1) 0 9)).ReaderBinds 0 ∧
      (fresh (pk (2 ^ 64 - 1) 0 9)).pkt.a.toNat +
        ((fresh (pk (2 ^ 64 - 1) 0 9)).pkt.c.toNat + 7) / 8 > 2 ^ 64) ∧
    ((fresh (pk (2 ^ 64 - 1) 0 8)).ReaderBinds 0 ∧ (fresh (pk (2 ^ 64 - 1) 0 8)).pkt.c.toNat ≠ 0 ∧
      (fresh (pk (2 ^ 64 - 1) 0 8)).pkt.a.toNat +
        ((fresh (pk (2 ^ 64 - 1) 0 8)).pkt.c.toNat + 7) / 8 ≤ 2 ^ 64) := by decide

theorem witness_FreeReleasesTheUnit :
    ((fresh (pk 0 0 0)).pkt.payload = [] ∧ ((fresh (pk 0 0 0)).writer 0).st = .unbound ∧
      ((fresh (pk 0 0 0)).reader 0).st = .unbound) ∧
    (0 < (broken (ex40 0 (pk 0 0 0))).nw ∧ (broken (ex40 0 (pk 0 0 0))).pkt.payload = [] ∧
      ((broken (ex40 0 (pk 0 0 0))).writer 0).st = .faulted) ∧
    ((ow8 (pk 0 0 0)).WriterTakes 0 ∧ ((ow8 (pk 0 0 0)).writer 0).mode = .owned) ∧
    (ex40 0 (pk 0 0 0)).WriterTakes 0 ∧ (rdr 2 11 3 []).ReaderTakes 0 := by decide

/-- Too wide by one bit; the last bit of the region and one bit past it; the last owned byte and one
past it. -/
theorem witness_WWriteWritesTheLowBits :
    ((ow8 (pk 0 0 0)).WriterTakes 0 ∧ 9 > typeBits .w8) ∧
    ((ex40 33 (pk 0 0 0)).WriterTakes 0 ∧ 8 ≤ typeBits .w8 ∧
      ((ex40 33 (pk 0 0 0)).writer 0).mode = .external ∧
      ((ex40 33 (pk 0 0 0)).writer 0).cur + 8 > 8 * ((ex40 33 (pk 0 0 0)).writer 0).cap) ∧
    ((ow8 (pk 0 0 0)).WriterTakes 0 ∧ ((ow8 (pk 0 0 0)).writer 0).mode = .owned ∧
      ceil8 (((ow8 (pk 0 0 0)).writer 0).cur + 12) > (ow8 (pk 0 0 0)).ownMax ∧ 12 ≤ typeBits .w16) ∧
    ((ex40 32 (pk 0 0 0)).WriterTakes 0 ∧ CapacityFor (ex40 32 (pk 0 0 0)) 0 (32 + 8)) ∧
    CapacityFor (ow8 (pk 0 0 0)) 0 (5 + 11) ∧ CapacityFor (ow8 (pk 0 0 0)) 0 (5 + 0) :=
  ⟨by decide, by decide, by decide, by decide, by decide, by decide⟩

theorem witness_WWbitIsAOneBitWrite :
    ((ex40 40 (pk 1 0 0)).WriterTakes 0 ∧ ((ex40 40 (pk 1 0 0)).writer 0).mode = .external ∧
      ((ex40 40 (pk 1 0 0)).writer 0).cur + 1 > 8 * ((ex40 40 (pk 1 0 0)).writer 0).cap) ∧
    ((owned 2 16 16 [] (pk 1 0 0)).WriterTakes 0 ∧
      ceil8 (((owned 2 16 16 [] (pk 1 0 0)).writer 0).cur + 1) > (owned 2 16 16 [] (pk 1 0 0)).ownMax) ∧
    CapacityFor (ex40 39 (pk 1 0 0)) 0 (39 + 1) ∧ CapacityFor (owned 2 15 15 [] (pk 1 0 0)) 0 (15 + 1) := by
  decide

theorem witness_WAppendWritesBytesAtTheCursor :
    ((ex40 33 (pk 1 0 0 [7])).pkt.payload.length = (ex40 33 (pk 1 0 0 [7])).pkt.a.toNat ∧
      ((ex40 33 (pk 1 0 0 [7])).writer 0).st = .ready ∧
      ((ex40 33 (pk 1 0 0 [7])).writer 0).Sound (ex40 33 (pk 1 0 0 [7])).ownMax ∧ 33 + 8 * 1 > 8 * 5) ∧
    (((ow8 (pk 2 0 0 [7, 8])).writer 0).Sound (ow8 (pk 2 0 0 [7, 8])).ownMax ∧
      ceil8 (5 + 8 * 2) > (ow8 (pk 2 0 0 [7, 8])).ownMax) ∧
    CapacityFor (ex40 32 (pk 1 0 0 [7])) 0 (32 + 8 * 1) ∧
    CapacityFor (ow8 (pk 1 0 0 [7])) 0 (5 + 8 * 1) := by decide

/-- Aligned and not aligned, in both modes. -/
theorem witness_WAlignPadsWithZeros :
    (ow8 (pk 0 0 0)).WriterTakes 0 ∧ (ex40 8 (pk 0 0 0)).WriterTakes 0 ∧
    ((ex40 8 (pk 0 0 0)).writer 0).cur % 8 = 0 := by decide

/-- Each clause of R163 at the boundary: width, position, capacity in both modes, zero width, and
insertion before and at the end. -/
theorem witness_WInsertInsertsTheField :
    ((ow8 (pk 0 9 0)).WriterTakes 0 ∧ 9 > typeBits .w8 ∧
      (ow8 (pk 0 9 0)).pkt.b.toNat > ((ow8 (pk 0 9 0)).writer 0).valid) ∧
    ((ex11 0 (pk 0 11 0)).WriterTakes 0 ∧ 14 ≤ typeBits .w16 ∧
      (ex11 0 (pk 0 11 0)).pkt.b.toNat ≤ ((ex11 0 (pk 0 11 0)).writer 0).valid ∧ 11 + 14 > 8 * 3) ∧
    ((ow8 (pk 0 8 0)).WriterTakes 0 ∧ ceil8 (8 + 9) > (ow8 (pk 0 8 0)).ownMax ∧ 9 ≤ typeBits .w16) ∧
    (CapacityFor (ow8 (pk 0 8 0)) 0 (8 + 0) ∧
      (ow8 (pk 0 8 0)).pkt.b.toNat = ((ow8 (pk 0 8 0)).writer 0).valid) ∧
    CapacityFor (ow8 (pk 0 8 0)) 0 (8 + 8) ∧
    ((ex11 0 (pk 0 0 0)).WriterTakes 0 ∧ CapacityFor (ex11 0 (pk 0 0 0)) 0 (11 + 13) ∧
      (ex11 0 (pk 0 0 0)).pkt.b.toNat < ((ex11 0 (pk 0 0 0)).writer 0).valid) :=
  ⟨by decide, by decide, by decide, by decide, by decide, by decide⟩

theorem witness_WEraseRemovesTheRange :
    ((ow8 (pk 8 1 0)).WriterTakes 0 ∧ (ow8 (pk 8 1 0)).pkt.a.toNat + (ow8 (pk 8 1 0)).pkt.b.toNat > 8) ∧
    ((ow8 (pk 8 0 0)).WriterTakes 0 ∧ (ow8 (pk 8 0 0)).pkt.a.toNat + (ow8 (pk 8 0 0)).pkt.b.toNat ≤ 8) ∧
    ((ow8 (pk 5 3 0)).WriterTakes 0 ∧ (ow8 (pk 5 3 0)).pkt.a.toNat + (ow8 (pk 5 3 0)).pkt.b.toNat ≤ 8) ∧
    ((ex11 4 (pk 0 11 0)).WriterTakes 0 ∧ 0 < (ex11 4 (pk 0 11 0)).pkt.b.toNat) := by decide

/-- An insert before the end and one at the end, and an erase, in both modes, that succeed. -/
theorem witness_InsertAndEraseClosedFormPadding :
    (∃ s t : State, (s.writer 0).PaddingZero ∧ exec (.wInsert 0 .w8 3) s = .next t ∧ t.status = .ok ∧
      (s.writer 0).mode = .owned ∧ s.pkt.b.toNat < (s.writer 0).valid) ∧
    (∃ s t : State, (s.writer 0).PaddingZero ∧ exec (.wInsert 0 .w8 3) s = .next t ∧ t.status = .ok ∧
      (s.writer 0).mode = .external ∧ s.pkt.b.toNat = (s.writer 0).valid) ∧
    (∃ s t : State, 0 < s.pkt.b.toNat ∧ exec (.wErase 0) s = .next t ∧ t.status = .ok ∧
      (s.writer 0).mode = .external) := by
  refine ⟨⟨ow8 (pk 5 5 0), _, ?_, eq_next_of_isNext (by decide), by decide, by decide, by decide⟩,
    ⟨ex11 0 (pk 5 11 0), _, ?_, eq_next_of_isNext (by decide), by decide, by decide, by decide⟩,
    ⟨ex11 0 (pk 0 11 0), _, by decide, eq_next_of_isNext (by decide), by decide, by decide⟩⟩
  · exact ((padding_owned 1 (pk 5 5 0) (by decide)).2 (by decide) _ (by decide) (by decide)).2
  · intro h; exact absurd h (by decide)

/-- The fault and the error one bit past the limit; growing to the limit, no change, shrinking to 0. -/
theorem witness_WResizeSetsTheLength :
    ((ex40 0 (pk 41 0 0)).WriterTakes 0 ∧ ((ex40 0 (pk 41 0 0)).writer 0).mode = .external ∧
      (ex40 0 (pk 41 0 0)).pkt.a.toNat > 8 * ((ex40 0 (pk 41 0 0)).writer 0).cap) ∧
    ((ow8 (pk 17 0 0)).WriterTakes 0 ∧ ((ow8 (pk 17 0 0)).writer 0).mode = .owned ∧
      ceil8 (ow8 (pk 17 0 0)).pkt.a.toNat > (ow8 (pk 17 0 0)).ownMax) ∧
    ((ow8 (pk 16 0 0)).WriterTakes 0 ∧ CapacityFor (ow8 (pk 16 0 0)) 0 16 ∧
      ((ow8 (pk 16 0 0)).writer 0).valid < (ow8 (pk 16 0 0)).pkt.a.toNat) ∧
    (CapacityFor (ow8 (pk 8 0 0)) 0 8 ∧
      (ow8 (pk 8 0 0)).pkt.a.toNat = ((ow8 (pk 8 0 0)).writer 0).valid) ∧
    ((ow8 (pk 7 0 0)).pkt.a.toNat < ((ow8 (pk 7 0 0)).writer 0).valid ∧
      CapacityFor (ow8 (pk 7 0 0)) 0 7) ∧
    ((ex11 11 (pk 0 0 0)).WriterTakes 0 ∧ CapacityFor (ex11 11 (pk 0 0 0)) 0 0 ∧
      (ex11 11 (pk 0 0 0)).pkt.a.toNat < ((ex11 11 (pk 0 0 0)).writer 0).valid) :=
  ⟨by decide, by decide, by decide, by decide, by decide, by decide⟩

theorem witness_WReserveGrowsOwnedCapacity :
    ((ex40 0 (pk 1 0 0)).WriterTakes 0 ∧ ((ex40 0 (pk 1 0 0)).writer 0).mode = .external) ∧
    ((ow8 (pk 17 0 0)).WriterTakes 0 ∧ ((ow8 (pk 17 0 0)).writer 0).mode = .owned ∧
      ceil8 (ow8 (pk 17 0 0)).pkt.a.toNat > (ow8 (pk 17 0 0)).ownMax) ∧
    ((ow8 (pk 16 0 0)).WriterTakes 0 ∧ ceil8 (ow8 (pk 16 0 0)).pkt.a.toNat ≤ (ow8 (pk 16 0 0)).ownMax) := by
  decide

/-- Targets -1, 0, VALID and VALID + 1, from each origin. -/
theorem witness_SeekMovesTheCursor :
    ((ow8 (pk (2 ^ 64 - 1) 0 0)).WriterTakes 0 ∧
      ((0 : Nat) : Int) + (ow8 (pk (2 ^ 64 - 1) 0 0)).pkt.a.toInt < 0) ∧
    (((5 : Nat) : Int) + (ow8 (pk (2 ^ 64 - 5) 0 0)).pkt.a.toInt = 0 ∧
      ((ow8 (pk (2 ^ 64 - 5) 0 0)).writer 0).cur = 5) ∧
    (((8 : Nat) : Int) + (ow8 (pk 0 0 0)).pkt.a.toInt = ((ow8 (pk 0 0 0)).writer 0).valid) ∧
    ((rdr 2 11 3 [] (pk 1 0 0)).ReaderTakes 0 ∧
      ((11 : Nat) : Int) + (rdr 2 11 3 [] (pk 1 0 0)).pkt.a.toInt >
        ((rdr 2 11 3 [] (pk 1 0 0)).reader 0).valid) := by decide

theorem witness_WriterAccessorsAnswer :
    (ow8 (pk 0 0 0)).WriterTakes 0 ∧ (ex40 40 (pk 0 0 0)).WriterTakes 0 := by decide

theorem witness_ReaderAccessorsAnswer :
    (rdr 2 11 11 []).ReaderTakes 0 ∧ (rdr 2 11 0 []).ReaderTakes 0 := by decide

theorem witness_WCopyAnswersTheValidBytes :
    ((ex40 0 (pk 0 0 0)).WriterTakes 0 ∧ ((ex40 0 (pk 0 0 0)).writer 0).mode = .external) ∧
    ((ow8 (pk 0 0 0)).WriterTakes 0 ∧ ((ow8 (pk 0 0 0)).writer 0).mode = .owned) := by decide

theorem witness_DumpsAnswerOneCharacterPerBit :
    (ow8 (pk 0 0 0)).WriterTakes 0 ∧ (ex11 0 (pk 0 0 0)).WriterTakes 0 ∧
    (rdr 2 11 3 [(0x1000, 0xF5)]).ReaderTakes 0 := by decide

/-- At the end of the data, one bit too many, too wide, and the widest that fits. -/
theorem witness_RReaduReadsUnsigned :
    (rdr 2 11 11 []).ReaderTakes 0 ∧ (12 > ((rdr 2 11 0 []).reader 0).valid - ((rdr 2 11 0 []).reader 0).cur) ∧
    (9 ≤ ((rdr 2 11 0 []).reader 0).valid - ((rdr 2 11 0 []).reader 0).cur ∧ 9 > typeBits .w8) ∧
    ((rdr 8 64 0 []).ReaderTakes 0 ∧ 64 ≤ typeBits .w64 ∧
      64 ≤ ((rdr 8 64 0 []).reader 0).valid - ((rdr 8 64 0 []).reader 0).cur) := by decide

theorem witness_RReadsReadsSigned :
    (rdr 2 11 11 []).ReaderTakes 0 ∧ (12 > ((rdr 2 11 0 []).reader 0).valid - ((rdr 2 11 0 []).reader 0).cur) ∧
    (9 ≤ ((rdr 2 11 0 []).reader 0).valid - ((rdr 2 11 0 []).reader 0).cur ∧ 9 > typeBits .w8) ∧
    ((rdr 1 1 0 [(0x1000, 0x80)]).ReaderTakes 0 ∧ 1 ≤ typeBits .w8 ∧
      1 ≤ ((rdr 1 1 0 []).reader 0).valid - ((rdr 1 1 0 []).reader 0).cur) := by decide

/-- An external writer and a reader over the same five bytes: 13 bits at cursor 5. -/
theorem witness_WriteThenReadRoundTrips :
    ∃ s t s' : State, 13 ≤ typeBits .w16 ∧ exec (.wWrite 0 .w16 13) s = .next t ∧ t.status = .ok ∧
      s'.ReaderTakes 0 ∧ (s'.reader 0).cur = (s.writer 0).cur ∧
      (s.writer 0).cur + 13 ≤ (s'.reader 0).valid ∧
      ∀ k, (s.writer 0).cur / 8 ≤ k → 8 * k < (s.writer 0).cur + 13 →
        (s'.readerView 0).byte k = (t.writerView 0).byte k := by
  refine ⟨ex40 5 (pk 0x1234 0 0), _,
    rdr 5 40 5 (nextOf (exec (.wWrite 0 .w16 13) (ex40 5 (pk 0x1234 0 0)))).xmem, by decide,
    eq_next_of_isNext (by decide), by decide, by decide, by decide, by decide, ?_⟩
  intro k _ hk
  have hk' : k < 3 := by
    have h : ((ex40 5 (pk 0x1234 0 0)).writer 0).cur = 5 := by decide
    omega
  interval_cases k <;> decide

theorem witness_EraseUndoesInsert :
    ∃ (s t : State) (p : Packet), s.ParametersOk ∧ 3 < 128 ∧ exec (.wInsert 0 .w8 3) s = .next t ∧
      t.status = .ok ∧ p.a = s.pkt.b ∧ p.b = BitVec.ofNat 64 3 ∧ p.payload = [] :=
  ⟨ex11 7 (pk 5 5 0), _, pk 5 3 0, by decide, by decide, eq_next_of_isNext (by decide), by decide,
    by decide, by decide, by decide⟩

theorem witness_GrowThenShrinkKeepsThePrefix :
    ∃ (s t t' : State) (p : Packet), exec (.wResize 0) s = .next t ∧ t.status = .ok ∧
      (s.writer 0).valid ≤ s.pkt.a.toNat ∧ p.a.toNat ≤ (s.writer 0).valid ∧
      exec (.wResize 0) { t with pkt := p } = .next t' ∧ t'.status = .ok :=
  ⟨ow8 (pk 16 0 0), _, _, pk 8 0 0, eq_next_of_isNext (by decide), by decide, by decide, by decide,
    eq_next_of_isNext (by decide), by decide⟩

theorem witness_RaiseRecordsTheFailure : Cause.unitFaulted ≠ .noCause := by decide

/-- W.TELL of an UNBOUND writer. -/
theorem witness_ErrorsArePrecise :
    ∃ (s t : State) (p : Packet) (rest : List HostAct), s.host = .command p :: rest ∧
      step s = .next t ∧ t.status ≠ .ok ∧ t.status ≠ .resizeFault :=
  ⟨present (fresh (pk 0 0 0)) 0x19, _, _, _, rfl, eq_next_of_isNext (by decide), by decide, by decide⟩

theorem witness_ResizeFaultAndTheFaultedUnit :
    (∃ s t : State, exec (.wResize 0) s = .next t ∧ t.status = .resizeFault) ∧
    (0 < (broken (ex40 0 (pk 0 0 0))).nw ∧
      payloadFits (.wFree 0) (broken (ex40 0 (pk 0 0 0))).pkt = true ∧
      ((broken (ex40 0 (pk 0 0 0))).writer 0).st = .faulted) ∧
    isNext (step (present (broken (ex40 0 (pk 0 0 0))) 0x03)) = true ∧
    isNext (exec (.rTell 0) (fresh (pk 0 0 0))) = true :=
  ⟨⟨ex40 0 (pk 41 0 0), _, eq_next_of_isNext (by decide), by decide⟩, by decide, by decide, by decide⟩

/-- One packet for each check of R101. -/
theorem witness_DecodeChecksComeInOrder :
    bitSlice 0x00800019#32 23 9 ≠ 0 ∧
    (bitSlice 0x0000001F#32 23 9 = 0 ∧
      ¬ ∃ row ∈ opcodeMap, bitSlice row.pattern 0 8 = bitSlice 0x0000001F#32 0 8) ∧
    (bitSlice 0x00001019#32 23 9 = 0 ∧
      (∃ row ∈ opcodeMap, bitSlice row.pattern 0 8 = bitSlice 0x00001019#32 0 8) ∧
      ¬ ∃ row ∈ opcodeMap, 0x00001019#32 &&& row.mask = row.pattern) ∧
    (decodeWord 0x00000119#32 = .ok (.wTell 1) ∧ ¬ 1 < (fresh (pk 0 0 0)).nw) ∧
    (decodeWord 0x00000012#32 = .ok (.wAppend 0) ∧ 0 < (fresh (pk 0 0 0)).nw ∧
      payloadFits (.wAppend 0) (pk 1 0 0 []) = false) ∧
    (payloadFits (.wTell 0) (pk 0 0 0) = true ∧
      ((broken (ex40 0 (pk 0 0 0))).writer 0).st = .faulted) ∧
    (decodeWord 0x00000033#32 = .ok (.rTell 0) ∧ 0 < (fresh (pk 0 0 0)).nr ∧
      ((fresh (pk 0 0 0)).reader 0).st = .unbound ∧ constructs (.rTell 0) = false) ∧
    (((ow8 (pk 0 0 0)).writer 0).st = .ready ∧ constructs (.wInito 0) = true) := by decide

/-- A failing command, and a reset, from a state whose ERRLOG holds a bit. -/
theorem witness_ErrlogIsSticky :
    (∃ (s t : State) (p : Packet) (rest : List HostAct), s.host = .command p :: rest ∧
      step s = .next t ∧ s.errlog.getLsbD 3 = true ∧ (∀ r, s.host ≠ .reset :: r) ∧
      ∀ q r, s.host ≠ .resetDuring q :: r) ∧
    ∃ (s : State) (rest : List HostAct), s.host = .reset :: rest := by
  refine ⟨⟨present (State.reset.raise .seekBeyond) 0x19, _, _, _, rfl, eq_next_of_isNext (by decide),
    by decide, ?_, ?_⟩, { State.reset with host := [.reset] }, [], rfl⟩
  · intro r h; injection h with h; cases h
  · intro q r h; injection h with h; cases h

theorem witness_OneResponsePerCommand :
    (∃ (s t : State) (p : Packet) (rest : List HostAct), step s = .next t ∧
      s.host = .command p :: rest) ∧
    (∃ s t : State, step s = .next t ∧ ∀ p rest, s.host ≠ .command p :: rest) ∧
    ∃ s t : State, step s = .next t ∧ s.responses ≠ [] ∧ ∃ p rest, s.host = .resetDuring p :: rest :=
  ⟨⟨present (fresh (pk 0 0 0)) 0, _, _, _, eq_next_of_isNext (by decide), rfl⟩,
    ⟨State.reset, _, rfl, fun _ _ h => by cases h⟩,
    cutShort (State.reset.raise .illUnit) 0x19, _, rfl, by decide, _, _, rfl⟩

theorem witness_DoutOnlyFromCopyAndDumps :
    ∃ (s t : State) (p : Packet) (rest : List HostAct), s.host = .command p :: rest ∧
      step s = .next t ∧ t.dout ≠ [] :=
  ⟨present (ow8 (pk 0 0 0)) 0x1E, _, _, _, rfl, eq_next_of_isNext (by decide), by decide⟩

theorem witness_CausesPerCommand : ∃ s t : State, exec (.wErase 0) s = .next t :=
  ⟨ow8 (pk 8 1 0), _, eq_next_of_isNext (by decide)⟩

theorem witness_BindingIsFixedForALifetime :
    ∃ s t : State, step s = .next t ∧ (∀ r, s.host ≠ .reset :: r) ∧
      (∀ q r, s.host ≠ .resetDuring q :: r) ∧ (s.writer 0).st ≠ .unbound ∧ (t.writer 0).st ≠ .unbound ∧
      (s.writer 0).mode = .external := by
  refine ⟨present (ex11 0 (pk 0 0 0)) 0x15 (pk 3 0 0), _, eq_next_of_isNext (by decide), ?_, ?_,
    by decide, by decide, by decide⟩
  · intro r h; injection h with h; cases h
  · intro q r h; injection h with h; cases h

/-- The reader's part: a read from a READY reader. -/
theorem witness_BindingIsFixedForALifetime_reader :
    ∃ s t : State, step s = .next t ∧ (s.reader 0).st = .ready ∧ (t.reader 0).st = .ready :=
  ⟨present (rdr 2 11 0 [(0x1000, 0xF5)]) 0x00050030, _, eq_next_of_isNext (by decide), by decide,
    by decide⟩

theorem witness_CommandsStayInTheirUnitAndRegion :
    (∃ s t : State, exec (.wWbit 0) s = .next t ∧ (s.writer 0).mode = .owned) ∧
    (∃ s t : State, exec (.wResize 0) s = .next t ∧ (s.writer 0).mode = .external) ∧
    ∃ s t : State, exec (.rTell 0) s = .next t :=
  ⟨⟨ow8 (pk 1 0 0), _, eq_next_of_isNext (by decide), by decide⟩,
    ⟨ex40 0 (pk 3 0 0), _, eq_next_of_isNext (by decide), by decide⟩,
    ⟨rdr 2 11 3 [], _, eq_next_of_isNext (by decide)⟩⟩

/-- Packets that differ in the unused bits of A and in B and C. -/
theorem witness_UnusedOperandsAreIgnored :
    operandsAgree (.wWrite 0 .w8 3) (pk 5 1 2) (pk 0xFFFFFFFFFFFFFFFD 3 4) ∧ pk 5 1 2 ≠ pk 13 3 4 := by
  refine ⟨⟨rfl, ?_⟩, by decide⟩
  show ∀ j, j < 3 → (pk 5 1 2).a.getLsbD j = (pk 0xFFFFFFFFFFFFFFFD 3 4).a.getLsbD j
  decide

/-- The owned writer of one byte, and the same with a second byte of capacity. -/
theorem witness_OwnedCapacityIsHidden :
    ∃ s t : State,
      let s' := s.setWriter 0 { s.writer 0 with cap := 2 }
      0 < s.nw ∧ (s.writer 0).st = .ready ∧ (s.writer 0).mode = .owned ∧ s ≠ s' ∧
      s.UnitsSound ∧ s'.UnitsSound ∧ s.StoragePadded ∧ s'.StoragePadded ∧ s.MemoriesCanonical ∧
      exec (.wInsert 0 .w8 3) s = .next t := by
  refine ⟨ow8 (pk 5 5 0), _, by decide, by decide, by decide, by decide, by decide, by decide,
    (padding_owned 1 _ (by decide)).2 (by decide), ?_, ?_, eq_next_of_isNext (by decide)⟩
  · exact (padding_owned 2 (pk 5 5 0) (by decide)).2 (by decide)
  · unfold State.MemoriesCanonical; decide

end Sys2Proof.Tests
end

section
/-! SUPPORT. The bit-level effect of the write primitive (20_memory R70, R71): which bits of a storage
PutChunk changes. -/
namespace Sys2Proof.Machine

theorem getLsbD_mask (w k j : Nat) : (mask w k).getLsbD j = (decide (j < w) && decide (j < k)) := by
  simp [mask, BitVec.getLsbD_ofNat, Nat.testBit_two_pow_sub_one]

/-- A value below 2^k has no bit at or above position k. -/
theorem getLsbD_eq_false_of_toNat_lt {w : Nat} (x : BitVec w) (k j : Nat) (h : x.toNat < 2 ^ k)
    (hj : k ≤ j) : x.getLsbD j = false :=
  Nat.testBit_lt_two_pow (Nat.lt_of_lt_of_le h (Nat.pow_le_pow_right (by decide) hj))

/-- `insertChunk` replaces exactly the k bits from `sh` on (20_memory R71). -/
theorem getLsbD_insertChunk {w : Nat} (win : BitVec w) (v : Byte) (k sh j : Nat)
    (hv : v.toNat < 2 ^ k) (hj : j < w) (hk : k ≤ w) :
    (insertChunk win v k sh).getLsbD j =
      if sh ≤ j ∧ j < sh + k then v.getLsbD (j - sh) else win.getLsbD j := by
  have hhigh : k ≤ j - sh → v.getLsbD (j - sh) = false :=
    getLsbD_eq_false_of_toNat_lt v k _ hv
  simp only [insertChunk, BitVec.getLsbD_or, BitVec.getLsbD_and, BitVec.getLsbD_not,
    BitVec.getLsbD_shiftLeft, BitVec.getLsbD_setWidth, getLsbD_mask]
  by_cases hlo : j < sh
  · simp [hlo, hj, Nat.not_le.2 hlo]
  · by_cases hin : j - sh < k
    · have hw : j - sh < w := by omega
      simp [hlo, hj, hin, hw, show sh ≤ j ∧ j < sh + k by omega]
    · simp [hlo, hj, hin, hhigh (by omega), show ¬(sh ≤ j ∧ j < sh + k) by omega]

theorem getLsbD_windowOf (hi lo : Byte) (j : Nat) :
    (windowOf hi lo).getLsbD j = if j < 8 then lo.getLsbD j else hi.getLsbD (j - 8) := by
  unfold windowOf
  by_cases h : j < 8
  · simp [h, show j < 16 by omega]
  · have hlo : lo.getLsbD j = false := BitVec.getLsbD_of_ge _ _ (by omega)
    by_cases h16 : j < 16
    · simp [h, h16, hlo]
    · simp [h, h16, BitVec.getLsbD_of_ge hi (j - 8) (by omega)]

theorem getLsbD_windowHi (x : BitVec 16) (j : Nat) (h : j < 8) :
    (windowHi x).getLsbD j = x.getLsbD (j + 8) := by
  simp [windowHi, h, Nat.add_comm]

theorem getLsbD_windowLo (x : BitVec 16) (j : Nat) (h : j < 8) :
    (windowLo x).getLsbD j = x.getLsbD j := by
  simp [windowLo, h]

/-- One bit of a storage after a byte write. -/
theorem WriterView.bitAt_setByte (v : WriterView) (k i : Nat) (b : Byte) :
    bitAt (v.setByte k b).byte i = if i / 8 = k then b.getLsbD (7 - i % 8) else bitAt v.byte i := by
  unfold bitAt
  rw [WriterView.byte_setByte]
  split <;> rfl

/-- PutChunk writes bits c .. c+k-1 and no other (20_memory R70). -/
theorem bitAt_putChunk (v : WriterView) (chunk : Byte) (k i : Nat) (hk : k ≤ 8)
    (hc : chunk.toNat < 2 ^ k) :
    bitAt (putChunk v chunk k).byte i =
      if v.unit.cur ≤ i ∧ i < v.unit.cur + k then chunk.getLsbD (v.unit.cur + k - 1 - i)
      else bitAt v.byte i := by
  unfold putChunk
  generalize hcur : v.unit.cur = c
  by_cases hfit : c % 8 + k ≤ 8
  · simp only [hfit, if_true, WriterView.byte_advance, WriterView.bitAt_setByte,
      getLsbD_insertChunk _ _ _ _ _ hc (show 7 - i % 8 < 8 by omega) hk]
    by_cases hbyte : i / 8 = c / 8
    · by_cases hin : c ≤ i ∧ i < c + k
      · rw [if_pos hbyte, if_pos (by omega), if_pos hin]
        congr 1; omega
      · rw [if_pos hbyte, if_neg (by omega), if_neg hin, ← hbyte]; rfl
    · rw [if_neg hbyte, if_neg (by omega)]
  · simp only [hfit, if_false, WriterView.byte_advance, WriterView.bitAt_setByte,
      getLsbD_windowHi _ _ (show 7 - i % 8 < 8 by omega),
      getLsbD_windowLo _ _ (show 7 - i % 8 < 8 by omega),
      getLsbD_insertChunk _ _ _ _ _ hc (show 7 - i % 8 < 16 by omega) (show k ≤ 16 by omega),
      getLsbD_insertChunk _ _ _ _ _ hc (show 7 - i % 8 + 8 < 16 by omega) (show k ≤ 16 by omega),
      getLsbD_windowOf]
    by_cases hsnd : i / 8 = c / 8 + 1
    · rw [if_pos hsnd, if_pos (show 7 - i % 8 < 8 by omega)]
      by_cases hin : c ≤ i ∧ i < c + k
      · rw [if_pos (by omega), if_pos hin]
        congr 1; omega
      · rw [if_neg (by omega), if_neg hin, ← hsnd]; rfl
    · rw [if_neg hsnd]
      by_cases hfst : i / 8 = c / 8
      · rw [if_pos hfst, if_neg (show ¬ 7 - i % 8 + 8 < 8 by omega), Nat.add_sub_cancel]
        by_cases hin : c ≤ i ∧ i < c + k
        · rw [if_pos (by omega), if_pos hin]
          congr 1; omega
        · rw [if_neg (by omega), if_neg hin, ← hfst]; rfl
      · rw [if_neg hfst, if_neg (by omega)]

end Sys2Proof.Machine
end

section
/-! SUPPORT. Every storing procedure is a run of PutChunks (41 R140, 42 R162): what such a run does to
the registers, to the memories and to the bits it does not cover. -/
namespace Sys2Proof.Machine

/-- `w` is `v` after a run of PutChunks of `n` bits in all, each of 1 to 8 bits. -/
inductive Puts : Nat → WriterView → WriterView → Prop
  | nil (v : WriterView) : Puts 0 v v
  | cons {v w : WriterView} {n : Nat} (chunk : Byte) (k : Nat) (hpos : 1 ≤ k) (hle : k ≤ 8)
      (hfit : chunk.toNat < 2 ^ k) (rest : Puts n (putChunk v chunk k) w) : Puts (k + n) v w

theorem Puts.trans {m n : Nat} {u v w : WriterView} (h : Puts m u v) (g : Puts n v w) :
    Puts (m + n) u w := by
  induction h with
  | nil => simpa using g
  | cons chunk k hpos hle hfit _ ih => rw [Nat.add_assoc]; exact .cons chunk k hpos hle hfit (ih g)

theorem Puts.cur {n : Nat} {v w : WriterView} (h : Puts n v w) : w.unit.cur = v.unit.cur + n := by
  induction h with
  | nil => rfl
  | cons chunk k _ _ _ _ ih => rw [ih, putChunk_cur, Nat.add_assoc]

theorem Puts.cap {n : Nat} {v w : WriterView} (h : Puts n v w) : w.unit.cap = v.unit.cap := by
  induction h with
  | nil => rfl
  | cons chunk k _ _ _ _ ih => rw [ih, putChunk_cap]

theorem Puts.valid {n : Nat} {v w : WriterView} (h : Puts n v w) (hc : v.unit.cur ≤ v.unit.valid) :
    w.unit.valid = max v.unit.valid (v.unit.cur + n) := by
  induction h with
  | nil => exact (Nat.max_eq_left hc).symm
  | cons chunk k _ _ _ _ ih =>
    rw [ih (by rw [putChunk_cur, putChunk_valid]; exact Nat.le_max_right _ _),
      putChunk_cur, putChunk_valid]
    omega

/-- A run of PutChunks changes no bit outside the span it covers. -/
theorem Puts.bitAt_outside {n : Nat} {v w : WriterView} (h : Puts n v w) (i : Nat)
    (hi : i < v.unit.cur ∨ v.unit.cur + n ≤ i) : bitAt w.byte i = bitAt v.byte i := by
  induction h with
  | nil => rfl
  | cons chunk k _ hle hfit _ ih =>
    rw [ih (by rw [putChunk_cur]; omega), bitAt_putChunk _ _ _ _ hle hfit, if_neg (by omega)]

/-! ### The storing procedures are runs of PutChunks -/

theorem toNat_and_mask_lt (x : Byte) (k : Nat) : (x &&& mask 8 k).toNat < 2 ^ k := by
  have hpos : 0 < 2 ^ k := Nat.two_pow_pos k
  calc (x &&& mask 8 k).toNat ≤ (mask 8 k).toNat := by
        rw [BitVec.toNat_and]; exact Nat.and_le_right
    _ ≤ 2 ^ k - 1 := by rw [mask, BitVec.toNat_ofNat]; exact Nat.mod_le _ _
    _ < 2 ^ k := by omega

theorem puts_writeWholeBytes (value : Word) (q : Nat) :
    ∀ v : WriterView, Puts (8 * q) v (writeWholeBytes v value q) := by
  induction q with
  | zero => exact fun v => .nil v
  | succ q ih =>
    intro v
    rw [Nat.mul_succ, Nat.add_comm]
    exact .cons _ 8 (by decide) (by decide) (BitVec.isLt _) (ih _)

/-- WriteField is a run of `n` bits (41 R140). -/
theorem puts_writeField (v : WriterView) (value : Word) (n : Nat) :
    Puts n v (writeField v value n) := by
  have hsplit : n % 8 + 8 * (n / 8) = n := Nat.mod_add_div n 8
  unfold writeField
  by_cases h : n % 8 > 0
  · simp only [h, if_true]
    have hrun := Puts.cons (v := v) _ (n % 8) h (by omega)
      (toNat_and_mask_lt ((value >>> (8 * (n / 8))).setWidth 8) (n % 8))
      (puts_writeWholeBytes value (n / 8) _)
    rwa [hsplit] at hrun
  · simp only [h, if_false]
    have hrun := puts_writeWholeBytes value (n / 8) v
    rwa [show 8 * (n / 8) = n by omega] at hrun

/-- The bytes of W.APPEND are a run of 8 bits each (41 R144). -/
theorem puts_appendBytes (bytes : List Byte) :
    ∀ v : WriterView, Puts (8 * bytes.length) v (appendBytes v bytes) := by
  induction bytes with
  | nil => exact fun v => .nil v
  | cons b bytes ih =>
    intro v
    have hrun := (puts_writeField v (b.setWidth 64) 8).trans (ih (writeField v (b.setWidth 64) 8))
    have hlen : 8 + 8 * bytes.length = 8 * (b :: bytes).length := by rw [List.length_cons]; omega
    rwa [hlen] at hrun

theorem toNat_ofNat_bitsVal_lt (s : BitString) :
    (BitVec.ofNat 8 (bitsVal s)).toNat < 2 ^ s.length := by
  rw [BitVec.toNat_ofNat]
  exact Nat.lt_of_le_of_lt (Nat.mod_le _ _) (bitsVal_lt s)

theorem puts_writeGroups (n : Nat) : ∀ (v : WriterView) (s : BitString), s.length ≤ n →
    Puts s.length v (writeGroups n v s) := by
  induction n with
  | zero =>
    intro v s hs
    rw [Nat.le_zero.1 hs]
    exact .nil v
  | succ n ih =>
    intro v s hs
    cases s with
    | nil => exact .nil v
    | cons b s =>
      have hlen : ((b :: s).take 8).length + ((b :: s).drop 8).length = (b :: s).length := by
        rw [← List.length_append, List.take_append_drop]
      have htake : ((b :: s).take 8).length = min 8 (b :: s).length := List.length_take
      have hcons : (b :: s).length = s.length + 1 := List.length_cons
      rw [← hlen]
      exact .cons _ _ (by omega) (by omega) (toNat_ofNat_bitsVal_lt _) (ih _ _ (by omega))

/-- TailWrite is a run from the end of the valid content (42 R162). -/
theorem puts_tailWrite (v : WriterView) (s : BitString) :
    Puts s.length (v.setCur v.unit.valid) (tailWrite v s) :=
  puts_writeGroups _ _ _ (Nat.le_refl _)

theorem tailWrite_cur (v : WriterView) (s : BitString) :
    (tailWrite v s).unit.cur = v.unit.valid + s.length :=
  (puts_tailWrite v s).cur

theorem tailWrite_valid (v : WriterView) (s : BitString) :
    (tailWrite v s).unit.valid = v.unit.valid + s.length := by
  rw [(puts_tailWrite v s).valid (Nat.le_refl _)]
  exact Nat.max_eq_right (Nat.le_add_right _ _)

/-- TailWrite leaves the cursor at the end, where the next TailWrite begins. -/
theorem tailWrite_setCur_valid (v : WriterView) (s : BitString) :
    (tailWrite v s).setCur (tailWrite v s).unit.valid = tailWrite v s := by
  rw [tailWrite_valid, ← tailWrite_cur]; rfl

end Sys2Proof.Machine
end

section
/-! SUPPORT. Truncate in each mode, and the bits its last byte keeps (42 R161). -/
namespace Sys2Proof.Machine

theorem truncateTo_valid_self (v : WriterView) : truncateTo v v.unit.valid = v := if_pos rfl

theorem maskLastByte_mode (v : WriterView) (len : Nat) :
    (maskLastByte v len).unit.mode = v.unit.mode :=
  (sameStorage_maskLastByte v len).1.mode

theorem truncateTo_owned (v : WriterView) (len : Nat) (ho : v.unit.mode = .owned)
    (hne : len ≠ v.unit.valid) :
    truncateTo v len = ((maskLastByte v len).setOwnedCap (ceil8 len)).setValid len := by
  simp only [truncateTo, if_neg hne, dropTail, maskLastByte_mode, ho]

theorem truncateTo_external (v : WriterView) (len : Nat) (he : v.unit.mode = .external)
    (hne : len ≠ v.unit.valid) :
    truncateTo v len = (zeroBytes (maskLastByte v len) (ceil8 len)
      (ceil8 v.unit.valid - ceil8 len)).setValid len := by
  simp only [truncateTo, if_neg hne, dropTail, maskLastByte_mode, he]

/-- Truncate leaves room for what it keeps, and never enlarges the storage. -/
theorem truncateTo_cap (v : WriterView) (len : Nat) (hlen : len ≤ v.unit.valid)
    (hfits : v.unit.valid ≤ 8 * v.unit.cap) :
    len ≤ 8 * (truncateTo v len).unit.cap ∧ (truncateTo v len).unit.cap ≤ v.unit.cap := by
  have hu := (sameStorage_maskLastByte v len).2
  by_cases hne : len = v.unit.valid
  · rw [hne, truncateTo_valid_self]; exact ⟨hfits, Nat.le_refl _⟩
  · cases hm : v.unit.mode
    · rw [truncateTo_owned v len hm hne, WriterView.setValid_cap, WriterView.setOwnedCap_cap]
      exact ⟨le_ceil8 len, (ceil8_le_iff _ _).2 (by omega)⟩
    · rw [truncateTo_external v len hm hne, WriterView.setValid_cap, (zeroBytes_spec _ _ _).2.1, hu]
      exact ⟨Nat.le_trans hlen hfits, Nat.le_refl _⟩

theorem getLsbD_lastByteMask (r j : Nat) (hj : j < 8) :
    (0xFF#8 <<< (8 - r)).getLsbD j = decide (8 - r ≤ j) := by
  have h8 : j - (8 - r) < 8 := by omega
  have hff : (0xFF#8).getLsbD (j - (8 - r)) = true := by
    rw [show (0xFF#8) = BitVec.allOnes 8 from rfl, BitVec.getLsbD_allOnes]; simpa using h8
  simp only [BitVec.getLsbD_shiftLeft, hff, hj, decide_true, Bool.true_and, Bool.and_true,
    ← decide_not, Nat.not_lt]

/-- The mask clears the bits from `len` on in the last retained byte, and no other. -/
theorem bitAt_maskLastByte (v : WriterView) (len i : Nat) :
    bitAt (maskLastByte v len).byte i =
      if len ≤ i ∧ i < 8 * ceil8 len then false else bitAt v.byte i := by
  unfold maskLastByte ceil8
  by_cases h0 : len % 8 = 0
  · rw [if_pos h0, if_neg (by omega)]
  · rw [if_neg h0, WriterView.bitAt_setByte]
    by_cases hb : i / 8 = len / 8
    · rw [if_pos hb, BitVec.getLsbD_and,
        getLsbD_lastByteMask _ _ (show 7 - i % 8 < 8 by omega), ← hb]
      by_cases hin : len ≤ i
      · rw [if_pos (by omega), decide_eq_false (by omega), Bool.and_false]
      · rw [if_neg (by omega), decide_eq_true (by omega), Bool.and_true]; rfl
    · rw [if_neg hb, if_neg (by omega)]

end Sys2Proof.Machine
end

section
/-! SUPPORT. What a rule of a READY writer may do to its unit and storage, as a path of elementary
changes, each of which keeps the register invariants (10_state R25) and the storage invariants (R27,
R28). -/
namespace Sys2Proof.Machine

/-- An elementary change of a writer whose storage may hold `own` owned bytes. -/
inductive WriterChange (own : Nat) (v : WriterView) : WriterView → Prop
  /-- The cursor moves within the valid content. -/
  | setCur (c : Nat) (h : c ≤ v.unit.valid) : WriterChange own v (v.setCur c)
  /-- A chunk is put where the capacity holds it (20_memory R70). -/
  | put (chunk : Byte) (k : Nat) (hpos : 1 ≤ k) (hle : k ≤ 8) (hfit : chunk.toNat < 2 ^ k)
      (hroom : v.unit.cur + k ≤ 8 * v.unit.cap) : WriterChange own v (putChunk v chunk k)
  /-- Owned storage grows (41 R143). -/
  | grow (n : Nat) (ho : v.unit.mode = .owned) (hn : n ≤ own) : WriterChange own v (growOwned v n)
  /-- The content is truncated, with the cursor at its new end (42 R161). -/
  | cut (len : Nat) (h : len ≤ v.unit.valid) : WriterChange own v ((truncateTo v len).setCur len)
  /-- The unit is released (40 R122). -/
  | free : WriterChange own v { v with unit := v.unit.freed }

/-- `w` is reached from `v` by elementary changes. -/
abbrev WriterPath (own : Nat) : WriterView → WriterView → Prop :=
  Relation.ReflTransGen (WriterChange own)

/-! ### The register invariants -/

/-- Soundness only reads the mode, the base and the three counters. -/
theorem sound_of_sameStorage {own : Nat} {v w : WriterView} (hs : SameStorage v w)
    (hv : v.unit.Sound own) (hcur : w.unit.cur ≤ w.unit.valid)
    (hvalid : w.unit.valid ≤ 8 * w.unit.cap) (hcap : w.unit.cap ≤ v.unit.cap) :
    w.unit.Sound own := by
  obtain ⟨-, -, hmax, hext, hown⟩ := hv
  refine ⟨hcur, hvalid, Nat.le_trans hcap hmax, fun he => ?_, fun ho => ?_⟩
  · have := hext (hs.mode.symm.trans he)
    rw [hs.base]; omega
  · obtain ⟨hle, hbase⟩ := hown (hs.mode.symm.trans ho)
    exact ⟨Nat.le_trans hcap hle, hs.base.trans hbase⟩

theorem WriterChange.sound {own : Nat} {v w : WriterView} (h : WriterChange own v w)
    (hmax : own ≤ Config.extMaxBytes) (hv : v.unit.Sound own) : w.unit.Sound own := by
  have ⟨hcur, hvalid, hcap, _, hown⟩ := hv
  cases h with
  | setCur c h => exact sound_of_sameStorage (sameStorage_setCur v c) hv h hvalid (Nat.le_refl _)
  | put chunk k _ _ _ hroom =>
    refine sound_of_sameStorage (sameStorage_putChunk v chunk k) hv ?_ ?_ ?_
    all_goals simp only [putChunk_cur, putChunk_valid, putChunk_cap]
    all_goals omega
  | grow n ho hn =>
    obtain ⟨hs, hgcap, hgvalid, hgcur, -⟩ := growOwned_spec v n ho
    obtain ⟨hle, hbase⟩ := hown ho
    refine ⟨by rw [hgcur, hgvalid]; exact hcur, by rw [hgvalid, hgcap]; omega,
      by rw [hgcap]; omega, fun he => ?_, fun _ => ⟨by rw [hgcap]; omega, hs.base.trans hbase⟩⟩
    rw [hs.mode, ho] at he; cases he
  | cut len h =>
    obtain ⟨hs, htvalid, -⟩ := sameStorage_truncateTo v len
    obtain ⟨hroom, hle⟩ := truncateTo_cap v len h hvalid
    exact sound_of_sameStorage (hs.trans (sameStorage_setCur _ len)) hv (Nat.le_of_eq htvalid.symm)
      (by rw [WriterView.setCur_valid, htvalid]; exact hroom) hle
  | free => exact hv

theorem WriterPath.sound {own : Nat} {v w : WriterView} (h : WriterPath own v w)
    (hmax : own ≤ Config.extMaxBytes) (hv : v.unit.Sound own) : w.unit.Sound own := by
  induction h with
  | refl => exact hv
  | tail _ hstep ih => exact hstep.sound hmax ih

/-! ### The storage invariants -/

/-- The storage invariants of one writer (10_state R27, R28). -/
abbrev Writer.Padded (x : Writer) : Prop := x.OwnedInside ∧ x.PaddingZero

/-- An external writer is padded when it holds no owned byte. -/
theorem Writer.padded_external {x : Writer} (he : x.mode = .external) : x.Padded ↔ x.omem = [] := by
  constructor
  · exact fun ⟨⟨_, hnil⟩, _⟩ => hnil he
  · refine fun hnil => ⟨⟨fun ho => ?_, fun _ => hnil⟩, fun ho => ?_⟩ <;>
      (rw [he] at ho; cases ho)

theorem Writer.padded_of_omem_nil {x : Writer} (h : x.omem = []) : x.Padded := by
  refine ⟨⟨fun _ => ?_, fun _ => h⟩, fun _ i _ _ => ?_⟩ <;> rw [h]
  · exact fun cell hcell => absurd hcell List.not_mem_nil
  · simp [bitAt]

/-- An owned writer is padded when every listed byte is below CAP and every bit from VALID on is 0; the
bound `8 * CAP` of R28 is then no restriction. -/
theorem WriterView.padded_owned {v : WriterView} (ho : v.unit.mode = .owned) :
    v.unit.Padded ↔ (∀ cell ∈ v.unit.omem, cell.1 < v.unit.cap) ∧
      ∀ i, v.unit.valid ≤ i → bitAt v.byte i = false := by
  have hbyte : v.byte = v.unit.omem.read := by unfold WriterView.byte; rw [ho]
  rw [hbyte]
  constructor
  · intro ⟨⟨hin, _⟩, hzero⟩
    refine ⟨hin ho, fun i hi => ?_⟩
    by_cases hcap : i < 8 * v.unit.cap
    · exact hzero ho i hi hcap
    · have hunlisted : v.unit.omem.read (i / 8) = 0 :=
        Memory.read_unlisted _ _ fun cell hcell => by have := hin ho cell hcell; omega
      simp [bitAt, hunlisted]
  · intro ⟨hin, hzero⟩
    refine ⟨⟨fun _ => hin, fun he => ?_⟩, fun _ i hi _ => hzero i hi⟩
    rw [ho] at he; cases he

/-- A byte write to owned storage lists no byte at or above a bound that holds before. -/
theorem omem_lt_setByte {v : WriterView} (ho : v.unit.mode = .owned) {n : Nat}
    (hin : ∀ cell ∈ v.unit.omem, cell.1 < n) (k : Nat) (b : Byte) (hk : k < n) :
    ∀ cell ∈ (v.setByte k b).unit.omem, cell.1 < n := by
  intro cell hcell
  rw [((v.setByte_frame k b).2.1 ho).2] at hcell
  rcases Memory.mem_write _ _ _ _ hcell with ⟨rfl, -⟩ | ⟨hold, -⟩
  · exact hk
  · exact hin cell hold

/-- PutChunk within a capacity lists no byte at or above it. -/
theorem omem_lt_putChunk {v : WriterView} (ho : v.unit.mode = .owned) {n : Nat}
    (hin : ∀ cell ∈ v.unit.omem, cell.1 < n) (chunk : Byte) (k : Nat) (hpos : 1 ≤ k) (hle : k ≤ 8)
    (hroom : v.unit.cur + k ≤ 8 * n) : ∀ cell ∈ (putChunk v chunk k).unit.omem, cell.1 < n := by
  rcases putChunk_cases v chunk k with ⟨-, b, h⟩ | ⟨hover, b, b', h⟩ <;>
    rw [h, WriterView.advance_omem]
  · exact omem_lt_setByte ho hin _ _ (by omega)
  · refine omem_lt_setByte ?_ (omem_lt_setByte ho hin _ _ (by omega)) _ _ (by omega)
    rwa [WriterView.setByte_mode]

theorem omem_lt_setOwnedCap (v : WriterView) (n : Nat) :
    ∀ cell ∈ (v.setOwnedCap n).unit.omem, cell.1 < n := by
  intro cell hcell
  have := ((Memory.mem_cut _ _ _).1 hcell).2
  omega

/-- A change of owned capacity sets no bit. -/
theorem bitAt_setOwnedCap_of_false {v : WriterView} (ho : v.unit.mode = .owned) (n i : Nat)
    (h : bitAt v.byte i = false) : bitAt (v.setOwnedCap n).byte i = false := by
  unfold bitAt at h ⊢
  rw [WriterView.byte_setOwnedCap _ _ _ ho]
  split
  · exact h
  · simp

/-- Truncating owned storage leaves only 0 from the new end on. -/
theorem bitAt_truncateTo_owned (v : WriterView) (len i : Nat) (ho : v.unit.mode = .owned)
    (hne : len ≠ v.unit.valid) (hi : len ≤ i) : bitAt (truncateTo v len).byte i = false := by
  have hm : (maskLastByte v len).unit.mode = .owned := (maskLastByte_mode v len).trans ho
  rw [truncateTo_owned v len ho hne, WriterView.byte_setValid]
  by_cases hbyte : i < 8 * ceil8 len
  · exact bitAt_setOwnedCap_of_false hm _ _ (by rw [bitAt_maskLastByte, if_pos ⟨hi, hbyte⟩])
  · unfold bitAt
    rw [WriterView.byte_setOwnedCap _ _ _ hm, if_neg (by omega)]
    simp

theorem WriterChange.padded_of_owned {own : Nat} {v w : WriterView} (h : WriterChange own v w)
    (ho : v.unit.mode = .owned) (hp : v.unit.Padded) : w.unit.Padded := by
  obtain ⟨hin, hzero⟩ := (WriterView.padded_owned ho).1 hp
  cases h with
  | setCur c _ => exact hp
  | put chunk k hpos hle hfit hroom =>
    refine (WriterView.padded_owned ((sameStorage_putChunk v chunk k).mode.trans ho)).2 ⟨?_, ?_⟩
    · rw [putChunk_cap]
      exact omem_lt_putChunk ho hin chunk k hpos hle hroom
    · intro i hi
      rw [putChunk_valid] at hi
      rw [bitAt_putChunk _ _ _ _ hle hfit, if_neg (by omega)]
      exact hzero i (by omega)
  | grow n _ hn =>
    unfold growOwned
    by_cases hg : n > v.unit.cap
    · rw [if_pos hg]
      exact (WriterView.padded_owned (v := v.setOwnedCap n) ho).2
        ⟨omem_lt_setOwnedCap v n, fun i hi => bitAt_setOwnedCap_of_false ho n i (hzero i hi)⟩
    · rw [if_neg hg]; exact hp
  | cut len _ =>
    by_cases hne : len = v.unit.valid
    · rw [hne, truncateTo_valid_self]; exact hp
    · have hmode := (sameStorage_truncateTo v len).1.mode.trans ho
      refine (WriterView.padded_owned (v := (truncateTo v len).setCur len) hmode).2 ⟨?_, ?_⟩
      · rw [truncateTo_owned v len ho hne]
        exact omem_lt_setOwnedCap _ _
      · intro i hi
        rw [WriterView.setCur_valid, (sameStorage_truncateTo v len).2.1] at hi
        exact bitAt_truncateTo_owned v len i ho hne hi
  | free => exact Writer.padded_of_omem_nil (if_pos ho)

/-- Every change but a release leaves the binding and the memory that is not the unit's own. -/
theorem WriterChange.sameStorage {own : Nat} {v w : WriterView} (h : WriterChange own v w) :
    SameStorage v w ∨ w = { v with unit := v.unit.freed } := by
  cases h with
  | setCur c _ => exact .inl (sameStorage_setCur v c)
  | put chunk k => exact .inl (sameStorage_putChunk v chunk k)
  | grow n ho _ => exact .inl (growOwned_spec v n ho).1
  | cut len _ => exact .inl ((sameStorage_truncateTo v len).1.trans (sameStorage_setCur _ _))
  | free => exact .inr rfl

theorem WriterChange.padded {own : Nat} {v w : WriterView} (h : WriterChange own v w)
    (hp : v.unit.Padded) : w.unit.Padded := by
  cases hm : v.unit.mode with
  | owned => exact h.padded_of_owned hm hp
  | external =>
    have hnil : v.unit.omem = [] := (Writer.padded_external hm).1 hp
    refine Writer.padded_of_omem_nil ?_
    rcases h.sameStorage with hs | rfl
    · exact (hs.omem hm).trans hnil
    · simp [Writer.freed, hnil]

theorem WriterPath.padded {own : Nat} {v w : WriterView} (h : WriterPath own v w)
    (hp : v.unit.Padded) : w.unit.Padded := by
  induction h with
  | refl => exact hp
  | tail _ hstep ih => exact hstep.padded ih

end Sys2Proof.Machine
end

section
/-! SUPPORT. How a command can end (60_exceptions R230): one theorem over all 32 commands that says once
what state a command leaves, from which the invariants and the laws of the response registers follow. -/
namespace Sys2Proof.Machine

/-! ### Paths of the storing procedures -/

/-- A run of PutChunks within the capacity is a path. -/
theorem Puts.path {own n : Nat} {v w : WriterView} (h : Puts n v w)
    (hroom : v.unit.cur + n ≤ 8 * v.unit.cap) : WriterPath own v w := by
  induction h with
  | nil => exact .refl
  | cons chunk k hpos hle hfit _ ih =>
    have hrest := ih (by rw [putChunk_cur, putChunk_cap]; omega)
    exact .head (.put chunk k hpos hle hfit (by omega)) hrest

theorem growOwned_setCur (v : WriterView) (n c : Nat) :
    growOwned (v.setCur c) n = (growOwned v n).setCur c := by
  unfold growOwned
  rw [WriterView.setCur_cap]
  split <;> rfl

/-- What an EnsureCap that passes gives: a path, room for the bits, the same counters. -/
theorem ensureCap_ok {own need : Nat} {cause : Cause} {v w : WriterView}
    (h : ensureCap own v need cause = .ok w) :
    (w = v ∨ ∃ n, v.unit.mode = .owned ∧ n ≤ own ∧ w = growOwned v n) ∧
    need ≤ 8 * w.unit.cap ∧ w.unit.cur = v.unit.cur ∧ w.unit.valid = v.unit.valid := by
  rcases ensureCap_cases own v need cause with
    ⟨-, -, e⟩ | ⟨-, hroom, e⟩ | ⟨-, -, e⟩ | ⟨ho, hle, e⟩ <;> rw [e] at h <;> cases h
  · exact ⟨.inl rfl, hroom, rfl, rfl⟩
  · obtain ⟨-, hcap, hvalid, hcur, -⟩ := growOwned_spec v (ceil8 need) ho
    have := le_ceil8 need
    exact ⟨.inr ⟨_, ho, hle, rfl⟩, by rw [hcap]; omega, hcur, hvalid⟩

theorem ensureCap_path {own need : Nat} {cause : Cause} {v w : WriterView}
    (h : ensureCap own v need cause = .ok w) : WriterPath own v w := by
  rcases (ensureCap_ok h).1 with rfl | ⟨n, ho, hn, rfl⟩
  · exact .refl
  · exact .single (.grow n ho hn)

/-- Growth does not look at the cursor. -/
theorem ensureCap_path_setCur {own need : Nat} {cause : Cause} {v w : WriterView}
    (h : ensureCap own v need cause = .ok w) (c : Nat) :
    WriterPath own (v.setCur c) (w.setCur c) := by
  rcases (ensureCap_ok h).1 with rfl | ⟨n, ho, hn, rfl⟩
  · exact .refl
  · rw [← growOwned_setCur]
    exact .single (.grow n ho hn)

/-- A field write after an EnsureCap for its bits (41 R141). -/
theorem path_of_ensureCap {own n : Nat} {cause : Cause} {v w w' : WriterView}
    (h : ensureCap own v (v.unit.cur + n) cause = .ok w) (hputs : Puts n w w') :
    WriterPath own v w' := by
  obtain ⟨-, hroom, hcur, -⟩ := ensureCap_ok h
  exact (ensureCap_path h).trans (hputs.path (by rwa [hcur]))

/-- The common course of the structural edits (42 R163 to R166): truncate, make room, write at the end,
move the cursor. -/
theorem path_of_edit {own len n need c : Nat} {cause : Cause} {v w w' : WriterView}
    (hlen : len ≤ v.unit.valid) (h : ensureCap own (truncateTo v len) need cause = .ok w)
    (hputs : Puts n (w.setCur w.unit.valid) w') (hneed : len + n ≤ need) (hc : c ≤ len + n) :
    WriterPath own v (w'.setCur c) := by
  obtain ⟨-, hroom, -, hwvalid⟩ := ensureCap_ok h
  have htvalid := (sameStorage_truncateTo v len).2.1
  have hlenw : w.unit.valid = len := hwvalid.trans htvalid
  have hvalid : w'.unit.valid = len + n := by
    rw [hputs.valid (Nat.le_refl _), WriterView.setCur_valid, WriterView.setCur_cur, hlenw]
    omega
  have hcut : WriterPath own v ((truncateTo v len).setCur len) := .single (.cut len hlen)
  rw [hlenw] at hputs
  have hwrite : WriterPath own (w.setCur len) w' :=
    hputs.path (by rw [WriterView.setCur_cur, WriterView.setCur_cap]; omega)
  exact ((hcut.trans (ensureCap_path_setCur h len)).trans hwrite).tail (.setCur c (by omega))

/-! ### What a command can leave -/

/-- The commands whose rule fills DOUT (10_state R37). -/
def Instr.FillsDout (i : Instr) : Prop := ∃ u, i = .wCopy u ∨ i = .wDump u ∨ i = .rDump u

/-- How the rule of a command `i` of a READY writer may end, started on `v`. -/
inductive WriterEnd.Lawful (i : Instr) (own : Nat) (v : WriterView) : WriterEnd → Prop
  | done {w : WriterView} {r : Word} {d : List Byte} (hpath : WriterPath own v w)
      (hdout : d ≠ [] → Instr.FillsDout i) : Lawful i own v (.done w r d)
  | error {c : Cause} : Lawful i own v (.error c)
  | faulted {c : Cause} : Lawful i own v (.faulted c)

/-- How a reader may be changed: released, or its cursor moved within the valid content (10_state R31,
R32). -/
inductive ReaderChange (x : Reader) : Reader → Prop
  | free : ReaderChange x { x with st := .unbound }
  | setCur (c : Nat) (h : c ≤ x.valid) : ReaderChange x { x with cur := c }

/-- How the rule of a command `i` of a READY reader may end, started on `x`. -/
inductive ReaderEnd.Lawful (i : Instr) (x : Reader) : ReaderEnd → Prop
  | done {y : Reader} {r : Word} {d : List Byte} (hchange : ReaderChange x y)
      (hdout : d ≠ [] → Instr.FillsDout i) : Lawful i x (.done y r d)
  | error {c : Cause} : Lawful i x (.error c)

/-- A newly constructed writer (40 R120, R121). -/
inductive Writer.Fresh (own : Nat) : Writer → Prop
  | owning (n : Nat) (h : n ≤ own) : Fresh own (Writer.owning n)
  | attached (base : Word) (len valid : Nat) (hlen : len ≤ Config.extMaxBytes)
      (hwrap : base.toNat + len ≤ Config.addrSpace) (hvalid : valid ≤ 8 * len) :
      Fresh own (Writer.attached base len valid)

/-- A newly constructed reader (40 R123 to R125). -/
inductive Reader.Fresh : Reader → Prop
  | attached (base : Word) (len valid : Nat) (hlen : len ≤ Config.extMaxBytes)
      (hwrap : base.toNat + len ≤ Config.addrSpace) (hvalid : valid ≤ 8 * len) :
      Fresh (Reader.attached base len valid)

/-- The states a command can end in (60_exceptions R230). -/
inductive Ended (i : Instr) (s : State) : State → Prop
  | raised (c : Cause) : Ended i s (s.raise c)
  | faulted (c : Cause) : Ended i s (s.raiseFault i.unitIndex c)
  | writerDone {v : WriterView} {r : Word} {d : List Byte} (hu : i.unitIndex < s.nw)
      (hready : (s.writer i.unitIndex).st = .ready)
      (hsound : (s.writer i.unitIndex).Sound s.ownMax)
      (hpath : WriterPath s.ownMax (s.writerView i.unitIndex) v)
      (hdout : d ≠ [] → Instr.FillsDout i) : Ended i s ((s.commit i.unitIndex v).done r d)
  | readerDone {x : Reader} {r : Word} {d : List Byte} (htakes : s.ReaderTakes i.unitIndex)
      (hchange : ReaderChange (s.reader i.unitIndex) x) (hdout : d ≠ [] → Instr.FillsDout i) :
      Ended i s ((s.setReader i.unitIndex x).done r d)
  | writerBound {x : Writer} (hx : x.Fresh s.ownMax) :
      Ended i s ((s.setWriter i.unitIndex x).done 0 [])
  | readerBound {x : Reader} (hx : x.Fresh) : Ended i s ((s.setReader i.unitIndex x).done 0 [])

/-! ### From the rules to the states -/

theorem WriterEnd.Lawful.silent {i : Instr} {own : Nat} {v w : WriterView} {r : Word}
    (h : WriterPath own v w) : WriterEnd.Lawful i own v (.done w r []) :=
  .done h fun hne => absurd rfl hne

theorem ReaderEnd.Lawful.silent {i : Instr} {x y : Reader} {r : Word} (h : ReaderChange x y) :
    ReaderEnd.Lawful i x (.done y r []) :=
  .done h fun hne => absurd rfl hne

/-- Leaving the cursor where it is changes nothing. -/
theorem readerChange_same {x : Reader} (h : x.Sound) : ReaderChange x x := .setCur x.cur h.1

theorem runWriterWith_ended {i : Instr} {u : Nat} {s t : State} {p : Bool}
    {rule : WriterView → WriterEnd} (h : runWriterWith s u p rule = .next t) (hi : i.unitIndex = u)
    (hrule : (s.writer u).Sound s.ownMax →
      (rule (s.writerView u)).Lawful i s.ownMax (s.writerView u)) : Ended i s t := by
  subst hi
  rcases runWriterWith_next _ _ _ _ _ h with ⟨c, -, -, rfl⟩ | ⟨hu, -, hready, hsound, hend⟩
  · exact .raised c
  · have hlaw := hrule hsound
    rcases hend with ⟨v, r, d, he, rfl⟩ | ⟨c, -, rfl⟩ | ⟨c, -, rfl⟩
    · rw [he] at hlaw
      cases hlaw with
      | done hpath hdout => exact .writerDone hu hready hsound hpath hdout
    · exact .raised c
    · exact .faulted c

theorem runWriter_ended {i : Instr} {u : Nat} {s t : State} {rule : WriterView → WriterEnd}
    (h : runWriter s u rule = .next t) (hi : i.unitIndex = u)
    (hrule : (s.writer u).Sound s.ownMax →
      (rule (s.writerView u)).Lawful i s.ownMax (s.writerView u)) : Ended i s t :=
  runWriterWith_ended h hi hrule

theorem runReader_ended {i : Instr} {u : Nat} {s t : State} {rule : ReaderView → ReaderEnd}
    (h : runReader s u rule = .next t) (hi : i.unitIndex = u)
    (hrule : (s.reader u).Sound → (rule (s.readerView u)).Lawful i (s.reader u)) : Ended i s t := by
  subst hi
  rcases runReader_next _ _ _ _ h with ⟨c, -, -, rfl⟩ | ⟨htakes, hend⟩
  · exact .raised c
  · have hlaw := hrule htakes.2.2.2
    rcases hend with ⟨x, r, d, he, rfl⟩ | ⟨c, -, rfl⟩
    · rw [he] at hlaw
      cases hlaw with
      | done hchange hdout => exact .readerDone htakes hchange hdout
    · exact .raised c

theorem bindWriter_ended {i : Instr} {u : Nat} {s t : State} {made : Except Cause Writer}
    (h : bindWriter s u made = .next t) (hi : i.unitIndex = u)
    (hmade : ∀ x, made = .ok x → x.Fresh s.ownMax) : Ended i s t := by
  subst hi
  rcases bindWriter_cases s i.unitIndex made with
    ⟨c, -, -, e⟩ | ⟨-, ⟨c, -, e⟩ | ⟨x, hx, e⟩⟩ <;> rw [e] at h <;> cases h
  · exact .raised c
  · exact .raised c
  · exact .writerBound (hmade x hx)

theorem bindReader_ended {i : Instr} {u : Nat} {s t : State} {made : Except Cause Reader}
    (h : bindReader s u made = .next t) (hi : i.unitIndex = u)
    (hmade : ∀ x, made = .ok x → x.Fresh) : Ended i s t := by
  subst hi
  rcases bindReader_cases s i.unitIndex made with
    ⟨c, -, -, e⟩ | ⟨-, ⟨c, -, e⟩ | ⟨x, hx, e⟩⟩ <;> rw [e] at h <;> cases h
  · exact .raised c
  · exact .raised c
  · exact .readerBound (hmade x hx)

/-! ### The construction commands (40) -/

/-- A region that passes its checks holds the valid bits it answers. -/
theorem regionValid_ok {base : Word} {len nvalid valid : Nat}
    (h : regionValid base len nvalid = .ok valid) :
    len ≤ Config.extMaxBytes ∧ base.toNat + len ≤ Config.addrSpace ∧ valid ≤ 8 * len := by
  rcases regionValid_cases base len nvalid with
    ⟨-, e⟩ | ⟨-, -, e⟩ | ⟨-, -, -, e⟩ | ⟨hlen, hwrap, hvalid, e⟩ <;> rw [e] at h <;> cases h
  refine ⟨hlen, hwrap, ?_⟩
  split
  · exact Nat.le_refl _
  · exact hvalid

theorem execWInito_ended {u : Nat} {s t : State} (h : execWInito u s = .next t) :
    Ended (.wInito u) s t := by
  refine bindWriter_ended h rfl fun x hx => ?_
  split at hx
  · cases hx
  · next hle => cases hx; exact .owning _ (Nat.not_lt.1 hle)

theorem execWAttach_ended {u : Nat} {s t : State} (h : execWAttach u s = .next t) :
    Ended (.wAttach u) s t := by
  refine bindWriter_ended h rfl fun x hx => ?_
  split at hx
  · cases hx
  · next valid hvalid =>
    cases hx
    obtain ⟨hlen, hwrap, hle⟩ := regionValid_ok hvalid
    exact .attached _ _ _ hlen hwrap hle

theorem execRAttach_ended {u : Nat} {s t : State} (h : execRAttach u s = .next t) :
    Ended (.rAttach u) s t := by
  refine bindReader_ended h rfl fun x hx => ?_
  split at hx
  · cases hx
  · next valid hvalid =>
    cases hx
    obtain ⟨hlen, hwrap, hle⟩ := regionValid_ok hvalid
    exact .attached _ _ _ hlen hwrap hle

theorem execRAttache_ended {u : Nat} {s t : State} (h : execRAttache u s = .next t) :
    Ended (.rAttache u) s t := by
  refine bindReader_ended h rfl fun x hx => ?_
  have hend : s.pkt.b.toNat < Config.addrSpace := s.pkt.b.isLt
  split at hx
  · cases hx
  · next horder =>
    dsimp only at hx
    split at hx
    · cases hx
    · next hlen => cases hx; exact .attached _ _ _ (Nat.not_lt.1 hlen) (by omega) (Nat.le_refl _)

theorem execRAttachp_ended {u : Nat} {s t : State} (h : execRAttachp u s = .next t) :
    Ended (.rAttachp u) s t := by
  refine bindReader_ended h rfl fun x hx => ?_
  split at hx
  · cases hx
  · dsimp only at hx
    split at hx
    · cases hx
    · next hlen =>
      split at hx
      · cases hx
      · next hwrap =>
        cases hx
        exact .attached _ _ _ (Nat.not_lt.1 hlen) (Nat.not_lt.1 hwrap) (le_ceil8 _)

/-! ### The reader commands (44) -/

/-- A field read moves the cursor of the reader and nothing else (44 R200). -/
theorem readField_view (v : ReaderView) (n : Nat) : (readField v n).2 = v.advance n := by
  unfold readField
  by_cases h : n % 8 > 0
  · simp only [h, if_true, readWholeBytes_view]
    simp only [getChunk, ReaderView.advance, Nat.add_assoc, Nat.mod_add_div]
  · simp only [h, if_false, readWholeBytes_view]
    rw [show 8 * (n / 8) = n by omega]

theorem readCheck_none {v : ReaderView} {n t : Nat} (h : readCheck v n t = none)
    (hsound : v.unit.Sound) : v.unit.cur + n ≤ v.unit.valid := by
  have hcur := hsound.1
  unfold readCheck at h
  split at h
  · cases h
  · omega

theorem readerChange_readField {v : ReaderView} {n t : Nat} (h : readCheck v n t = none)
    (hsound : v.unit.Sound) : ReaderChange v.unit (readField v n).2.unit := by
  rw [readField_view]
  exact .setCur _ (readCheck_none h hsound)

/-- Seek stores no position beyond the valid content (43 R187). -/
theorem seekTarget_ok {org : Origin} {a : Word} {valid cur pos : Nat}
    (h : seekTarget org a valid cur = .ok pos) : pos ≤ valid := by
  rcases seekTarget_cases org a valid cur with
    ⟨-, e⟩ | ⟨base, -, ⟨-, e⟩ | ⟨-, -, e⟩ | ⟨hlo, hhi, e⟩⟩ <;> rw [e] at h <;> cases h
  omega

theorem execRReadu_ended {u nb : Nat} {tw : TypeWidth} {s t : State}
    (h : execRReadu u tw nb s = .next t) : Ended (.rReadu u tw nb) s t := by
  refine runReader_ended h rfl fun hsound => ?_
  split
  · exact .silent (readerChange_same hsound)
  · split
    · exact .error
    · next hcheck => exact .silent (readerChange_readField hcheck hsound)

theorem execRReads_ended {u nb : Nat} {tw : TypeWidth} {s t : State}
    (h : execRReads u tw nb s = .next t) : Ended (.rReads u tw nb) s t := by
  refine runReader_ended h rfl fun hsound => ?_
  split
  · exact .silent (readerChange_same hsound)
  · split
    · exact .error
    · next hcheck => exact .silent (readerChange_readField hcheck hsound)

theorem execRSeek_ended {u : Nat} {org : Origin} {s t : State} (h : execRSeek u org s = .next t) :
    Ended (.rSeek u org) s t := by
  refine runReader_ended h rfl fun _ => ?_
  split
  · exact .error
  · next hpos => exact .silent (.setCur _ (seekTarget_ok hpos))

/-! ### The writer commands (41 to 43) -/

theorem execWSeek_ended {u : Nat} {org : Origin} {s t : State} (h : execWSeek u org s = .next t) :
    Ended (.wSeek u org) s t := by
  refine runWriter_ended h rfl fun _ => ?_
  split
  · exact .error
  · next hpos => exact .silent (.single (.setCur _ (seekTarget_ok hpos)))

theorem execWCopy_ended {u : Nat} {s t : State} (h : execWCopy u s = .next t) :
    Ended (.wCopy u) s t := by
  refine runWriter_ended h rfl fun _ => ?_
  split
  · exact .error
  · exact .done .refl fun _ => ⟨u, .inl rfl⟩

theorem execWReserve_ended {u : Nat} {s t : State} (h : execWReserve u s = .next t) :
    Ended (.wReserve u) s t := by
  refine runWriter_ended h rfl fun _ => ?_
  split
  · exact .error
  · next ho =>
    split
    · exact .error
    · next hle => exact .silent (.single (.grow _ ho (Nat.not_lt.1 hle)))

theorem execWWrite_ended {u nb : Nat} {tw : TypeWidth} {s t : State}
    (h : execWWrite u tw nb s = .next t) : Ended (.wWrite u tw nb) s t := by
  refine runWriter_ended h rfl fun _ => ?_
  split
  · exact .error
  · split
    · exact .error
    · next hcap => exact .silent (path_of_ensureCap hcap (puts_writeField _ _ _))

theorem execWWbit_ended {u : Nat} {s t : State} (h : execWWbit u s = .next t) :
    Ended (.wWbit u) s t := by
  refine runWriter_ended h rfl fun _ => ?_
  split
  · exact .error
  · next hcap => exact .silent (path_of_ensureCap hcap (puts_writeField _ _ _))

theorem execWAppend_ended {u : Nat} {s t : State} (h : execWAppend u s = .next t) :
    Ended (.wAppend u) s t := by
  refine runWriterWith_ended h rfl fun hsound => ?_
  split
  · exact .error
  · next w hcap =>
    have hputs := puts_appendBytes s.pkt.payload w
    have hpath := path_of_ensureCap hcap hputs
    obtain ⟨-, -, hcur, hvalid⟩ := ensureCap_ok hcap
    have hend := hputs.valid (by rw [hcur, hvalid]; exact hsound.1)
    split
    · exact .silent hpath
    · refine .silent (hpath.tail (.setCur _ ?_))
      rw [hend, hcur]
      omega

theorem execWAlign_ended {u : Nat} {s t : State} (h : execWAlign u s = .next t) :
    Ended (.wAlign u) s t := by
  refine runWriter_ended h rfl fun hsound => ?_
  obtain ⟨hcur, hvalid, -⟩ := hsound
  exact .silent ((puts_writeField _ _ _).path
    (by simp only [State.writerView_unit]; omega))

theorem cursorAfterInsert_le (c p n : Nat) : cursorAfterInsert c p n ≤ c + n := by
  unfold cursorAfterInsert; split <;> omega

theorem cursorAfterErase_le (c f n valid : Nat) (hc : c ≤ valid) (hf : f + n ≤ valid) :
    cursorAfterErase c f n ≤ valid - n := by
  unfold cursorAfterErase; split
  · omega
  · split <;> omega

theorem execWInsert_ended {u nb : Nat} {tw : TypeWidth} {s t : State}
    (h : execWInsert u tw nb s = .next t) : Ended (.wInsert u tw nb) s t := by
  refine runWriter_ended h rfl fun hsound => ?_
  have hcur : (s.writer u).cur ≤ (s.writer u).valid := hsound.1
  dsimp only
  split
  · exact .error
  · split
    · exact .error
    · next hp =>
      split
      · exact .error
      · split
        · exact .silent .refl
        · split
          · exact .error
          · next w hcap =>
            have hfirst := puts_tailWrite w (bitsStr s.pkt.a nb)
            have hsecond := puts_tailWrite (tailWrite w (bitsStr s.pkt.a nb))
              (extractBits (s.writerView u) s.pkt.b.toNat (s.writer u).valid)
            rw [tailWrite_setCur_valid] at hsecond
            have hc := cursorAfterInsert_le (s.writer u).cur s.pkt.b.toNat nb
            refine .silent (path_of_edit (Nat.not_lt.1 hp) hcap (hfirst.trans hsecond) ?_ ?_) <;>
              simp only [length_bitsStr, extractBits, length_bitsBetween, State.writerView_unit]
                at hp ⊢ <;>
              omega

theorem execWErase_ended {u : Nat} {s t : State} (h : execWErase u s = .next t) :
    Ended (.wErase u) s t := by
  refine runWriter_ended h rfl fun hsound => ?_
  have hcur : (s.writer u).cur ≤ (s.writer u).valid := hsound.1
  dsimp only
  split
  · exact .error
  · next hrange =>
    split
    · exact .silent .refl
    · split
      · exact .error
      · next w hcap =>
        have hc := cursorAfterErase_le _ _ _ _ hcur (Nat.not_lt.1 hrange)
        refine .silent (path_of_edit (Nat.le_trans (Nat.le_add_right _ _) (Nat.not_lt.1 hrange)) hcap
          (puts_tailWrite w _) ?_ ?_) <;>
          simp only [extractBits, length_bitsBetween, State.writerView_unit]
            at hrange hc ⊢ <;> omega

/-- A length W.RESIZE cannot hold ends it at once (42 R166). -/
theorem resizeCheck_lawful {i : Instr} {own len : Nat} {v : WriterView} {e : WriterEnd}
    (h : resizeCheck own v len = some e) : e.Lawful i own v := by
  unfold resizeCheck at h
  split at h <;> split at h <;> cases h
  · exact .faulted
  · exact .error

theorem execWResize_ended {u : Nat} {s t : State} (h : execWResize u s = .next t) :
    Ended (.wResize u) s t := by
  refine runWriter_ended h rfl fun hsound => ?_
  have hcur : (s.writer u).cur ≤ (s.writer u).valid := hsound.1
  dsimp only
  split
  · next hcheck => exact resizeCheck_lawful hcheck
  · split
    · next hgrow =>
      split
      · exact .error
      · next w hcap =>
        rw [← truncateTo_valid_self (s.writerView u)] at hcap
        refine .silent (path_of_edit (Nat.le_refl _) hcap (puts_tailWrite w _) ?_ ?_) <;>
          simp only [List.length_replicate, State.writerView_unit] at hgrow ⊢ <;> omega
    · next hle =>
      have hcut : WriterPath s.ownMax (s.writerView u)
          ((truncateTo (s.writerView u) s.pkt.a.toNat).setCur s.pkt.a.toNat) :=
        .single (.cut _ (Nat.not_lt.1 hle))
      refine .silent (hcut.tail (.setCur (min (s.writer u).cur s.pkt.a.toNat) ?_))
      rw [WriterView.setCur_valid, (sameStorage_truncateTo _ _).2.1]
      exact Nat.min_le_right _ _

/-- A writer command that only answers (43 R181 to R184). -/
theorem writerAnswer_ended {i : Instr} {u : Nat} {s t : State} {r : WriterView → Word}
    (h : runWriter s u (fun v => .done v (r v) []) = .next t) (hi : i.unitIndex = u) : Ended i s t :=
  runWriter_ended h hi fun _ => .silent .refl

/-- A reader command that only answers (44 R205 to R210). -/
theorem readerAnswer_ended {i : Instr} {u : Nat} {s t : State} {r : ReaderView → Word}
    (h : runReader s u (fun v => .done v.unit (r v) []) = .next t) (hi : i.unitIndex = u) :
    Ended i s t :=
  runReader_ended h hi fun hsound => .silent (readerChange_same hsound)

theorem execWDump_ended {u : Nat} {s t : State} (h : execWDump u s = .next t) :
    Ended (.wDump u) s t :=
  runWriter_ended h rfl fun _ => .done .refl fun _ => ⟨u, .inr (.inl rfl)⟩

theorem execRDump_ended {u : Nat} {s t : State} (h : execRDump u s = .next t) :
    Ended (.rDump u) s t :=
  runReader_ended h rfl fun hsound => .done (readerChange_same hsound) fun _ => ⟨u, .inr (.inr rfl)⟩

theorem execWFree_ended {u : Nat} {s t : State} (h : execWFree u s = .next t) :
    Ended (.wFree u) s t :=
  runWriter_ended h rfl fun _ => .silent (.single .free)

theorem execRFree_ended {u : Nat} {s t : State} (h : execRFree u s = .next t) :
    Ended (.rFree u) s t :=
  runReader_ended h rfl fun _ => .silent .free

/-- Everything a command can leave, over all 32 commands. -/
theorem exec_ended {i : Instr} {s t : State} (h : exec i s = .next t) : Ended i s t := by
  cases i with
  | wInito u => exact execWInito_ended h
  | wAttach u => exact execWAttach_ended h
  | wFree u => exact execWFree_ended h
  | wWrite u tw nb => exact execWWrite_ended h
  | wWbit u => exact execWWbit_ended h
  | wAppend u => exact execWAppend_ended h
  | wInsert u tw nb => exact execWInsert_ended h
  | wErase u => exact execWErase_ended h
  | wResize u => exact execWResize_ended h
  | wSeek u org => exact execWSeek_ended h
  | wAlign u => exact execWAlign_ended h
  | wReserve u => exact execWReserve_ended h
  | wTell u => exact writerAnswer_ended (show execWTell u s = _ from h) rfl
  | wNbits u => exact writerAnswer_ended (show execWNbits u s = _ from h) rfl
  | wNbytes u => exact writerAnswer_ended (show execWNbytes u s = _ from h) rfl
  | wPtr u => exact writerAnswer_ended (show execWPtr u s = _ from h) rfl
  | wCopy u => exact execWCopy_ended h
  | wDump u => exact execWDump_ended h
  | rAttach u => exact execRAttach_ended h
  | rAttache u => exact execRAttache_ended h
  | rAttachp u => exact execRAttachp_ended h
  | rFree u => exact execRFree_ended h
  | rReadu u tw nb => exact execRReadu_ended h
  | rReads u tw nb => exact execRReads_ended h
  | rSeek u org => exact execRSeek_ended h
  | rTell u => exact readerAnswer_ended (show execRTell u s = _ from h) rfl
  | rLeft u => exact readerAnswer_ended (show execRLeft u s = _ from h) rfl
  | rNbits u => exact readerAnswer_ended (show execRNbits u s = _ from h) rfl
  | rNbytes u => exact readerAnswer_ended (show execRNbytes u s = _ from h) rfl
  | rEof u => exact readerAnswer_ended (show execREof u s = _ from h) rfl
  | rPtr u => exact readerAnswer_ended (show execRPtr u s = _ from h) rfl
  | rDump u => exact execRDump_ended h

/-! ### One step -/

/-- Everything one step can do: nothing to the engine, a refusal of the word, a command, or a reset. -/
inductive Stepped (s : State) : State → Prop
  | idle (hhost : s.host = []) : Stepped s s
  | illegal {p : Packet} {rest : List HostAct} {e : DecodeError} (hhost : s.host = .command p :: rest)
      (hword : decodeWord p.cmd = .error e) : Stepped s ((s.take p rest).raise (decodeCause e))
  | command {p : Packet} {rest : List HostAct} {i : Instr} {t : State}
      (hhost : s.host = .command p :: rest) (hword : decodeWord p.cmd = .ok i)
      (hend : Ended i (s.take p rest) t) : Stepped s t
  | store {a : Word} {v : Byte} {rest : List HostAct} (hhost : s.host = .store a v :: rest) :
      Stepped s (s.hostStore a v rest)
  | reset {rest : List HostAct} (hhost : s.host = .reset :: rest) :
      Stepped s (s.take Packet.none rest).applyReset
  | resetDuring {p : Packet} {rest : List HostAct} (m : Memory)
      (hhost : s.host = .resetDuring p :: rest) :
      Stepped s (State.applyReset { s with xmem := m, host := rest, freeCtr := s.freeCtr + 1 })

theorem step_stepped {s t : State} (h : step s = .next t) : Stepped s t := by
  rcases step_cases s with ⟨hhost, e⟩ | ⟨p, rest, err, hhost, hword, e⟩ |
    ⟨p, rest, i, hhost, hword, e⟩ | ⟨a, v, rest, hhost, e⟩ | ⟨rest, hhost, e⟩ |
    ⟨p, rest, hhost, e⟩ <;> rw [e] at h
  · cases h; exact .idle hhost
  · cases h; exact .illegal hhost hword
  · exact .command hhost hword (exec_ended h)
  · cases h; exact .store hhost
  · cases h; exact .reset hhost
  · obtain ⟨m, habandon, -⟩ :=
      abandon_spec s p rest (decodeWord p.cmd, runPacket (s.take p rest))
    rw [habandon] at h
    cases h
    exact .resetDuring m hhost

end Sys2Proof.Machine
end

section
/-! SUPPORT. The invariants of the units, step by step (10_state R25, R27, R28, R31). -/
namespace Sys2Proof.Machine

/-- A property of all units of a list that the unit put at an index has too. -/
theorem forall_mem_set {α : Type} {p : α → Prop} {l : List α} {k : Nat} {x : α}
    (hl : ∀ y ∈ l, p y) (hx : p x) : ∀ y ∈ l.set k x, p y := by
  intro y hy
  rcases List.mem_or_eq_of_mem_set hy with hmem | rfl
  · exact hl y hmem
  · exact hx

theorem Writer.Fresh.sound {own : Nat} {x : Writer} (h : x.Fresh own)
    (hmax : own ≤ Config.extMaxBytes) : x.Sound own := by
  cases h with
  | owning n h => exact Writer.owning_sound own n h hmax
  | attached base len valid hlen hwrap hvalid =>
    exact Writer.attached_sound own base len valid hlen hwrap hvalid

theorem Writer.Fresh.padded {own : Nat} {x : Writer} (h : x.Fresh own) : x.Padded := by
  cases h <;> exact Writer.padded_of_omem_nil rfl

theorem Reader.Fresh.sound {x : Reader} (h : x.Fresh) : x.Sound := by
  cases h with
  | attached base len valid hlen hwrap hvalid =>
    exact Reader.attached_sound base len valid hlen hwrap hvalid

theorem ReaderChange.sound {x y : Reader} (h : ReaderChange x y) (hx : x.Sound) : y.Sound := by
  cases h with
  | free => exact hx
  | setCur c h => exact ⟨h, hx.2⟩

/-! ### Soundness -/

/-- A writer may be replaced by any that is sound if it is READY. -/
theorem State.UnitsSound.setWriter {s : State} (h : s.UnitsSound) (w : Nat) {x : Writer}
    (hx : x.st = .ready → x.Sound s.ownMax) : (s.setWriter w x).UnitsSound := by
  obtain ⟨⟨hnw, hnr⟩, hwriters, hreaders⟩ := h
  exact ⟨⟨by rwa [State.nw_setWriter], hnr⟩, forall_mem_set hwriters hx, hreaders⟩

theorem State.UnitsSound.setReader {s : State} (h : s.UnitsSound) (r : Nat) {x : Reader}
    (hx : x.st = .ready → x.Sound) : (s.setReader r x).UnitsSound := by
  obtain ⟨⟨hnw, hnr, hmax⟩, hwriters, hreaders⟩ := h
  exact ⟨⟨hnw, by rwa [State.nr_setReader], hmax⟩, hwriters, forall_mem_set hreaders hx⟩

/-- A reset keeps the numbers of units and leaves none READY. -/
theorem State.UnitsSound.applyReset {s : State} (h : s.ParametersOk) : s.applyReset.UnitsSound := by
  obtain ⟨hnw, hnr, hmax⟩ := h
  refine ⟨⟨by rwa [State.nw_applyReset], by rwa [State.nr_applyReset], hmax⟩, ?_, ?_⟩
  · intro x hx hready
    obtain ⟨-, -, rfl⟩ := List.mem_map.1 hx
    cases hready
  · intro x hx hready
    obtain ⟨-, -, rfl⟩ := List.mem_map.1 hx
    cases hready

/-- Every command keeps every READY unit sound; ending it (60_exceptions R243) touches no unit. -/
theorem Ended.unitsSound {i : Instr} {s t : State} (h : Ended i s t) (hs : s.UnitsSound) :
    t.UnitsSound := by
  have hmax : s.ownMax ≤ Config.extMaxBytes := hs.1.2.2
  cases h with
  | raised c => exact hs
  | faulted c =>
    exact hs.setWriter i.unitIndex (x := { s.writer i.unitIndex with st := .faulted })
      fun hready => by cases hready
  | writerDone _ _ hsound hpath _ =>
    exact hs.setWriter i.unitIndex fun _ => hpath.sound hmax hsound
  | readerDone htakes hchange _ =>
    exact hs.setReader i.unitIndex fun _ => hchange.sound htakes.2.2.2
  | writerBound hx => exact hs.setWriter i.unitIndex fun _ => hx.sound hmax
  | readerBound hx => exact hs.setReader i.unitIndex fun _ => hx.sound

/-! ### Padding -/

theorem State.StoragePadded.setWriter {s : State} (h : s.StoragePadded) (w : Nat) {x : Writer}
    (hx : x.st = .ready → x.Padded) : (s.setWriter w x).StoragePadded :=
  forall_mem_set (p := fun y : Writer => y.st = .ready → y.Padded) h hx

theorem State.StoragePadded.applyReset (s : State) : s.applyReset.StoragePadded := by
  intro x hx hready
  obtain ⟨-, -, rfl⟩ := List.mem_map.1 hx
  cases hready

/-- Every command keeps the storage of every READY writer padded with 0. -/
theorem Ended.storagePadded {i : Instr} {s t : State} (h : Ended i s t) (hs : s.StoragePadded) :
    t.StoragePadded := by
  cases h with
  | raised c => exact hs
  | faulted c =>
    exact hs.setWriter i.unitIndex (x := { s.writer i.unitIndex with st := .faulted })
      fun hready => by cases hready
  | writerDone hu hready _ hpath _ =>
    exact hs.setWriter i.unitIndex fun _ => hpath.padded (hs _ (s.writer_mem _ hu) hready)
  | readerDone _ _ _ => exact hs
  | writerBound hx => exact hs.setWriter i.unitIndex fun _ => hx.padded
  | readerBound _ => exact hs

end Sys2Proof.Machine

open Sys2Proof Sys2Proof.Machine

/-- Settles O11: the register invariants are kept by every elementary change of a unit, so by every
command, and no other act of the host touches a READY unit. -/
theorem stepKeepsUnitsSound : Obligations.StepKeepsUnitsSound := by
  intro s t hs hstep
  cases step_stepped hstep with
  | idle _ => exact hs
  | illegal _ _ => exact hs
  | command _ _ hend => exact hend.unitsSound hs
  | store _ => exact hs
  | reset _ => exact .applyReset hs.1
  | resetDuring m _ => exact .applyReset hs.1

/-- Settles O12: the storage invariants are kept by every elementary change of a unit. -/
theorem stepKeepsOwnedPaddingZero : Obligations.StepKeepsOwnedPaddingZero := by
  intro s t _ hs hstep
  cases step_stepped hstep with
  | idle _ => exact hs
  | illegal _ _ => exact hs
  | command _ _ hend => exact hend.storagePadded hs
  | store _ => exact hs
  | reset _ => exact .applyReset _
  | resetDuring m _ => exact .applyReset _

end

section
/-! SUPPORT. The response registers after a command (10_state R34 to R37, 60_exceptions R234). -/
namespace Sys2Proof.Machine

/-- No STATUS the engine produces numbers one of the bits 13 to 15 (60_exceptions R231). -/
theorem Status.code_lt (st : Status) : st.code.toNat < 13 := by cases st <;> decide

/-- Only OK has the code 0 (60_exceptions R231). -/
theorem Status.code_eq_zero_iff (st : Status) : st.code.toNat = 0 ↔ st = .ok := by
  cases st <;> decide

/-- The flag a STATUS sets is the bit it numbers, and bit 0 is never set (10_state R36). -/
theorem getLsbD_logBit (st : Status) (k : Nat) :
    st.logBit.getLsbD k = (decide (k ≠ 0) && decide (k = st.code.toNat)) := by
  by_cases hst : st = .ok
  · subst hst
    simp [Status.code]
  · have hpos : st.code.toNat ≠ 0 := mt (Status.code_eq_zero_iff st).1 hst
    rw [Status.logBit, if_neg hst, ← BitVec.twoPow_eq, BitVec.getLsbD_twoPow,
      decide_eq_true (show st.code.toNat < 16 from st.code.isLt), Bool.true_and]
    by_cases hk : k = st.code.toNat
    · simp [hk, hpos]
    · simp [hk, Ne.symm hk]

/-- `t` holds the response registers of a command that ended, after the flags of `s`. -/
structure Responded (s t : State) : Prop where
  status : t.cause.status = t.status
  errlog : t.errlog = s.errlog ||| t.status.logBit
  failed : t.status ≠ .ok → t.res = 0 ∧ t.dout = []

/-- The response of a command that fails on a state with the flags of `s`. -/
theorem responded_raise (s u : State) (c : Cause) (h : u.errlog = s.errlog) :
    Responded s (u.raise c) :=
  ⟨rfl, by rw [State.raise_errlog, h]; rfl, fun _ => ⟨rfl, rfl⟩⟩

/-- The response of a command that succeeds on a state with the flags of `s`. -/
theorem responded_done (s u : State) (r : Word) (d : List Byte) (h : u.errlog = s.errlog) :
    Responded s (u.done r d) :=
  ⟨rfl, by rw [State.done_errlog, h]; rfl, fun hne => absurd rfl hne⟩

theorem Ended.responded {i : Instr} {s t : State} (h : Ended i s t) : Responded s t := by
  cases h with
  | raised c => exact responded_raise _ _ c rfl
  | faulted c => exact responded_raise _ _ c rfl
  | writerDone _ _ _ _ _ => exact responded_done _ _ _ _ rfl
  | readerDone _ _ _ => exact responded_done _ _ _ _ rfl
  | writerBound _ => exact responded_done _ _ _ _ rfl
  | readerBound _ => exact responded_done _ _ _ _ rfl

/-- A command packet, legal or not, gets a response. -/
theorem responded_of_command {s t : State} {p : Packet} {rest : List HostAct}
    (hhost : s.host = .command p :: rest) (h : Stepped s t) : Responded s t := by
  cases h with
  | illegal _ _ => exact responded_raise _ _ _ rfl
  | command _ _ hend =>
    obtain ⟨hstatus, herrlog, hfailed⟩ := hend.responded
    exact ⟨hstatus, herrlog, hfailed⟩
  | idle hh => rw [hhost] at hh; cases hh
  | store hh => rw [hhost] at hh; cases hh
  | reset hh => rw [hhost] at hh; cases hh
  | resetDuring _ hh => rw [hhost] at hh; cases hh

theorem Responded.getLsbD_errlog {s t : State} (h : Responded s t) (k : Nat) :
    t.errlog.getLsbD k =
      (s.errlog.getLsbD k || (decide (k ≠ 0) && decide (k = t.status.code.toNat))) := by
  rw [h.errlog, BitVec.getLsbD_or, getLsbD_logBit]

/-- A command clears no flag. -/
theorem Responded.keeps_errlog {s t : State} (h : Responded s t) {k : Nat}
    (hk : s.errlog.getLsbD k = true) : t.errlog.getLsbD k = true := by
  rw [h.getLsbD_errlog, hk, Bool.true_or]

theorem Responded.consistent {s t : State} (h : Responded s t) (hs : s.ResponseConsistent) :
    t.ResponseConsistent := by
  obtain ⟨-, -, h0, h13, h14, h15⟩ := hs
  have hlt : t.status.code.toNat < 13 := Status.code_lt _
  have unset : ∀ k, s.errlog.getLsbD k = false → k = 0 ∨ 13 ≤ k → t.errlog.getLsbD k = false := by
    intro k hk hrange
    rw [h.getLsbD_errlog, hk]
    rcases hrange with rfl | hge
    · rfl
    · rw [decide_eq_false (show ¬ k = t.status.code.toNat by omega), Bool.and_false, Bool.or_false]
  refine ⟨h.status, fun hne => ⟨(h.failed hne).1, (h.failed hne).2, ?_⟩,
    unset 0 h0 (.inl rfl), unset 13 h13 (.inr (by decide)), unset 14 h14 (.inr (by decide)),
    unset 15 h15 (.inr (by decide))⟩
  have hpos : t.status.code.toNat ≠ 0 := mt (Status.code_eq_zero_iff _).1 hne
  rw [h.getLsbD_errlog, decide_eq_true hpos, decide_eq_true rfl, Bool.and_true, Bool.or_true]

/-- The response registers at reset are consistent (10_state R41). -/
theorem responseConsistent_of_reset {t : State} (hstatus : t.status = .ok)
    (hcause : t.cause = .noCause) (herrlog : t.errlog = 0) : t.ResponseConsistent := by
  unfold State.ResponseConsistent
  rw [hstatus, hcause, herrlog]
  exact ⟨rfl, fun hne => absurd rfl hne, by decide⟩

/-- DOUT is filled by a command that ended with OK and whose rule fills it. -/
theorem Ended.fillsDout {i : Instr} {s t : State} (h : Ended i s t) (hd : t.dout ≠ []) :
    t.status = .ok ∧ Instr.FillsDout i := by
  cases h with
  | raised c => exact absurd rfl hd
  | faulted c => exact absurd rfl hd
  | writerDone _ _ _ _ hdout => exact ⟨rfl, hdout hd⟩
  | readerDone _ _ hdout => exact ⟨rfl, hdout hd⟩
  | writerBound _ => exact absurd rfl hd
  | readerBound _ => exact absurd rfl hd

end Sys2Proof.Machine

open Sys2Proof Sys2Proof.Machine

/-- Settles O14: a command leaves the registers of its own response, a reset those of R41, and no other
step touches them. -/
theorem stepKeepsResponseConsistent : Obligations.StepKeepsResponseConsistent := by
  intro s t hs hstep
  cases step_stepped hstep with
  | idle _ => exact hs
  | illegal _ _ => exact (responded_raise _ _ _ rfl).consistent hs
  | command _ _ hend => exact hend.responded.consistent hs
  | store _ => exact hs
  | reset _ => exact responseConsistent_of_reset rfl rfl rfl
  | resetDuring _ _ => exact responseConsistent_of_reset rfl rfl rfl

/-- Settles O52: the response of a command sets the one bit its STATUS numbers. -/
theorem errlogIsSticky : Obligations.ErrlogIsSticky := by
  refine ⟨?_, ?_, ?_⟩
  · intro s t p rest hhost hstep k
    exact (responded_of_command hhost (step_stepped hstep)).getLsbD_errlog k
  · intro s t hstep hreset hduring k hk
    cases step_stepped hstep with
    | idle _ => exact hk
    | illegal hhost hword =>
      exact (responded_of_command hhost (.illegal hhost hword)).keeps_errlog hk
    | command hhost hword hend =>
      exact (responded_of_command hhost (.command hhost hword hend)).keeps_errlog hk
    | store _ => exact hk
    | reset hhost => exact absurd hhost (hreset _)
    | resetDuring _ hhost => exact absurd hhost (hduring _ _)
  · intro s rest hhost
    exact ⟨_, by unfold step; rw [hhost], rfl⟩

/-- Settles O54: of all rules only those of W.COPY, W.DUMP and R.DUMP answer with bytes. -/
theorem doutOnlyFromCopyAndDumps : Obligations.DoutOnlyFromCopyAndDumps := by
  intro s t p rest hhost hstep hd
  cases step_stepped hstep with
  | illegal _ _ => exact absurd rfl hd
  | command hh hword hend =>
    rw [hhost] at hh
    cases hh
    obtain ⟨hok, u, hi⟩ := hend.fillsDout hd
    exact ⟨hok, u, by rcases hi with rfl | rfl | rfl <;> simp [hword]⟩
  | idle hh => rw [hhost] at hh; cases hh
  | store hh => rw [hhost] at hh; cases hh
  | reset hh => rw [hhost] at hh; cases hh
  | resetDuring _ hh => rw [hhost] at hh; cases hh

/-- Settles O8: reset writes the table's values into every unit and every response register. -/
theorem resetLeavesTheTableValues : Obligations.ResetLeavesTheTableValues := by
  refine ⟨⟨?_, ?_, rfl, rfl, rfl, rfl, rfl⟩, rfl, rfl, fun s rest hhost => ?_⟩
  · exact fun x hx => List.eq_of_mem_replicate hx
  · exact fun x hx => List.eq_of_mem_replicate hx
  · refine ⟨(s.take Packet.none rest).applyReset, by unfold step; rw [hhost],
      ⟨fun x hx => ?_, fun x hx => ?_, rfl, rfl, rfl, rfl, rfl⟩, State.nw_applyReset _,
      State.nr_applyReset _, rfl, rfl, rfl, rfl⟩
    · obtain ⟨-, -, rfl⟩ := List.mem_map.1 hx
      rfl
    · obtain ⟨-, -, rfl⟩ := List.mem_map.1 hx
      rfl

/-- Settles O10: no unit is READY after reset and every memory is empty. -/
theorem goodAtReset : Obligations.GoodAtReset := by
  intro c hc
  have hwriters : ∀ x ∈ (State.resetWith c).writers, x = Writer.reset :=
    fun x hx => List.eq_of_mem_replicate hx
  have hreaders : ∀ x ∈ (State.resetWith c).readers, x = Reader.reset :=
    fun x hx => List.eq_of_mem_replicate hx
  have hnw : (State.resetWith c).nw = c.nw := List.length_replicate
  have hnr : (State.resetWith c).nr = c.nr := List.length_replicate
  refine ⟨⟨⟨by rw [hnw]; exact hc.1, by rw [hnr]; exact hc.2.1, hc.2.2⟩, ?_, ?_⟩, ?_,
    ⟨State.resetWith_xmem_wf c, fun cell hcell => absurd hcell List.not_mem_nil, ?_⟩,
    responseConsistent_of_reset rfl rfl rfl⟩
  · intro x hx hready
    rw [hwriters x hx] at hready; cases hready
  · intro x hx hready
    rw [hreaders x hx] at hready; cases hready
  · intro x hx hready
    rw [hwriters x hx] at hready; cases hready
  · intro x hx
    rw [hwriters x hx]; exact Memory.wf_nil

end

section
/-! SUPPORT. A command acts on the unit it names alone (10_state R22): it commutes with any change of
another writer. -/
namespace Sys2Proof.Machine

/-- The state with writer `u` changed by `g`. -/
def State.mapWriter (s : State) (u : Nat) (g : Writer → Writer) : State :=
  s.setWriter u (g (s.writer u))

/-- The outcome with its next state, if there is one, changed by `f`. -/
def mapNext (f : State → State) :
    Host.Outcome State Fault Refusal → Host.Outcome State Fault Refusal
  | .next t => .next (f t)
  | .fault r => .fault r
  | .refused r => .refused r

@[simp] theorem State.nw_mapWriter (s : State) (u : Nat) (g : Writer → Writer) :
    (s.mapWriter u g).nw = s.nw := State.nw_setWriter _ _ _

theorem State.writer_mapWriter_other (s : State) (u w : Nat) (g : Writer → Writer) (h : w ≠ u) :
    (s.mapWriter u g).writer w = s.writer w := State.writer_setWriter_other _ _ _ _ h

theorem State.writer_mapWriter_self (s : State) (u : Nat) (g : Writer → Writer) (h : u < s.nw) :
    (s.mapWriter u g).writer u = g (s.writer u) := State.writer_setWriter_self _ _ _ h

/-- Two changes of one writer are one change. -/
theorem State.mapWriter_mapWriter (s : State) (u : Nat) (g f : Writer → Writer) (h : u < s.nw) :
    (s.mapWriter u g).mapWriter u f = s.mapWriter u fun x => f (g x) := by
  simp only [State.mapWriter, State.writer_setWriter_self _ _ _ h]
  simp only [State.setWriter, List.set_set]

theorem State.raise_mapWriter (s : State) (u : Nat) (g : Writer → Writer) (c : Cause) :
    (s.mapWriter u g).raise c = (s.raise c).mapWriter u g := rfl

theorem State.done_mapWriter (s : State) (u : Nat) (g : Writer → Writer) (r : Word) (d : List Byte) :
    (s.mapWriter u g).done r d = (s.done r d).mapWriter u g := rfl

theorem State.commit_mapWriter_other (s : State) (u w : Nat) (g : Writer → Writer) (v : WriterView)
    (h : w ≠ u) : (s.mapWriter u g).commit w v = (s.commit w v).mapWriter u g := by
  simp only [State.mapWriter, State.writer_commit_other s w u v h.symm]
  simp only [State.commit, State.setWriter, List.set_comm _ _ h]

theorem State.setWriter_mapWriter_other (s : State) (u w : Nat) (g : Writer → Writer) (x : Writer)
    (h : w ≠ u) : (s.mapWriter u g).setWriter w x = (s.setWriter w x).mapWriter u g := by
  simp only [State.mapWriter, State.writer_setWriter_other s w u x h.symm]
  simp only [State.setWriter, List.set_comm _ _ h]

theorem State.raiseFault_mapWriter_other (s : State) (u w : Nat) (g : Writer → Writer) (c : Cause)
    (h : w ≠ u) : (s.mapWriter u g).raiseFault w c = (s.raiseFault w c).mapWriter u g := by
  rw [State.raiseFault, State.writer_mapWriter_other s u w g h,
    State.setWriter_mapWriter_other s u w g _ h, State.raise_mapWriter, State.raiseFault]

/-- The decode checks read the number of units, and of the unit ST and, when it is READY, whether it is
sound. -/
theorem admitWriter_congr {s s' : State} {w : Nat} (p : Bool) (need : WriterLife)
    (hnw : s'.nw = s.nw) (hst : (s'.writer w).st = (s.writer w).st)
    (hsound : need = .ready → (s.writer w).st = .ready →
      ((s'.writer w).Sound s'.ownMax ↔ (s.writer w).Sound s.ownMax)) :
    admitWriter s' w p need = admitWriter s w p need := by
  unfold admitWriter
  rw [hnw, hst]
  by_cases hready : need = .ready ∧ (s.writer w).st = .ready
  · simp only [hsound hready.1 hready.2]
  · have hstop : need = .ready → (s.writer w).st ≠ need := fun hn hs => hready ⟨hn, hs.trans hn⟩
    by_cases hn : need = .ready
    · simp only [if_pos (hstop hn)]
    · simp only [hn, false_and, if_false]

theorem admitWriter_mapWriter_other (s : State) (u w : Nat) (g : Writer → Writer) (h : w ≠ u)
    (p : Bool) (need : WriterLife) :
    admitWriter (s.mapWriter u g) w p need = admitWriter s w p need := by
  have hw := State.writer_mapWriter_other s u w g h
  exact admitWriter_congr p need (State.nw_mapWriter s u g) (by rw [hw])
    fun _ _ => by rw [hw]; rfl

theorem runWriterWith_mapWriter_other (s : State) (u w : Nat) (g : Writer → Writer) (h : w ≠ u)
    (p : Bool) (rule : WriterView → WriterEnd) :
    runWriterWith (s.mapWriter u g) w p rule =
      mapNext (·.mapWriter u g) (runWriterWith s w p rule) := by
  have hview : (s.mapWriter u g).writerView w = s.writerView w := by
    rw [State.writerView, State.writer_mapWriter_other s u w g h]; rfl
  unfold runWriterWith
  rw [admitWriter_mapWriter_other s u w g h, hview]
  cases admitWriter s w p .ready with
  | refuse c => rfl
  | broken => rfl
  | granted =>
    cases hend : rule (s.writerView w) with
    | done v r d =>
      simp only [finishWriter, mapNext, State.commit_mapWriter_other s u w g v h,
        State.done_mapWriter]
    | error c => rfl
    | faulted c => simp only [finishWriter, mapNext, State.raiseFault_mapWriter_other s u w g c h]

theorem bindWriter_mapWriter_other (s : State) (u w : Nat) (g : Writer → Writer) (h : w ≠ u)
    (made : Except Cause Writer) :
    bindWriter (s.mapWriter u g) w made = mapNext (·.mapWriter u g) (bindWriter s w made) := by
  have hadmit :
      admitWriter (s.mapWriter u g) w (decide ((s.mapWriter u g).pkt.payload = [])) .unbound =
        admitWriter s w (decide (s.pkt.payload = [])) .unbound :=
    admitWriter_mapWriter_other s u w g h _ _
  unfold bindWriter
  rw [hadmit]
  cases admitWriter s w (decide (s.pkt.payload = [])) .unbound with
  | refuse c => rfl
  | broken => rfl
  | granted =>
    cases made with
    | error c => rfl
    | ok x => simp only [mapNext, State.setWriter_mapWriter_other s u w g x h, State.done_mapWriter]

theorem runReader_mapWriter (s : State) (u r : Nat) (g : Writer → Writer)
    (rule : ReaderView → ReaderEnd) :
    runReader (s.mapWriter u g) r rule = mapNext (·.mapWriter u g) (runReader s r rule) := by
  have hadmit : admitReader (s.mapWriter u g) r .ready = admitReader s r .ready := rfl
  have hview : (s.mapWriter u g).readerView r = s.readerView r := rfl
  unfold runReader
  rw [hadmit, hview]
  cases admitReader s r .ready with
  | refuse c => rfl
  | broken => rfl
  | granted => cases rule (s.readerView r) <;> rfl

theorem bindReader_mapWriter (s : State) (u r : Nat) (g : Writer → Writer)
    (made : Except Cause Reader) :
    bindReader (s.mapWriter u g) r made = mapNext (·.mapWriter u g) (bindReader s r made) := by
  have hadmit : admitReader (s.mapWriter u g) r .unbound = admitReader s r .unbound := rfl
  unfold bindReader
  rw [hadmit]
  cases admitReader s r .unbound with
  | refuse c => rfl
  | broken => rfl
  | granted => cases made <;> rfl

/-- The shape of a command in two states with the same packet and the same OWN_MAX_BYTES: the rule, or
the unit made, is the same. -/
theorem exec_shape_two (i : Instr) (s s' : State) (hp : s'.pkt = s.pkt) (ho : s'.ownMax = s.ownMax) :
    (i.namesWriter = true ∧ constructs i = false ∧ ∃ rule,
      exec i s = runWriterWith s i.unitIndex (payloadFits i s.pkt) rule ∧
      exec i s' = runWriterWith s' i.unitIndex (payloadFits i s.pkt) rule) ∨
    (i.namesWriter = false ∧ constructs i = false ∧ ∃ rule,
      exec i s = runReader s i.unitIndex rule ∧ exec i s' = runReader s' i.unitIndex rule) ∨
    (i.namesWriter = true ∧ constructs i = true ∧ ∃ made,
      exec i s = bindWriter s i.unitIndex made ∧ exec i s' = bindWriter s' i.unitIndex made) ∨
    (i.namesWriter = false ∧ constructs i = true ∧ ∃ made,
      exec i s = bindReader s i.unitIndex made ∧ exec i s' = bindReader s' i.unitIndex made) := by
  cases i <;>
    simp only [exec, execWInito, execWAttach, execWFree, execWWrite, execWWbit, execWAppend,
      execWInsert, execWErase, execWResize, execWSeek, execWAlign, execWReserve, execWTell,
      execWNbits, execWNbytes, execWPtr, execWCopy, execWDump, execRAttach, execRAttache,
      execRAttachp, execRFree, execRReadu, execRReads, execRSeek, execRTell, execRLeft,
      execRNbits, execRNbytes, execREof, execRPtr, execRDump, runWriter, payloadFits,
      Instr.unitIndex, Instr.namesWriter, constructs, hp, ho, true_and, false_and, or_false,
      false_or, Bool.true_eq_false, Bool.false_eq_true] <;>
    exact ⟨_, rfl, rfl⟩

/-- A command that does not name writer `u` commutes with any change of it. -/
theorem exec_mapWriter_other (i : Instr) (s : State) (u : Nat) (g : Writer → Writer)
    (h : i.namesWriter = false ∨ i.unitIndex ≠ u) :
    exec i (s.mapWriter u g) = mapNext (·.mapWriter u g) (exec i s) := by
  have other : i.namesWriter = true → i.unitIndex ≠ u := fun hw =>
    h.resolve_left (by rw [hw]; decide)
  rcases exec_shape_two i s (s.mapWriter u g) rfl rfl with
    ⟨hw, -, rule, e, e'⟩ | ⟨-, -, rule, e, e'⟩ | ⟨hw, -, made, e, e'⟩ | ⟨-, -, made, e, e'⟩ <;>
    rw [e, e']
  · exact runWriterWith_mapWriter_other s u _ g (other hw) _ rule
  · exact runReader_mapWriter s u _ g rule
  · exact bindWriter_mapWriter_other s u _ g (other hw) made
  · exact bindReader_mapWriter s u _ g made

end Sys2Proof.Machine
end

section
/-! SUPPORT. The capacity of owned storage is hidden (10_state R38). A rule run on an OWNED writer and on
the same writer with another CAP does the same but for CAP: the writes do not read CAP, growth adds only
bytes that read as 0 already, and truncation drops the same bytes. -/
namespace Sys2Proof.Machine

/-- The view with CAP replaced. -/
def WriterView.withCap (v : WriterView) (c : Nat) : WriterView :=
  { v with unit := { v.unit with cap := c } }

/-- A rule's end with CAP replaced in the view it leaves. -/
def WriterEnd.withCap : WriterEnd → Nat → WriterEnd
  | .done v r d, c => .done (v.withCap c) r d
  | .error k, _ => .error k
  | .faulted k, _ => .faulted k

@[simp] theorem withCap_mode (v : WriterView) (c : Nat) :
    (v.withCap c).unit.mode = v.unit.mode := rfl
@[simp] theorem withCap_valid (v : WriterView) (c : Nat) :
    (v.withCap c).unit.valid = v.unit.valid := rfl
@[simp] theorem withCap_cur (v : WriterView) (c : Nat) :
    (v.withCap c).unit.cur = v.unit.cur := rfl
@[simp] theorem byte_withCap (v : WriterView) (c : Nat) : (v.withCap c).byte = v.byte := rfl
@[simp] theorem extractBits_withCap (v : WriterView) (c a b : Nat) :
    extractBits (v.withCap c) a b = extractBits v a b := rfl
@[simp] theorem setCur_withCap (v : WriterView) (c n : Nat) :
    (v.withCap c).setCur n = (v.setCur n).withCap c := rfl
@[simp] theorem WriterEnd.withCap_done (v : WriterView) (r : Word) (d : List Byte) (c : Nat) :
    (WriterEnd.done v r d).withCap c = .done (v.withCap c) r d := rfl

/-! ### The writes do not read CAP -/

@[simp] theorem setByte_withCap (v : WriterView) (c k : Nat) (b : Byte) :
    (v.withCap c).setByte k b = (v.setByte k b).withCap c := by
  unfold WriterView.setByte WriterView.withCap
  cases v.unit.mode <;> rfl

@[simp] theorem putChunk_withCap (v : WriterView) (c : Nat) (chunk : Byte) (k : Nat) :
    putChunk (v.withCap c) chunk k = (putChunk v chunk k).withCap c := by
  unfold putChunk
  simp only [withCap_cur, byte_withCap, setByte_withCap]
  split <;> rfl

theorem writeWholeBytes_withCap (value : Word) (c q : Nat) : ∀ v : WriterView,
    writeWholeBytes (v.withCap c) value q = (writeWholeBytes v value q).withCap c := by
  induction q with
  | zero => exact fun _ => rfl
  | succ q ih => intro v; rw [writeWholeBytes, putChunk_withCap, ih, writeWholeBytes]

@[simp] theorem writeField_withCap (v : WriterView) (c : Nat) (value : Word) (n : Nat) :
    writeField (v.withCap c) value n = (writeField v value n).withCap c := by
  unfold writeField
  simp only [putChunk_withCap]
  split <;> exact writeWholeBytes_withCap _ _ _ _

@[simp] theorem appendBytes_withCap (c : Nat) (bytes : List Byte) : ∀ v : WriterView,
    appendBytes (v.withCap c) bytes = (appendBytes v bytes).withCap c := by
  induction bytes with
  | nil => exact fun _ => rfl
  | cons b bytes ih =>
    intro v
    have hhead := writeField_withCap v c (b.setWidth 64) 8
    calc appendBytes (v.withCap c) (b :: bytes)
        = appendBytes (writeField (v.withCap c) (b.setWidth 64) 8) bytes := rfl
      _ = appendBytes ((writeField v (b.setWidth 64) 8).withCap c) bytes := by rw [hhead]
      _ = (appendBytes v (b :: bytes)).withCap c := ih _

theorem writeGroups_withCap (c n : Nat) : ∀ (v : WriterView) (s : BitString),
    writeGroups n (v.withCap c) s = (writeGroups n v s).withCap c := by
  induction n with
  | zero => exact fun _ _ => rfl
  | succ n ih =>
    intro v s
    cases s with
    | nil => rfl
    | cons b s => simp only [writeGroups, putChunk_withCap, ih]

@[simp] theorem tailWrite_withCap (v : WriterView) (c : Nat) (s : BitString) :
    tailWrite (v.withCap c) s = (tailWrite v s).withCap c :=
  writeGroups_withCap c s.length (v.setCur v.unit.valid) s

theorem maskLastByte_withCap (v : WriterView) (c len : Nat) :
    maskLastByte (v.withCap c) len = (maskLastByte v len).withCap c := by
  unfold maskLastByte
  split
  · rfl
  · exact setByte_withCap v c _ _

/-! ### Growing and truncating -/

theorem Memory.cut_eq_self {m : Memory} {n : Nat} (h : ∀ cell ∈ m, cell.1 < n) : m.cut n = m :=
  List.filter_eq_self.2 fun cell hcell => decide_eq_true (h cell hcell)

theorem Memory.cut_min {m : Memory} {n : Nat} (h : ∀ cell ∈ m, cell.1 < n) (k : Nat) :
    m.cut (min n k) = m.cut k := by
  refine List.filter_congr fun cell hcell => ?_
  have := h cell hcell
  exact decide_eq_decide.2 (by omega)

/-- An OWNED view and the same view with capacity `c`, both holding all listed bytes and the valid
content. -/
structure CapTwin (v : WriterView) (c : Nat) : Prop where
  owned : v.unit.mode = .owned
  fits : v.unit.valid ≤ 8 * v.unit.cap
  fits' : v.unit.valid ≤ 8 * c
  inside : ∀ cell ∈ v.unit.omem, cell.1 < v.unit.cap
  inside' : ∀ cell ∈ v.unit.omem, cell.1 < c

/-- A new capacity leaves nothing of the old one. -/
theorem setOwnedCap_withCap {v : WriterView} {c : Nat} (n : Nat)
    (hin : ∀ cell ∈ v.unit.omem, cell.1 < v.unit.cap) (hin' : ∀ cell ∈ v.unit.omem, cell.1 < c) :
    (v.withCap c).setOwnedCap n = v.setOwnedCap n := by
  simp only [WriterView.setOwnedCap, WriterView.withCap, Memory.cut_min hin, Memory.cut_min hin']

/-- Growth changes CAP and no listed byte. -/
theorem growOwned_eq_withCap {v : WriterView} (n : Nat)
    (hin : ∀ cell ∈ v.unit.omem, cell.1 < v.unit.cap) :
    growOwned v n = v.withCap (max v.unit.cap n) := by
  unfold growOwned
  split
  · next hg =>
    have hcut : v.unit.omem.cut (min v.unit.cap n) = v.unit.omem := by
      rw [Nat.min_eq_left (Nat.le_of_lt hg), Memory.cut_eq_self hin]
    rw [Nat.max_eq_right (Nat.le_of_lt hg), WriterView.setOwnedCap, hcut]; rfl
  · next hg => rw [Nat.max_eq_left (Nat.not_lt.1 hg)]; rfl

theorem growOwned_withCap {v : WriterView} {c : Nat} (h : CapTwin v c) (n : Nat) :
    growOwned (v.withCap c) n = (growOwned v n).withCap (max c n) := by
  rw [growOwned_eq_withCap n h.inside, growOwned_eq_withCap (v := v.withCap c) n h.inside']; rfl

theorem ensureCap_withCap {own : Nat} {v : WriterView} {c : Nat} (h : CapTwin v c) (need : Nat)
    (cause : Cause) :
    ensureCap own (v.withCap c) need cause =
      (ensureCap own v need cause).map (·.withCap (max c (ceil8 need))) := by
  have howned : (v.withCap c).unit.mode = .owned := h.owned
  simp only [ensureCap, howned, h.owned, growOwned_withCap h]
  split <;> rfl

theorem checkCap_withCap {own : Nat} {v : WriterView} {c : Nat} (h : CapTwin v c) (need : Nat)
    (cause : Cause) : checkCap own (v.withCap c) need cause = checkCap own v need cause := by
  have howned : (v.withCap c).unit.mode = .owned := h.owned
  simp only [checkCap, howned, h.owned]

/-- Truncation makes the capacities equal, or changes nothing. -/
theorem truncateTo_withCap {v : WriterView} {c : Nat} (h : CapTwin v c) (len : Nat)
    (hlen : len ≤ v.unit.valid) :
    ∃ c', truncateTo (v.withCap c) len = (truncateTo v len).withCap c' ∧
      CapTwin (truncateTo v len) c' := by
  by_cases hne : len = v.unit.valid
  · have hself : truncateTo (v.withCap c) len = v.withCap c := if_pos hne
    exact ⟨c, by rw [hself, hne, truncateTo_valid_self], by rwa [hne, truncateTo_valid_self]⟩
  · have hmask : ∀ n, v.unit.valid ≤ 8 * n → (∀ cell ∈ v.unit.omem, cell.1 < n) →
        ∀ cell ∈ (maskLastByte v len).unit.omem, cell.1 < n := by
      intro n hn hin
      unfold maskLastByte
      split
      · exact hin
      · exact omem_lt_setByte h.owned hin _ _ (by omega)
    have hcap : (maskLastByte v len).unit.cap = v.unit.cap := by
      rw [(sameStorage_maskLastByte v len).2]
    have heq : truncateTo (v.withCap c) len = truncateTo v len := by
      rw [truncateTo_owned v len h.owned hne, truncateTo_owned (v.withCap c) len h.owned hne,
        maskLastByte_withCap, setOwnedCap_withCap _ _ (hmask c h.fits' h.inside')]
      rw [hcap]; exact hmask _ h.fits h.inside
    have hnew : (truncateTo v len).unit.cap = ceil8 len := by
      rw [truncateTo_owned v len h.owned hne]; rfl
    have hfits : (truncateTo v len).unit.valid ≤ 8 * ceil8 len := by
      rw [(sameStorage_truncateTo v len).2.1]; exact le_ceil8 len
    have hin : ∀ cell ∈ (truncateTo v len).unit.omem, cell.1 < ceil8 len := by
      rw [truncateTo_owned v len h.owned hne]; exact omem_lt_setOwnedCap _ _
    refine ⟨ceil8 len, ?_, (sameStorage_truncateTo v len).1.mode.trans h.owned, ?_, hfits, ?_, hin⟩
    · rw [heq, ← hnew]; rfl
    · rwa [hnew]
    · rwa [hnew]

/-! ### From the rules to the outcomes -/

/-- A writer that exists, is READY and OWNED, and is sound and padded with CAP as it stands and with CAP
replaced by `c`. -/
structure CapHidden (s : State) (u c : Nat) : Prop where
  lt_nw : u < s.nw
  ready : (s.writer u).st = .ready
  sound : (s.writer u).Sound s.ownMax
  sound' : Writer.Sound s.ownMax { s.writer u with cap := c }
  twin : CapTwin (s.writerView u) c

/-- The state with CAP of writer `u` replaced. -/
abbrev State.setCap (s : State) (u c : Nat) : State := s.mapWriter u fun x => { x with cap := c }

/-- The second outcome is the first but for CAP of writer `u`. -/
def SameButCap (u : Nat) (o o' : Host.Outcome State Fault Refusal) : Prop :=
  ∀ t, o = .next t → ∃ c', o' = .next (t.setCap u c')

theorem sameButCap_next (u c' : Nat) (t : State) :
    SameButCap u (.next t) (.next (t.setCap u c')) := by
  intro t' h
  cases h
  exact ⟨c', rfl⟩

/-- CAP in the new state is what was stored, or there is no such writer and nothing was stored. -/
theorem setCap_writer_cap (t : State) (u c : Nat) :
    t.setCap u c = t.setWriter u { t.writer u with cap := ((t.setCap u c).writer u).cap } := by
  by_cases hu : u < t.nw
  · rw [State.writer_mapWriter_self t u _ hu]; rfl
  · have hset : ∀ x, t.writers.set u x = t.writers :=
      fun x => List.set_eq_of_length_le (Nat.not_lt.1 hu)
    simp only [State.setCap, State.mapWriter, State.setWriter, hset]

/-- The decode checks do not see the capacity. -/
theorem admitWriter_setCap {s : State} {u c : Nat} (h : CapHidden s u c) (p : Bool)
    (need : WriterLife) : admitWriter (s.setCap u c) u p need = admitWriter s u p need := by
  have hw : (s.setCap u c).writer u = { s.writer u with cap := c } :=
    State.writer_mapWriter_self s u _ h.lt_nw
  refine admitWriter_congr p need (State.nw_mapWriter s u _) (by rw [hw]) fun _ _ => ?_
  rw [hw]
  exact ⟨fun _ => h.sound, fun _ => h.sound'⟩

/-- Two views that differ in CAP are stored as two states that differ in CAP. -/
theorem commit_withCap (s : State) (u c c' : Nat) (v : WriterView) (hu : u < s.nw) :
    (s.setCap u c).commit u (v.withCap c') = (s.commit u v).setCap u c' := by
  simp only [State.mapWriter, State.writer_commit_self s u v hu]
  simp only [State.commit, State.setWriter, List.set_set, WriterView.withCap]

theorem raiseFault_setCap (s : State) (u c : Nat) (k : Cause) (hu : u < s.nw) :
    (s.setCap u c).raiseFault u k = (s.raiseFault u k).setCap u c :=
  calc (s.setCap u c).raiseFault u k
      = ((s.setCap u c).mapWriter u fun x => { x with st := .faulted }).raise k := rfl
    _ = (s.mapWriter u fun x => { x with cap := c, st := .faulted }).raise k := by
        rw [State.mapWriter_mapWriter s u _ _ hu]
    _ = ((s.mapWriter u fun x => { x with st := .faulted }).setCap u c).raise k := by
        rw [State.setCap, State.mapWriter_mapWriter s u _ _ hu]
    _ = (s.raiseFault u k).setCap u c := rfl

theorem runWriterWith_setCap {s : State} {u c : Nat} {p : Bool} {rule : WriterView → WriterEnd}
    (h : CapHidden s u c)
    (hrule : ∀ v, CapTwin v c → ∃ c', rule (v.withCap c) = (rule v).withCap c') :
    SameButCap u (runWriterWith s u p rule) (runWriterWith (s.setCap u c) u p rule) := by
  obtain ⟨c', hrule⟩ := hrule _ h.twin
  have hview : (s.setCap u c).writerView u = (s.writerView u).withCap c := by
    rw [State.writerView, State.writer_mapWriter_self s u _ h.lt_nw]; rfl
  unfold runWriterWith
  rw [admitWriter_setCap h, hview, hrule]
  cases admitWriter s u p .ready with
  | refuse k => exact sameButCap_next u c _
  | broken => intro t ht; cases ht
  | granted =>
    cases rule (s.writerView u) with
    | done v r d =>
      simp only [WriterEnd.withCap, finishWriter, commit_withCap s u c c' v h.lt_nw,
        State.done_mapWriter]
      exact sameButCap_next u c' _
    | error k => exact sameButCap_next u c _
    | faulted k =>
      simp only [WriterEnd.withCap, finishWriter, raiseFault_setCap s u c k h.lt_nw]
      exact sameButCap_next u c _

/-- A READY writer refuses construction, whatever its capacity. -/
theorem bindWriter_setCap {s : State} {u c : Nat} {made : Except Cause Writer} (h : CapHidden s u c) :
    SameButCap u (bindWriter s u made) (bindWriter (s.setCap u c) u made) := by
  have hadmit : admitWriter (s.setCap u c) u (decide ((s.setCap u c).pkt.payload = [])) .unbound =
      admitWriter s u (decide (s.pkt.payload = [])) .unbound := admitWriter_setCap h _ _
  unfold bindWriter
  rw [hadmit]
  cases hcheck : admitWriter s u (decide (s.pkt.payload = [])) .unbound with
  | refuse k => exact sameButCap_next u c _
  | broken => intro t ht; cases ht
  | granted =>
    obtain ⟨-, -, hunbound, -⟩ := (admitWriter_granted_iff s u _ .unbound (by decide)).1 hcheck
    rw [h.ready] at hunbound
    cases hunbound

/-! ### The commands of one writer -/

theorem runWriter_setCap {s : State} {u c : Nat} {rule : WriterView → WriterEnd}
    (h : CapHidden s u c)
    (hrule : ∀ v, CapTwin v c → ∃ c', rule (v.withCap c) = (rule v).withCap c') :
    SameButCap u (runWriter s u rule) (runWriter (s.setCap u c) u rule) :=
  runWriterWith_setCap h hrule

section
variable {s : State} {u c : Nat}

theorem execWFree_setCap (h : CapHidden s u c) :
    SameButCap u (execWFree u s) (execWFree u (s.setCap u c)) :=
  runWriter_setCap h fun _ _ => ⟨c, rfl⟩

theorem execWWrite_setCap (tw : TypeWidth) (nb : Nat) (h : CapHidden s u c) :
    SameButCap u (execWWrite u tw nb s) (execWWrite u tw nb (s.setCap u c)) := by
  refine runWriter_setCap h fun v hv => ⟨max c (ceil8 (v.unit.cur + nb)), ?_⟩
  simp only [withCap_cur, ensureCap_withCap hv]
  split
  · rfl
  · cases ensureCap s.ownMax v (v.unit.cur + nb) .writeCapacity with
    | error k => rfl
    | ok w => simp only [Except.map, writeField_withCap, WriterEnd.withCap_done]

theorem execWWbit_setCap (h : CapHidden s u c) :
    SameButCap u (execWWbit u s) (execWWbit u (s.setCap u c)) := by
  refine runWriter_setCap h fun v hv => ⟨max c (ceil8 (v.unit.cur + 1)), ?_⟩
  simp only [withCap_cur, ensureCap_withCap hv]
  cases ensureCap s.ownMax v (v.unit.cur + 1) .writeCapacity with
  | error k => rfl
  | ok w => simp only [Except.map, writeField_withCap, WriterEnd.withCap_done]

theorem execWAppend_setCap (h : CapHidden s u c) :
    SameButCap u (execWAppend u s) (execWAppend u (s.setCap u c)) := by
  refine runWriterWith_setCap h fun v hv =>
    ⟨max c (ceil8 (v.unit.cur + 8 * s.pkt.payload.length)), ?_⟩
  simp only [withCap_cur, withCap_valid, ensureCap_withCap hv]
  cases ensureCap s.ownMax v (v.unit.cur + 8 * s.pkt.payload.length) .appendCapacity with
  | error k => rfl
  | ok w =>
    simp only [Except.map, appendBytes_withCap, setCur_withCap, WriterEnd.withCap_done]
    split <;> rfl

theorem execWInsert_setCap (tw : TypeWidth) (nb : Nat) (h : CapHidden s u c) :
    SameButCap u (execWInsert u tw nb s) (execWInsert u tw nb (s.setCap u c)) := by
  refine runWriter_setCap h fun v hv => ?_
  simp only [withCap_cur, withCap_valid, checkCap_withCap hv, extractBits_withCap]
  by_cases hwidth : nb > typeBits tw
  · exact ⟨c, by simp only [if_pos hwidth]; rfl⟩
  by_cases hp : s.pkt.b.toNat > v.unit.valid
  · exact ⟨c, by simp only [if_neg hwidth, if_pos hp]; rfl⟩
  simp only [if_neg hwidth, if_neg hp]
  cases checkCap s.ownMax v (v.unit.valid + nb) .insertCapacity with
  | some k => exact ⟨c, rfl⟩
  | none =>
    by_cases hnb : nb = 0
    · exact ⟨c, by simp only [if_pos hnb]; rfl⟩
    obtain ⟨c₁, htrunc, htwin⟩ := truncateTo_withCap hv _ (Nat.not_lt.1 hp)
    refine ⟨max c₁ (ceil8 (v.unit.valid + nb)), ?_⟩
    simp only [if_neg hnb, htrunc, ensureCap_withCap htwin]
    cases ensureCap s.ownMax (truncateTo v s.pkt.b.toNat) (v.unit.valid + nb) .insertCapacity with
    | error k => rfl
    | ok w => simp only [Except.map, tailWrite_withCap, setCur_withCap, WriterEnd.withCap_done]

theorem execWErase_setCap (h : CapHidden s u c) :
    SameButCap u (execWErase u s) (execWErase u (s.setCap u c)) := by
  refine runWriter_setCap h fun v hv => ?_
  simp only [withCap_cur, withCap_valid, extractBits_withCap]
  by_cases hrange : s.pkt.a.toNat + s.pkt.b.toNat > v.unit.valid
  · exact ⟨c, by simp only [hrange, if_true]; rfl⟩
  by_cases hn : s.pkt.b.toNat = 0
  · exact ⟨c, by simp only [hrange, if_false, if_pos hn]; rfl⟩
  obtain ⟨c₁, htrunc, htwin⟩ := truncateTo_withCap hv s.pkt.a.toNat (by omega)
  refine ⟨max c₁ (ceil8 (v.unit.valid - s.pkt.b.toNat)), ?_⟩
  simp only [hrange, if_false, if_neg hn, htrunc, ensureCap_withCap htwin]
  cases ensureCap s.ownMax (truncateTo v s.pkt.a.toNat) (v.unit.valid - s.pkt.b.toNat)
    .eraseRange with
  | error k => rfl
  | ok w => simp only [Except.map, tailWrite_withCap, setCur_withCap, WriterEnd.withCap_done]

theorem resizeCheck_withCap {own : Nat} {v : WriterView} (h : CapTwin v c) (len : Nat) :
    resizeCheck own (v.withCap c) len = resizeCheck own v len := by
  have howned : (v.withCap c).unit.mode = .owned := h.owned
  simp only [resizeCheck, howned, h.owned]

/-- The capacity check of W.RESIZE leaves no view. -/
theorem withCap_of_resizeCheck {own len : Nat} {v : WriterView} {e : WriterEnd} (c' : Nat)
    (h : resizeCheck own v len = some e) : e.withCap c' = e := by
  unfold resizeCheck at h
  split at h <;> split at h <;> cases h <;> rfl

theorem execWResize_setCap (h : CapHidden s u c) :
    SameButCap u (execWResize u s) (execWResize u (s.setCap u c)) := by
  refine runWriter_setCap h fun v hv => ?_
  simp only [withCap_cur, withCap_valid, resizeCheck_withCap hv]
  cases hcheck : resizeCheck s.ownMax v s.pkt.a.toNat with
  | some e => exact ⟨c, (withCap_of_resizeCheck c hcheck).symm⟩
  | none =>
    by_cases hgrow : s.pkt.a.toNat > v.unit.valid
    · refine ⟨max c (ceil8 s.pkt.a.toNat), ?_⟩
      simp only [if_pos hgrow, ensureCap_withCap hv]
      cases ensureCap s.ownMax v s.pkt.a.toNat .resizeExtCapacity with
      | error k => rfl
      | ok w => simp only [Except.map, tailWrite_withCap, setCur_withCap, WriterEnd.withCap_done]
    · obtain ⟨c₁, htrunc, -⟩ := truncateTo_withCap hv _ (Nat.not_lt.1 hgrow)
      exact ⟨c₁, by simp only [if_neg hgrow, htrunc]; rfl⟩

theorem execWSeek_setCap (org : Origin) (h : CapHidden s u c) :
    SameButCap u (execWSeek u org s) (execWSeek u org (s.setCap u c)) := by
  refine runWriter_setCap h fun v _ => ⟨c, ?_⟩
  simp only [withCap_cur, withCap_valid]
  split <;> rfl

theorem execWAlign_setCap (h : CapHidden s u c) :
    SameButCap u (execWAlign u s) (execWAlign u (s.setCap u c)) :=
  runWriter_setCap h fun v _ => ⟨c, by simp⟩

theorem execWReserve_setCap (h : CapHidden s u c) :
    SameButCap u (execWReserve u s) (execWReserve u (s.setCap u c)) := by
  refine runWriter_setCap h fun v hv => ?_
  simp only [withCap_mode, hv.owned, growOwned_withCap hv]
  split
  · exact ⟨c, rfl⟩
  · exact ⟨_, rfl⟩

theorem execWCopy_setCap (h : CapHidden s u c) :
    SameButCap u (execWCopy u s) (execWCopy u (s.setCap u c)) := by
  refine runWriter_setCap h fun v hv => ⟨c, ?_⟩
  simp only [withCap_mode, hv.owned]; rfl

theorem execWDump_setCap (h : CapHidden s u c) :
    SameButCap u (execWDump u s) (execWDump u (s.setCap u c)) :=
  runWriter_setCap h fun _ _ => ⟨c, rfl⟩

/-- W.TELL, W.NBITS, W.NBYTES and W.PTR answer with a register that is not CAP (43 R181 to R184). -/
theorem writerAnswer_setCap {r : WriterView → Word} (h : CapHidden s u c)
    (hr : ∀ v, r (v.withCap c) = r v) :
    SameButCap u (runWriter s u fun v => .done v (r v) [])
      (runWriter (s.setCap u c) u fun v => .done v (r v) []) :=
  runWriter_setCap h fun v _ => ⟨c, by rw [hr v]; rfl⟩

/-- Every command of the writer itself does the same whatever CAP is. -/
theorem exec_setCap_self (i : Instr) (hi : i.namesWriter = true) (h : CapHidden s i.unitIndex c) :
    SameButCap i.unitIndex (exec i s) (exec i (s.setCap i.unitIndex c)) := by
  cases i with
  | wInito u => exact bindWriter_setCap h
  | wAttach u => exact bindWriter_setCap h
  | wFree u => exact execWFree_setCap h
  | wWrite u tw nb => exact execWWrite_setCap tw nb h
  | wWbit u => exact execWWbit_setCap h
  | wAppend u => exact execWAppend_setCap h
  | wInsert u tw nb => exact execWInsert_setCap tw nb h
  | wErase u => exact execWErase_setCap h
  | wResize u => exact execWResize_setCap h
  | wSeek u org => exact execWSeek_setCap org h
  | wAlign u => exact execWAlign_setCap h
  | wReserve u => exact execWReserve_setCap h
  | wTell u => exact writerAnswer_setCap (r := fun v => BitVec.ofNat 64 v.unit.cur) h fun _ => rfl
  | wNbits u => exact writerAnswer_setCap (r := fun v => BitVec.ofNat 64 v.unit.valid) h fun _ => rfl
  | wNbytes u =>
    exact writerAnswer_setCap (r := fun v => BitVec.ofNat 64 (ceil8 v.unit.valid)) h fun _ => rfl
  | wPtr u => exact writerAnswer_setCap (r := fun v => v.unit.base) h fun _ => rfl
  | wCopy u => exact execWCopy_setCap h
  | wDump u => exact execWDump_setCap h
  | rAttach u | rAttache u | rAttachp u | rFree u | rReadu u tw nb | rReads u tw nb | rSeek u org
  | rTell u | rLeft u | rNbits u | rNbytes u | rEof u | rPtr u | rDump u => cases hi

end

end Sys2Proof.Machine
end

section
open Sys2Proof Sys2Proof.Machine

/-- Settles O59: a command of the writer itself does not see its CAP, and a command of another unit does
not see the writer at all. -/
theorem ownedCapacityIsHidden : Obligations.OwnedCapacityIsHidden := by
  intro i s t u c s' hu hready howned hsound hsound' hpadded hpadded' _ hexec
  have hmem : s.writer u ∈ s.writers := s.writer_mem u hu
  have hself : s'.writer u = { s.writer u with cap := c } := State.writer_setWriter_self _ _ _ hu
  have hmem' : { s.writer u with cap := c } ∈ s'.writers := by
    rw [← hself]
    exact s'.writer_mem u (by rwa [State.nw_setWriter])
  have hs := hsound.2.1 _ hmem hready
  have hs' := hsound'.2.1 _ hmem' hready
  have hhidden : CapHidden s u c :=
    ⟨hu, hready, hs, hs', howned, hs.2.1, hs'.2.1, (hpadded _ hmem hready).1.1 howned,
      (hpadded' _ hmem' hready).1.1 howned⟩
  have hsame : ∃ c', exec i s' = .next (t.setCap u c') := by
    by_cases hi : i.namesWriter = true ∧ i.unitIndex = u
    · obtain ⟨hw, rfl⟩ := hi
      exact exec_setCap_self i hw hhidden t hexec
    · have hother : i.namesWriter = false ∨ i.unitIndex ≠ u := by
        cases hw : i.namesWriter
        · exact .inl rfl
        · exact .inr fun hiu => hi ⟨hw, hiu⟩
      have hmap := exec_mapWriter_other i s u (fun x => { x with cap := c }) hother
      rw [hexec] at hmap
      exact ⟨c, hmap⟩
  obtain ⟨c', hnext⟩ := hsame
  exact ⟨_, hnext, rfl, rfl, rfl, rfl, setCap_writer_cap t u c'⟩

end

section
/-! SUPPORT. The bit primitives byte by byte and bit by bit (20_memory R70 to R74): which bytes and XMEM
addresses PutChunk touches, and which bits GetChunk answers. -/
namespace Sys2Proof.Machine

/-! ### Where a storing operation touches XMEM -/

/-- XMEM changed at most where the storage bytes with indices in `P` lie, and not at all if the writer is
OWNED (20_memory R62, R66). -/
structure StoresAt (P : Nat → Prop) (v w : WriterView) : Prop where
  mode : w.unit.mode = v.unit.mode
  base : w.unit.base = v.unit.base
  owned : v.unit.mode = .owned → w.xmem = v.xmem
  outside : ∀ a, (∀ k, P k → a ≠ regionAddr v.unit.base k) → w.xmem.read a = v.xmem.read a

/-- An operation that leaves XMEM alone stores nowhere. -/
theorem StoresAt.of_xmem_eq {P : Nat → Prop} {v w : WriterView} (hmode : w.unit.mode = v.unit.mode)
    (hbase : w.unit.base = v.unit.base) (hx : w.xmem = v.xmem) : StoresAt P v w :=
  ⟨hmode, hbase, fun _ => hx, fun _ _ => by rw [hx]⟩

theorem StoresAt.refl {P : Nat → Prop} (v : WriterView) : StoresAt P v v := .of_xmem_eq rfl rfl rfl

theorem StoresAt.trans {P : Nat → Prop} {u v w : WriterView} (h : StoresAt P u v)
    (g : StoresAt P v w) : StoresAt P u w where
  mode := g.mode.trans h.mode
  base := g.base.trans h.base
  owned ho := (g.owned (h.mode.trans ho)).trans (h.owned ho)
  outside a ha := (g.outside a fun k hk => by rw [h.base]; exact ha k hk).trans (h.outside a ha)

theorem storesAt_setByte {P : Nat → Prop} (v : WriterView) (k : Nat) (b : Byte) (hk : P k) :
    StoresAt P v (v.setByte k b) := by
  obtain ⟨-, howned, hext⟩ := v.setByte_frame k b
  refine ⟨by simp, by simp, fun ho => (howned ho).1, fun a ha => ?_⟩
  cases hm : v.unit.mode with
  | owned => rw [(howned hm).1]
  | external => rw [(hext hm).2, Memory.read_write_other _ _ _ _ (ha k hk)]

/-- PutChunk stores at the cursor's byte, and at the next one only when the chunk straddles the byte
boundary (20_memory R66). -/
theorem storesAt_putChunk {P : Nat → Prop} (v : WriterView) (chunk : Byte) (k : Nat)
    (hfst : P (v.unit.cur / 8)) (hsnd : 8 < v.unit.cur % 8 + k → P (v.unit.cur / 8 + 1)) :
    StoresAt P v (putChunk v chunk k) := by
  rcases putChunk_cases v chunk k with ⟨-, b, h⟩ | ⟨hover, b, b', h⟩ <;> rw [h]
  · exact (storesAt_setByte v _ b hfst).trans (.of_xmem_eq rfl rfl rfl)
  · exact ((storesAt_setByte v _ b hfst).trans (storesAt_setByte _ _ b' (hsnd hover))).trans
      (.of_xmem_eq rfl rfl rfl)

/-! ### The bytes and the registers after PutChunk -/

theorem byte_putChunk_other (v : WriterView) (chunk : Byte) (k b : Nat) (hfst : b ≠ v.unit.cur / 8)
    (hsnd : v.unit.cur % 8 + k ≤ 8 ∨ b ≠ v.unit.cur / 8 + 1) :
    (putChunk v chunk k).byte b = v.byte b := by
  rcases putChunk_cases v chunk k with ⟨-, x, h⟩ | ⟨hover, x, x', h⟩ <;>
    rw [h, WriterView.byte_advance, WriterView.byte_setByte]
  · rw [if_neg hfst]
  · rw [if_neg (by omega), WriterView.byte_setByte, if_neg hfst]

/-- Of the registers PutChunk moves CUR and VALID alone (20_memory R70). -/
theorem putChunk_unit (v : WriterView) (chunk : Byte) (k : Nat) :
    (putChunk v chunk k).unit =
      { v.unit with cur := v.unit.cur + k, valid := max v.unit.valid (v.unit.cur + k),
                    omem := (putChunk v chunk k).unit.omem } := by
  have hs := sameStorage_putChunk v chunk k
  dsimp only
  rw [← putChunk_valid v chunk k, ← putChunk_cur v chunk k, ← putChunk_cap v chunk k, ← hs.st,
    ← hs.mode, ← hs.base]

/-! ### The value of a bit string -/

theorem bitsVal_concat (s : BitString) (b : Bool) : bitsVal (s ++ [b]) = 2 * bitsVal s + b.toNat := by
  rw [bitsVal_append, Nat.mul_comm]
  cases b <;> rfl

/-- The last bit of a string is the least significant of its value (00_scope R10). -/
theorem testBit_bitsVal (s : BitString) (j : Nat) :
    (bitsVal s).testBit j = s.reverse.getD j false := by
  induction s using List.reverseRecOn generalizing j with
  | nil => simp
  | append_singleton s b ih =>
    rw [bitsVal_concat, List.reverse_concat]
    cases j with
    | zero => cases b <;> simp
    | succ j =>
      have hhalf : (2 * bitsVal s + b.toNat) / 2 = bitsVal s := by
        cases b <;> simp only [Bool.toNat_true, Bool.toNat_false] <;> omega
      rw [Nat.testBit_succ, hhalf, ih, List.getD_cons_succ]

theorem testBit_bitsVal_bitsBetween (f : Nat → Byte) (c k j : Nat) :
    (bitsVal (bitsBetween f c (c + k))).testBit j = (decide (j < k) && bitAt f (c + k - 1 - j)) := by
  have hlen : (bitsBetween f c (c + k)).length = k := by simp
  rw [testBit_bitsVal, List.getD_eq_getElem?_getD]
  by_cases hj : j < k
  · rw [List.getElem?_reverse (by rwa [hlen]), hlen, getElem?_bitsBetween _ _ _ _ (by omega)]
    simp [hj, show c + (k - 1 - j) = c + k - 1 - j by omega]
  · rw [List.getElem?_eq_none (by rw [List.length_reverse, hlen]; omega)]
    simp [hj]

/-! ### The read primitive -/

/-- Bit `j` of a chunk of `k` bits read at bit `c`: the storage's bits in order, the first the most
significant (20_memory R73). -/
theorem getLsbD_chunkAt (f : Nat → Byte) (c k j : Nat) (hk : k ≤ 8) :
    (chunkAt f c k).getLsbD j = (decide (j < k) && bitAt f (c + k - 1 - j)) := by
  unfold chunkAt bitAt
  by_cases hj : j < k
  · by_cases hfit : c % 8 + k ≤ 8
    · have hbyte : (c + k - 1 - j) / 8 = c / 8 := by omega
      have hbit : 7 - (c + k - 1 - j) % 8 = 8 - c % 8 - k + j := by omega
      simp [hfit, hbyte, hbit, hj, getLsbD_mask, show j < 8 by omega]
    · simp only [hfit, if_false, BitVec.getLsbD_setWidth, BitVec.getLsbD_and,
        BitVec.getLsbD_ushiftRight, getLsbD_mask, getLsbD_windowOf, hj, show j < 8 by omega,
        show j < 16 by omega, decide_true, Bool.and_true, Bool.true_and]
      by_cases hsnd : 16 - c % 8 - k + j < 8
      · have hbyte : (c + k - 1 - j) / 8 = c / 8 + 1 := by omega
        have hbit : 7 - (c + k - 1 - j) % 8 = 16 - c % 8 - k + j := by omega
        rw [if_pos hsnd, hbyte, hbit]
      · have hbyte : (c + k - 1 - j) / 8 = c / 8 := by omega
        have hbit : 7 - (c + k - 1 - j) % 8 = 16 - c % 8 - k + j - 8 := by omega
        rw [if_neg hsnd, hbyte, hbit]
  · by_cases hfit : c % 8 + k ≤ 8 <;> simp [hfit, hj, getLsbD_mask]

theorem toNat_chunkAt (f : Nat → Byte) (c k : Nat) (hk : k ≤ 8) :
    (chunkAt f c k).toNat = bitsVal (bitsBetween f c (c + k)) := by
  refine Nat.eq_of_testBit_eq fun j => ?_
  rw [testBit_bitsVal_bitsBetween, ← getLsbD_chunkAt f c k j hk, BitVec.testBit_toNat]

/-- A chunk whose bits stand in the storage from bit `c` on is what a read there gives. -/
theorem chunkAt_eq_of_bits (f : Nat → Byte) (chunk : Byte) (c k : Nat) (hk : k ≤ 8)
    (hfit : chunk.toNat < 2 ^ k)
    (h : ∀ j, j < k → bitAt f (c + j) = chunk.getLsbD (k - 1 - j)) : chunkAt f c k = chunk := by
  refine BitVec.eq_of_getLsbD_eq fun j _ => ?_
  rw [getLsbD_chunkAt f c k j hk]
  by_cases hj : j < k
  · have hbit := h (k - 1 - j) (by omega)
    rw [show c + (k - 1 - j) = c + k - 1 - j by omega, show k - 1 - (k - 1 - j) = j by omega] at hbit
    rw [decide_eq_true hj, Bool.true_and, hbit]
  · rw [decide_eq_false hj, Bool.false_and, getLsbD_eq_false_of_toNat_lt chunk k j hfit (by omega)]

/-- The bits PutChunk leaves where it wrote (20_memory R70). -/
theorem bitAt_putChunk_inside (v : WriterView) (chunk : Byte) (k j : Nat) (hk : k ≤ 8)
    (hfit : chunk.toNat < 2 ^ k) (hj : j < k) :
    bitAt (putChunk v chunk k).byte (v.unit.cur + j) = chunk.getLsbD (k - 1 - j) := by
  rw [bitAt_putChunk _ _ _ _ hk hfit, if_pos (by omega)]
  congr 1; omega

end Sys2Proof.Machine
end

section
open Sys2Proof Sys2Proof.Machine

/-- Settles O16: PutChunk is one byte write or two, of the window with the chunk's bits replaced. -/
theorem putChunkWritesExactlyItsBits : Obligations.PutChunkWritesExactlyItsBits := by
  intro v chunk k _ hk hfit c w
  have hstorage : SameStorage v w := sameStorage_putChunk v chunk k
  refine ⟨fun j hj => bitAt_putChunk_inside v chunk k j hk hfit hj, fun i hi => ?_,
    fun b hfst hsnd => byte_putChunk_other v chunk k b hfst hsnd, hstorage.xmem, fun he => ?_,
    putChunk_unit v chunk k⟩
  · rw [bitAt_putChunk _ _ _ _ hk hfit, if_neg (by omega)]
  · refine ⟨hstorage.omem he, fun a hfst hsnd => ?_⟩
    have hstores : StoresAt (fun b => b = c / 8 ∨ 8 < c % 8 + k ∧ b = c / 8 + 1) v w :=
      storesAt_putChunk v chunk k (.inl rfl) fun hover => .inr ⟨hover, rfl⟩
    refine hstores.outside a fun b hb => ?_
    rcases hb with rfl | ⟨hover, rfl⟩
    · exact hfst
    · exact hsnd.resolve_left (by omega)

/-- Settles O17: the bits of the window read are the storage's bits from the cursor on. -/
theorem getChunkReadsItsBits : Obligations.GetChunkReadsItsBits := by
  intro v k _ hk c
  have hval : (getChunk v k).1.toNat = bitsVal (bitsBetween v.byte c (c + k)) :=
    toNat_chunkAt v.byte c k hk
  refine ⟨hval, ?_, rfl⟩
  have hlt := bitsVal_lt (bitsBetween v.byte c (c + k))
  rwa [length_bitsBetween, Nat.add_sub_cancel_left, ← hval] at hlt

/-- Settles O18: PutChunk leaves the chunk's bits at the cursor, and GetChunk collects them again. -/
theorem windowSymmetry : Obligations.WindowSymmetry := by
  intro v r chunk k _ hk hfit hcur hkept
  have hread : (getChunk r k).1 = chunkAt r.byte v.unit.cur k := by rw [← hcur]; rfl
  rw [hread]
  exact chunkAt_eq_of_bits _ _ _ _ hk hfit fun j hj =>
    (hkept j hj).trans (bitAt_putChunk_inside v chunk k j hk hfit hj)

end

section
/-! SUPPORT. Where a command of an EXTERNAL writer stores: within its region, whatever elementary changes
its rule is made of (20_memory R66). -/
namespace Sys2Proof.Machine

/-- An EXTERNAL writer has kept its region and its valid content inside it, and XMEM is as it was outside
the region. -/
structure KeptRegion (v w : WriterView) : Prop where
  cap : w.unit.cap = v.unit.cap
  fits : w.unit.valid ≤ 8 * w.unit.cap
  stores : StoresAt (· < v.unit.cap) v w

theorem KeptRegion.trans {u v w : WriterView} (h : KeptRegion u v) (g : KeptRegion v w) :
    KeptRegion u w where
  cap := g.cap.trans h.cap
  fits := g.fits
  stores := h.stores.trans (h.cap ▸ g.stores)

/-! ### Truncation -/

theorem storesAt_zeroBytes {P : Nat → Prop} (n : Nat) : ∀ (v : WriterView) (k : Nat),
    (∀ j, k ≤ j → j < k + n → P j) → StoresAt P v (zeroBytes v k n) := by
  induction n with
  | zero => exact fun v _ _ => .refl v
  | succ n ih =>
    intro v k hP
    exact (storesAt_setByte v k 0 (hP k (by omega) (by omega))).trans
      (ih _ _ fun j hlo hhi => hP j (by omega) (by omega))

theorem storesAt_maskLastByte {P : Nat → Prop} (v : WriterView) (len : Nat)
    (hP : len % 8 ≠ 0 → P (len / 8)) : StoresAt P v (maskLastByte v len) := by
  unfold maskLastByte
  by_cases h : len % 8 = 0
  · rw [if_pos h]; exact .refl v
  · rw [if_neg h]; exact storesAt_setByte v _ _ (hP h)

/-- Truncating external content clears bytes up to the last one that held valid content (42 R161). -/
theorem keptRegion_truncateTo (v : WriterView) (len : Nat) (he : v.unit.mode = .external)
    (hlen : len ≤ v.unit.valid) (hfits : v.unit.valid ≤ 8 * v.unit.cap) :
    KeptRegion v (truncateTo v len) := by
  by_cases hne : len = v.unit.valid
  · rw [hne, truncateTo_valid_self]; exact ⟨rfl, hfits, .refl v⟩
  · have hold : ceil8 v.unit.valid ≤ v.unit.cap := (ceil8_le_iff _ _).2 hfits
    have hcap : (truncateTo v len).unit.cap = v.unit.cap := by
      rw [truncateTo_external v len he hne, WriterView.setValid_cap, (zeroBytes_spec _ _ _).2.1,
        (sameStorage_maskLastByte v len).2]
    refine ⟨hcap, ?_, ?_⟩
    · rw [(sameStorage_truncateTo v len).2.1, hcap]; exact Nat.le_trans hlen hfits
    · rw [truncateTo_external v len he hne]
      refine ((storesAt_maskLastByte v len fun _ => ?_).trans
        (storesAt_zeroBytes _ _ _ fun j _ hj => ?_)).trans (.of_xmem_eq rfl rfl rfl) <;> omega

/-! ### Elementary changes and paths of them -/

theorem WriterChange.keptRegion {own : Nat} {v w : WriterView} (h : WriterChange own v w)
    (he : v.unit.mode = .external) (hfits : v.unit.valid ≤ 8 * v.unit.cap) : KeptRegion v w := by
  cases h with
  | setCur c _ => exact ⟨rfl, hfits, .of_xmem_eq rfl rfl rfl⟩
  | put chunk k hpos _ _ hroom =>
    refine ⟨putChunk_cap v chunk k, ?_, storesAt_putChunk v chunk k ?_ fun _ => ?_⟩
    · rw [putChunk_valid, putChunk_cap]; omega
    · omega
    · omega
  | grow n ho _ => rw [he] at ho; cases ho
  | cut len hlen =>
    obtain ⟨hcap, hfit, hstores⟩ := keptRegion_truncateTo v len he hlen hfits
    exact ⟨hcap, hfit, hstores.trans (.of_xmem_eq rfl rfl rfl)⟩
  | free => exact ⟨rfl, hfits, .of_xmem_eq rfl rfl rfl⟩

theorem WriterPath.keptRegion {own : Nat} {v w : WriterView} (h : WriterPath own v w)
    (he : v.unit.mode = .external) (hfits : v.unit.valid ≤ 8 * v.unit.cap) : KeptRegion v w := by
  induction h with
  | refl => exact ⟨rfl, hfits, .refl v⟩
  | tail _ hstep ih => exact ih.trans (hstep.keptRegion (ih.stores.mode.trans he) ih.fits)

/-- No elementary change of an OWNED writer touches XMEM. -/
theorem WriterChange.xmem_owned {own : Nat} {v w : WriterView} (h : WriterChange own v w)
    (ho : v.unit.mode = .owned) : w.unit.mode = .owned ∧ w.xmem = v.xmem := by
  rcases h.sameStorage with hs | rfl
  · exact ⟨hs.mode.trans ho, hs.xmem ho⟩
  · exact ⟨ho, rfl⟩

theorem WriterPath.xmem_owned {own : Nat} {v w : WriterView} (h : WriterPath own v w)
    (ho : v.unit.mode = .owned) : w.unit.mode = .owned ∧ w.xmem = v.xmem := by
  induction h with
  | refl => exact ⟨ho, rfl⟩
  | tail _ hstep ih =>
    obtain ⟨hmode, hx⟩ := hstep.xmem_owned ih.1
    exact ⟨hmode, hx.trans ih.2⟩

/-- XMEM is as it was outside writer `u`'s region, and everywhere if the writer is OWNED (20_memory R62,
R66). -/
abbrev RegionStoredOnly (s t : State) (u : Nat) : Prop :=
  ((s.writer u).mode = .owned → t.xmem = s.xmem) ∧
  ∀ a, (∀ k, k < (s.writer u).cap → a ≠ regionAddr (s.writer u).base k) →
    t.xmem.read a = s.xmem.read a

theorem regionStoredOnly_of_xmem_eq {s t : State} (u : Nat) (h : t.xmem = s.xmem) :
    RegionStoredOnly s t u := ⟨fun _ => h, fun _ _ => by rw [h]⟩

/-- A command stores at most in the region of the writer its UID numbers. -/
theorem Ended.regionStoredOnly {i : Instr} {s t : State} (h : Ended i s t) :
    RegionStoredOnly s t i.unitIndex := by
  cases h with
  | writerDone _ _ hsound hpath _ =>
    cases hm : (s.writer i.unitIndex).mode with
    | owned => exact regionStoredOnly_of_xmem_eq _ (hpath.xmem_owned hm).2
    | external =>
      have hstores := (hpath.keptRegion hm hsound.2.1).stores
      exact ⟨fun ho => hstores.owned ho, fun a ha => hstores.outside a ha⟩
  | raised c => exact regionStoredOnly_of_xmem_eq _ rfl
  | faulted c => exact regionStoredOnly_of_xmem_eq _ rfl
  | readerDone _ _ _ => exact regionStoredOnly_of_xmem_eq _ rfl
  | writerBound _ => exact regionStoredOnly_of_xmem_eq _ rfl
  | readerBound _ => exact regionStoredOnly_of_xmem_eq _ rfl

/-! ### The units a command leaves alone -/

theorem onlyWriterChanged_refl (s : State) (u : Nat) : OnlyWriterChanged s s u :=
  ⟨rfl, fun _ _ => rfl, rfl⟩

theorem onlyWriterChanged_setWriter (s : State) (u : Nat) (x : Writer) :
    OnlyWriterChanged s (s.setWriter u x) u :=
  ⟨State.nw_setWriter s u x, fun w hw => State.writer_setWriter_other s u w x hw, rfl⟩

theorem onlyReaderChanged_refl (s : State) (r : Nat) : OnlyReaderChanged s s r :=
  ⟨rfl, fun _ _ => rfl, rfl⟩

theorem onlyReaderChanged_setReader (s : State) (r : Nat) (x : Reader) :
    OnlyReaderChanged s (s.setReader r x) r :=
  ⟨State.nr_setReader s r x, fun q hq => State.reader_setReader_other s r q x hq, rfl⟩

/-- A writer command changes no unit but its own (10_state R22). -/
theorem exec_onlyWriterChanged {i : Instr} {s t : State} (hw : i.namesWriter = true)
    (h : exec i s = .next t) : OnlyWriterChanged s t i.unitIndex := by
  rcases exec_shape i s with ⟨-, -, rule, e⟩ | ⟨hr, -⟩ | ⟨-, -, made, e⟩ | ⟨hr, -⟩
  · rw [e] at h
    rcases runWriterWith_next _ _ _ _ _ h with ⟨c, -, -, rfl⟩ | ⟨-, -, -, -, hend⟩
    · exact onlyWriterChanged_refl s _
    · rcases hend with ⟨v, r, d, -, rfl⟩ | ⟨c, -, rfl⟩ | ⟨c, -, rfl⟩
      · exact onlyWriterChanged_setWriter s _ v.unit
      · exact onlyWriterChanged_refl s _
      · exact onlyWriterChanged_setWriter s _ _
  · rw [hw] at hr; cases hr
  · rw [e] at h
    rcases bindWriter_cases s i.unitIndex made with
      ⟨c, -, -, e'⟩ | ⟨-, ⟨c, -, e'⟩ | ⟨x, -, e'⟩⟩ <;> rw [e'] at h <;> cases h
    · exact onlyWriterChanged_refl s _
    · exact onlyWriterChanged_refl s _
    · exact onlyWriterChanged_setWriter s _ x
  · rw [hw] at hr; cases hr

/-- A reader command changes no unit but its own, and no storage (10_state R22, R32). -/
theorem exec_onlyReaderChanged {i : Instr} {s t : State} (hr : i.namesWriter = false)
    (h : exec i s = .next t) : OnlyReaderChanged s t i.unitIndex ∧ t.xmem = s.xmem := by
  rcases exec_shape i s with ⟨hw, -⟩ | ⟨-, -, rule, e⟩ | ⟨hw, -⟩ | ⟨-, -, made, e⟩
  · rw [hr] at hw; cases hw
  · rw [e] at h
    rcases runReader_next _ _ _ _ h with ⟨c, -, -, rfl⟩ | ⟨-, hend⟩
    · exact ⟨onlyReaderChanged_refl s _, rfl⟩
    · rcases hend with ⟨x, r, d, -, rfl⟩ | ⟨c, -, rfl⟩
      · exact ⟨onlyReaderChanged_setReader s _ x, rfl⟩
      · exact ⟨onlyReaderChanged_refl s _, rfl⟩
  · rw [hr] at hw; cases hw
  · rw [e] at h
    rcases bindReader_cases s i.unitIndex made with
      ⟨c, -, -, e'⟩ | ⟨-, ⟨c, -, e'⟩ | ⟨x, -, e'⟩⟩ <;> rw [e'] at h <;> cases h
    · exact ⟨onlyReaderChanged_refl s _, rfl⟩
    · exact ⟨onlyReaderChanged_refl s _, rfl⟩
    · exact ⟨onlyReaderChanged_setReader s _ x, rfl⟩

end Sys2Proof.Machine
end

section
open Sys2Proof Sys2Proof.Machine

/-- Settles O57: the rule of a sound writer is a path of changes that stay in its region, and every way a
command can end puts back the unit it names alone. -/
theorem commandsStayInTheirUnitAndRegion : Obligations.CommandsStayInTheirUnitAndRegion :=
  fun _ _ _ h =>
    ⟨fun hw => ⟨exec_onlyWriterChanged hw h, (exec_ended h).regionStoredOnly⟩,
      fun hr => exec_onlyReaderChanged hr h⟩

end

section
/-! SUPPORT. The canonical form of the memories, step by step (20_memory R60; log 3, log 15). A reset in
the middle of a command needs that the span it may have written lies in XMEM (70_reset R270). -/
namespace Sys2Proof.Machine

/-- XMEM in canonical form, listing only addresses that exist (20_memory R60). -/
abbrev Memory.XmemCanonical (m : Memory) : Prop :=
  m.wf ∧ ∀ cell ∈ m, cell.1 < Config.addrSpace

/-- Canonical memories list an address above XMEM only if they read other than 0 there. -/
theorem Memory.xmemCanonical_of_frame {m n : Memory} (hm : m.XmemCanonical) (hn : n.wf)
    (hframe : ∀ a, Config.addrSpace ≤ a → n.read a = m.read a) : n.XmemCanonical := by
  refine ⟨hn, fun cell hcell => Nat.lt_of_not_le fun hge => ?_⟩
  have hread : m.read cell.1 = cell.2 := (hframe _ hge).symm.trans (Memory.read_mem n hn cell hcell)
  have hlisted := Memory.mem_of_read m cell.1 (by rw [hread]; exact hn.2 cell hcell)
  exact absurd (hm.2 _ hlisted) (Nat.not_lt.2 hge)

/-! ### The elementary changes -/

/-- No elementary change of a writer breaks the form of a memory. -/
theorem WriterChange.wf {own : Nat} {v w : WriterView} (h : WriterChange own v w)
    (hx : v.xmem.wf) (ho : v.unit.omem.wf) : w.xmem.wf ∧ w.unit.omem.wf := by
  rcases h.sameStorage with hs | rfl
  · exact ⟨hs.wfX hx, hs.wfO ho⟩
  · refine ⟨hx, ?_⟩
    show Memory.wf (if v.unit.mode = .owned then [] else v.unit.omem)
    split
    · exact Memory.wf_nil
    · exact ho

theorem WriterPath.wf {own : Nat} {v w : WriterView} (h : WriterPath own v w)
    (hx : v.xmem.wf) (ho : v.unit.omem.wf) : w.xmem.wf ∧ w.unit.omem.wf := by
  induction h with
  | refl => exact ⟨hx, ho⟩
  | tail _ hstep ih => exact hstep.wf ih.1 ih.2

theorem Writer.Fresh.omem_wf {own : Nat} {x : Writer} (h : x.Fresh own) : x.omem.wf := by
  cases h <;> exact Memory.wf_nil

/-! ### Commands, stores and resets -/

theorem State.MemoriesCanonical.commit {s : State} (h : s.MemoriesCanonical) (w : Nat)
    {v : WriterView} (hx : v.xmem.XmemCanonical) (ho : v.unit.omem.wf) :
    (s.commit w v).MemoriesCanonical :=
  ⟨hx.1, hx.2, forall_mem_set h.2.2 ho⟩

theorem State.MemoriesCanonical.setWriter {s : State} (h : s.MemoriesCanonical) (w : Nat) {x : Writer}
    (ho : x.omem.wf) : (s.setWriter w x).MemoriesCanonical :=
  ⟨h.1, h.2.1, forall_mem_set h.2.2 ho⟩

/-- The default of a unit that does not exist has empty storage. -/
theorem State.MemoriesCanonical.omem_wf {s : State} (h : s.MemoriesCanonical) (w : Nat) :
    (s.writer w).omem.wf := by
  by_cases hw : w < s.nw
  · exact h.2.2 _ (s.writer_mem w hw)
  · have hnone : s.writers[w]? = none := List.getElem?_eq_none (Nat.not_lt.1 hw)
    rw [State.writer, List.getD_eq_getElem?_getD, hnone]
    exact Memory.wf_nil

/-- A region that ends within XMEM has no byte at 2^64 or above. -/
theorem ne_regionAddr_of_addrSpace_le {base : Word} {cap a k : Nat}
    (hregion : base.toNat + cap ≤ Config.addrSpace) (ha : Config.addrSpace ≤ a) (hk : k < cap) :
    a ≠ regionAddr base k := by
  unfold regionAddr; omega

/-- Every command keeps the memories in canonical form. -/
theorem Ended.memoriesCanonical {i : Instr} {s t : State} (h : Ended i s t)
    (hs : s.MemoriesCanonical) : t.MemoriesCanonical := by
  have hregion := h.regionStoredOnly
  cases h with
  | raised c => exact hs
  | faulted c => exact hs.setWriter i.unitIndex (hs.omem_wf i.unitIndex)
  | writerDone _ _ hsound hpath _ =>
    obtain ⟨hx, ho⟩ := hpath.wf hs.1 (hs.omem_wf i.unitIndex)
    refine hs.commit i.unitIndex ?_ ho
    cases hm : (s.writer i.unitIndex).mode with
    | owned => rw [(hpath.xmem_owned hm).2]; exact ⟨hs.1, hs.2.1⟩
    | external =>
      exact Memory.xmemCanonical_of_frame ⟨hs.1, hs.2.1⟩ hx fun a ha => hregion.2 a fun k hk =>
        ne_regionAddr_of_addrSpace_le (hsound.2.2.2.1 hm) ha hk
  | readerDone _ _ _ => exact hs
  | writerBound hx => exact hs.setWriter i.unitIndex hx.omem_wf
  | readerBound _ => exact hs

theorem State.MemoriesCanonical.hostStore {s : State} (h : s.MemoriesCanonical) (a : Word) (v : Byte)
    (rest : List HostAct) : (s.hostStore a v rest).MemoriesCanonical := by
  obtain ⟨hwf, hlt, howned⟩ := h
  have hx : (s.xmem.write a.toNat v).XmemCanonical := by
    refine Memory.xmemCanonical_of_frame ⟨hwf, hlt⟩ (Memory.wf_write _ _ _ hwf) fun b hb => ?_
    have ha : a.toNat < Config.addrSpace := a.isLt
    exact Memory.read_write_other _ _ _ _ (by omega)
  exact ⟨hx.1, hx.2, howned⟩

/-- A reset empties every owned storage and leaves XMEM as it finds it (10_state R41). -/
theorem State.memoriesCanonical_applyReset (s : State) (hx : s.xmem.XmemCanonical) :
    s.applyReset.MemoriesCanonical := by
  refine ⟨hx.1, hx.2, fun x hmem => ?_⟩
  obtain ⟨-, -, rfl⟩ := List.mem_map.1 hmem
  exact Memory.wf_nil

/-! ### The span of a command that ends with OK -/

/-- The end of a rule is an error, or `Q` holds. -/
inductive WriterEnd.OkOnlyIf (Q : Prop) : WriterEnd → Prop
  | done {v : WriterView} {r : Word} {d : List Byte} (h : Q) : OkOnlyIf Q (.done v r d)
  | error {c : Cause} (h : c.status ≠ .ok) : OkOnlyIf Q (.error c)
  | faulted {c : Cause} (h : c.status ≠ .ok) : OkOnlyIf Q (.faulted c)

/-- A command of a READY writer that ends with OK was taken, and its rule did not end with an error. -/
theorem runWriterWith_ok {s t : State} {u : Nat} {p : Bool} {rule : WriterView → WriterEnd} {Q : Prop}
    (h : runWriterWith s u p rule = .next t) (hok : t.status = .ok)
    (hrule : (s.writer u).Sound s.ownMax → (rule (s.writerView u)).OkOnlyIf Q) :
    (s.writer u).Sound s.ownMax ∧ Q := by
  rcases runWriterWith_next _ _ _ _ _ h with ⟨c, hc, -, rfl⟩ | ⟨-, -, -, hsound, hend⟩
  · have hstatus : c.status = .ok := hok
    simp only [List.mem_cons, List.not_mem_nil, or_false] at hc
    rcases hc with rfl | rfl | rfl | rfl <;> cases hstatus
  · have hlaw := hrule hsound
    refine ⟨hsound, ?_⟩
    rcases hend with ⟨v, r, d, he, rfl⟩ | ⟨c, he, rfl⟩ | ⟨c, he, rfl⟩ <;> rw [he] at hlaw
    · cases hlaw with
      | done hq => exact hq
    · cases hlaw with
      | error hc => exact absurd hok hc
    · cases hlaw with
      | faulted hc => exact absurd hok hc

theorem runWriter_ok {s t : State} {u : Nat} {rule : WriterView → WriterEnd} {Q : Prop}
    (h : runWriter s u rule = .next t) (hok : t.status = .ok)
    (hrule : (s.writer u).Sound s.ownMax → (rule (s.writerView u)).OkOnlyIf Q) :
    (s.writer u).Sound s.ownMax ∧ Q :=
  runWriterWith_ok h hok hrule

/-- The bits the command may write lie in the region of its writer. -/
abbrev SpanFits (i : Instr) (s : State) : Prop :=
  (writeSpan i s.pkt (s.writer i.unitIndex)).2 ≤ 8 * (s.writer i.unitIndex).cap

theorem ensureCap_error_status {own need : Nat} {cause c : Cause} {v : WriterView}
    (h : ensureCap own v need cause = .error c) (hcause : cause.status ≠ .ok) : c.status ≠ .ok := by
  rcases ensureCap_cases own v need cause with
    ⟨-, -, e⟩ | ⟨-, -, e⟩ | ⟨-, -, e⟩ | ⟨-, -, e⟩ <;> rw [e] at h <;> cases h
  · exact hcause
  · decide

/-- An EXTERNAL region is not enlarged to make room (41 R143). -/
theorem ensureCap_ok_external {own need : Nat} {cause : Cause} {v w : WriterView}
    (h : ensureCap own v need cause = .ok w) (he : v.unit.mode = .external) :
    need ≤ 8 * v.unit.cap := by
  obtain ⟨rfl | ⟨n, ho, -⟩, hroom, -⟩ := ensureCap_ok h
  · exact hroom
  · rw [he] at ho; cases ho

theorem checkCap_some {own need : Nat} {cause c : Cause} {v : WriterView}
    (h : checkCap own v need cause = some c) : ensureCap own v need cause = .error c := by
  rw [checkCap_eq] at h
  split at h
  · next he => cases h; exact he
  · cases h

theorem checkCap_none {own need : Nat} {cause : Cause} {v : WriterView}
    (h : checkCap own v need cause = none) : ∃ w, ensureCap own v need cause = .ok w := by
  rw [checkCap_eq] at h
  split at h
  · cases h
  · next w hw => exact ⟨w, hw⟩

theorem resizeCheck_some_okOnlyIf {own len : Nat} {v : WriterView} {e : WriterEnd} {Q : Prop}
    (h : resizeCheck own v len = some e) : e.OkOnlyIf Q := by
  unfold resizeCheck at h
  split at h <;> split at h <;> cases h
  · exact .faulted (by decide)
  · exact .error (by decide)

theorem resizeCheck_none_external {own len : Nat} {v : WriterView}
    (h : resizeCheck own v len = none) (he : v.unit.mode = .external) : len ≤ 8 * v.unit.cap := by
  unfold resizeCheck at h
  rw [he] at h
  dsimp only at h
  split at h
  · cases h
  · omega

/-- The last byte with valid content lies in the region (10_state R25). -/
theorem Writer.Sound.ceil8_valid_le {own : Nat} {x : Writer} (h : x.Sound own) :
    ceil8 x.valid ≤ x.cap := (ceil8_le_iff _ _).2 h.2.1

theorem execWWrite_spanFits {u nb : Nat} {tw : TypeWidth} {s t : State}
    (h : execWWrite u tw nb s = .next t) (hok : t.status = .ok)
    (he : (s.writer u).mode = .external) :
    (s.writer u).Sound s.ownMax ∧ SpanFits (.wWrite u tw nb) s := by
  refine runWriter_ok h hok fun _ => ?_
  split
  · exact .error (by decide)
  · split
    · next hcap => exact .error (ensureCap_error_status hcap (by decide))
    · next hcap => exact .done (ensureCap_ok_external hcap he)

theorem execWWbit_spanFits {u : Nat} {s t : State} (h : execWWbit u s = .next t)
    (hok : t.status = .ok) (he : (s.writer u).mode = .external) :
    (s.writer u).Sound s.ownMax ∧ SpanFits (.wWbit u) s := by
  refine runWriter_ok h hok fun _ => ?_
  split
  · next hcap => exact .error (ensureCap_error_status hcap (by decide))
  · next hcap => exact .done (ensureCap_ok_external hcap he)

theorem execWAppend_spanFits {u : Nat} {s t : State} (h : execWAppend u s = .next t)
    (hok : t.status = .ok) (he : (s.writer u).mode = .external) :
    (s.writer u).Sound s.ownMax ∧ SpanFits (.wAppend u) s := by
  refine runWriterWith_ok h hok fun _ => ?_
  split
  · next hcap => exact .error (ensureCap_error_status hcap (by decide))
  · next hcap => exact .done (ensureCap_ok_external hcap he)

theorem execWAlign_spanFits {u : Nat} {s t : State} (h : execWAlign u s = .next t)
    (hok : t.status = .ok) : (s.writer u).Sound s.ownMax ∧ SpanFits (.wAlign u) s := by
  refine runWriter_ok h hok fun hsound => .done ?_
  obtain ⟨hcur, hvalid, -⟩ := hsound
  exact Nat.mul_le_mul_left 8 ((ceil8_le_iff _ _).2 (Nat.le_trans hcur hvalid))

theorem writeSpan_wInsert_le {u nb : Nat} {tw : TypeWidth} (p : Packet) {x : Writer}
    (hroom : x.valid + nb ≤ 8 * x.cap) (hold : ceil8 x.valid ≤ x.cap) :
    (writeSpan (.wInsert u tw nb) p x).2 ≤ 8 * x.cap := by
  unfold writeSpan
  dsimp only
  split
  · exact Nat.zero_le _
  · split
    · exact hroom
    · dsimp only; omega

theorem execWInsert_spanFits {u nb : Nat} {tw : TypeWidth} {s t : State}
    (h : execWInsert u tw nb s = .next t) (hok : t.status = .ok)
    (he : (s.writer u).mode = .external) :
    (s.writer u).Sound s.ownMax ∧ SpanFits (.wInsert u tw nb) s := by
  refine runWriter_ok h hok fun hsound => ?_
  dsimp only
  split
  · exact .error (by decide)
  · split
    · exact .error (by decide)
    · split
      · next hcheck => exact .error (ensureCap_error_status (checkCap_some hcheck) (by decide))
      · next hcheck =>
        obtain ⟨w, hw⟩ := checkCap_none hcheck
        have hfits : SpanFits (.wInsert u tw nb) s :=
          writeSpan_wInsert_le s.pkt (ensureCap_ok_external hw he) hsound.ceil8_valid_le
        split
        · exact .done hfits
        · split
          · next hcap => exact .error (ensureCap_error_status hcap (by decide))
          · exact .done hfits

theorem writeSpan_wErase_le {u : Nat} (p : Packet) {x : Writer} (hold : ceil8 x.valid ≤ x.cap) :
    (writeSpan (.wErase u) p x).2 ≤ 8 * x.cap := by
  unfold writeSpan
  dsimp only
  split
  · exact Nat.zero_le _
  · exact Nat.mul_le_mul_left 8 hold

theorem execWErase_spanFits {u : Nat} {s t : State} (h : execWErase u s = .next t)
    (hok : t.status = .ok) : (s.writer u).Sound s.ownMax ∧ SpanFits (.wErase u) s := by
  refine runWriter_ok h hok fun hsound => ?_
  have hfits : SpanFits (.wErase u) s := writeSpan_wErase_le s.pkt hsound.ceil8_valid_le
  dsimp only
  split
  · exact .error (by decide)
  · split
    · exact .done hfits
    · split
      · next hcap => exact .error (ensureCap_error_status hcap (by decide))
      · exact .done hfits

theorem writeSpan_wResize_le {u : Nat} (p : Packet) {x : Writer} (hlen : p.a.toNat ≤ 8 * x.cap)
    (hold : ceil8 x.valid ≤ x.cap) : (writeSpan (.wResize u) p x).2 ≤ 8 * x.cap := by
  unfold writeSpan
  dsimp only
  split
  · exact hlen
  · split
    · exact Nat.mul_le_mul_left 8 hold
    · exact Nat.zero_le _

theorem execWResize_spanFits {u : Nat} {s t : State} (h : execWResize u s = .next t)
    (hok : t.status = .ok) (he : (s.writer u).mode = .external) :
    (s.writer u).Sound s.ownMax ∧ SpanFits (.wResize u) s := by
  refine runWriter_ok h hok fun hsound => ?_
  dsimp only
  split
  · next hcheck => exact resizeCheck_some_okOnlyIf hcheck
  · next hcheck =>
    have hfits : SpanFits (.wResize u) s :=
      writeSpan_wResize_le s.pkt (resizeCheck_none_external hcheck he) hsound.ceil8_valid_le
    split
    · split
      · next hcap => exact .error (ensureCap_error_status hcap (by decide))
      · exact .done hfits
    · exact .done hfits

/-- A command that ends with OK and may write has a sound writer whose region holds its span. -/
theorem exec_spanFits {i : Instr} {s t : State} (h : exec i s = .next t) (hok : t.status = .ok)
    (he : (s.writer i.unitIndex).mode = .external) {lo hi : Nat}
    (hspan : writeSpan i s.pkt (s.writer i.unitIndex) = (lo, hi)) (hlt : lo < hi) :
    (s.writer i.unitIndex).Sound s.ownMax ∧ SpanFits i s := by
  cases i with
  | wWrite u tw nb => exact execWWrite_spanFits h hok he
  | wWbit u => exact execWWbit_spanFits h hok he
  | wAppend u => exact execWAppend_spanFits h hok he
  | wAlign u => exact execWAlign_spanFits h hok
  | wInsert u tw nb => exact execWInsert_spanFits h hok he
  | wErase u => exact execWErase_spanFits h hok
  | wResize u => exact execWResize_spanFits h hok he
  | _ => cases hspan; exact absurd hlt (Nat.lt_irrefl 0)

/-! ### A reset in the middle of a command -/

/-- The free bytes an abandoned command leaves lie in XMEM. -/
theorem abandonedXmem_canonical {i : Instr} {s t : State} (hx : s.xmem.XmemCanonical)
    (h : exec i s = .next t) (hok : t.status = .ok) :
    (abandonedXmem s i s.pkt).XmemCanonical := by
  rcases abandonedXmem_cases s i s.pkt with e | ⟨lo, hi, hspan, hlt, he, e⟩ <;> rw [e]
  · exact hx
  · obtain ⟨hsound, hfits⟩ := exec_spanFits h hok he hspan hlt
    rw [SpanFits, hspan] at hfits
    have hregion := hsound.2.2.2.1 he
    have hceil : ceil8 hi ≤ (s.writer i.unitIndex).cap := (ceil8_le_iff _ _).2 hfits
    have hstart : lo / 8 ≤ ceil8 hi := by unfold ceil8; omega
    refine Memory.xmemCanonical_of_frame hx (Memory.wf_freeBytes _ _ _ _ hx.1) fun a ha => ?_
    rw [read_freeBytes, if_neg]
    unfold regionAddr
    omega

/-- What a reset in the middle of a command leaves in XMEM is canonical (70_reset R270; log 11). -/
theorem memoriesCanonical_abandon {s : State} (h : s.MemoriesCanonical) (p : Packet)
    (rest : List HostAct) :
    (s.abandon p rest (decodeWord p.cmd, runPacket (s.take p rest))).MemoriesCanonical := by
  have hx : s.xmem.XmemCanonical := ⟨h.1, h.2.1⟩
  obtain ⟨m, e, hm⟩ := abandon_spec s p rest (decodeWord p.cmd, runPacket (s.take p rest))
  rw [e]
  refine State.memoriesCanonical_applyReset _ ?_
  rcases hm with rfl | ⟨i, t, hf, hok, rfl⟩
  · exact hx
  · obtain ⟨hword, hrun⟩ := Prod.mk.inj hf
    have hexec : exec i (s.take p rest) = .next t := by simpa [runPacket, hword] using hrun
    exact abandonedXmem_canonical (s := s.take p rest) hx hexec hok

end Sys2Proof.Machine
end

section
open Sys2Proof Sys2Proof.Machine

/-- Settles O13: every store goes to an existing byte, of a sound writer's region or of the host's choice;
so does every free value a reset in the middle of a command leaves. -/
theorem stepKeepsMemoriesCanonical : Obligations.StepKeepsMemoriesCanonical := by
  intro s t _ hs hstep
  rcases step_cases s with ⟨-, e⟩ | ⟨p, rest, err, -, -, e⟩ | ⟨p, rest, i, -, -, e⟩ |
    ⟨a, v, rest, -, e⟩ | ⟨rest, -, e⟩ | ⟨p, rest, -, e⟩ <;> rw [e] at hstep
  · cases hstep; exact hs
  · cases hstep; exact hs
  · exact (exec_ended hstep).memoriesCanonical hs
  · cases hstep; exact hs.hostStore a v rest
  · cases hstep; exact State.memoriesCanonical_applyReset _ ⟨hs.1, hs.2.1⟩
  · cases hstep; exact memoriesCanonical_abandon hs p rest

end

section
/-! SUPPORT. The command word and its fields (30_encoding R91): they determine each other, and masking a
word masks each field. -/
namespace Sys2Proof

/-- Every field fits its place in the command word (30_encoding R91). -/
structure Fields.Fit (f : Fields) : Prop where
  opc : f.opc < 2 ^ 8
  uid : f.uid < 2 ^ 4
  tw : f.tw < 2 ^ 2
  org : f.org < 2 ^ 2
  nb : f.nb < 2 ^ 7
  rsv : f.rsv < 2 ^ 9

theorem bitSlice_lt (x : BitVec 32) (lo len : Nat) : bitSlice x lo len < 2 ^ len :=
  Nat.mod_lt _ (Nat.two_pow_pos len)

theorem fieldsOf_fit (x : BitVec 32) : (fieldsOf x).Fit :=
  ⟨bitSlice_lt x 0 8, bitSlice_lt x 8 4, bitSlice_lt x 12 2, bitSlice_lt x 14 2, bitSlice_lt x 16 7,
    bitSlice_lt x 23 9⟩

/-- No bit of a word lies outside its fields. -/
theorem packFields_fieldsOf (x : BitVec 32) : packFields (fieldsOf x) = x := by
  apply BitVec.eq_of_toNat_eq
  simp only [packFields, fieldsOf, bitSlice, BitVec.toNat_ofNat]
  have := x.isLt
  omega

/-- No two fields share a bit. -/
theorem fieldsOf_packFields {f : Fields} (h : f.Fit) : fieldsOf (packFields f) = f := by
  obtain ⟨opc, uid, tw, org, nb, rsv⟩ := f
  obtain ⟨hopc, huid, htw, horg, hnb, hrsv⟩ := h
  simp only [packFields, fieldsOf, bitSlice, BitVec.toNat_ofNat, Fields.mk.injEq] at *
  omega

theorem fieldsOf_injective {x y : BitVec 32} (h : fieldsOf x = fieldsOf y) : x = y := by
  rw [← packFields_fieldsOf x, h, packFields_fieldsOf]

/-- The bits of each field that the mask's field selects. -/
def Fields.and (f m : Fields) : Fields :=
  { opc := f.opc &&& m.opc, uid := f.uid &&& m.uid, tw := f.tw &&& m.tw, org := f.org &&& m.org,
    nb := f.nb &&& m.nb, rsv := f.rsv &&& m.rsv }

theorem bitSlice_and (x m : BitVec 32) (lo len : Nat) :
    bitSlice (x &&& m) lo len = bitSlice x lo len &&& bitSlice m lo len := by
  simp only [bitSlice, BitVec.toNat_and, Nat.and_div_two_pow, Nat.and_mod_two_pow]

theorem fieldsOf_and (x m : BitVec 32) : fieldsOf (x &&& m) = (fieldsOf x).and (fieldsOf m) := by
  simp only [fieldsOf, Fields.and, bitSlice_and]

theorem and_eq_iff_fields (x m p : BitVec 32) :
    x &&& m = p ↔ (fieldsOf x).and (fieldsOf m) = fieldsOf p := by
  rw [← fieldsOf_and]
  exact ⟨congrArg fieldsOf, fieldsOf_injective⟩

end Sys2Proof
end

section
/-! SUPPORT. The decoder reads a word as `i` exactly if the word has the fields of `i` (30_encoding R98,
R99). -/
namespace Sys2Proof

theorem TypeWidth.code_lt (t : TypeWidth) : t.code < 4 := by cases t <;> decide

theorem Origin.code_lt (o : Origin) : o.code < 4 := by cases o <;> decide

theorem TypeWidth.code_ofCode : ∀ n < 4, (TypeWidth.ofCode n).code = n := by decide

theorem Origin.code_ofCode : ∀ n < 4, (Origin.ofCode n).code = n := by decide

theorem decodePlain_eq_ok_iff (f : Fields) (j i : Instr) :
    decodePlain f j = .ok i ↔ (f.tw = 0 ∧ f.org = 0 ∧ f.nb = 0) ∧ i = j := by
  unfold decodePlain
  split <;> simp_all [eq_comm]

theorem decodeSized_eq_ok_iff (f : Fields) (mk : TypeWidth → Nat → Instr) (i : Instr) :
    decodeSized f mk = .ok i ↔ f.org = 0 ∧ i = mk (TypeWidth.ofCode f.tw) f.nb := by
  unfold decodeSized
  split <;> simp_all [eq_comm]

theorem decodeSeek_eq_ok_iff (f : Fields) (mk : Origin → Instr) (i : Instr) :
    decodeSeek f mk = .ok i ↔ (f.tw = 0 ∧ f.nb = 0) ∧ i = mk (Origin.ofCode f.org) := by
  unfold decodeSeek
  split <;> simp_all [eq_comm]

/-- The fields of a command's word decode to the command, for every command. -/
theorem decodeFields_encodeFields (i : Instr) : decodeFields (encodeFields i) = .ok i := by
  cases i with
  | wWrite u tw nb => exact Laws.FieldsRoundTrip.wWrite u tw nb
  | wInsert u tw nb => exact Laws.FieldsRoundTrip.wInsert u tw nb
  | wSeek u org => exact Laws.FieldsRoundTrip.wSeek u org
  | rReadu u tw nb => exact Laws.FieldsRoundTrip.rReadu u tw nb
  | rReads u tw nb => exact Laws.FieldsRoundTrip.rReads u tw nb
  | rSeek u org => exact Laws.FieldsRoundTrip.rSeek u org
  | _ => rfl

/-- The fields of a legal word are those of the command read from it: row by row, a field is an operand or
must be 0. -/
theorem encodeFields_of_decodeOpcode {f : Fields} {i : Instr} (hf : f.Fit) (hrsv : f.rsv = 0)
    (h : decodeOpcode f = .ok i) : encodeFields i = f := by
  have htw := TypeWidth.code_ofCode f.tw hf.tw
  have horg := Origin.code_ofCode f.org hf.org
  obtain ⟨opc, uid, tw, org, nb, rsv⟩ := f
  subst hrsv
  unfold decodeOpcode at h
  split at h
  case h_33 => cases h
  all_goals
    simp only [decodePlain_eq_ok_iff, decodeSized_eq_ok_iff, decodeSeek_eq_ok_iff] at h
    obtain ⟨hunused, rfl⟩ := h
    simp_all [encodeFields, plainFields, sizedFields, seekFields]

theorem decodeFields_eq_ok_iff {f : Fields} (hf : f.Fit) (i : Instr) :
    decodeFields f = .ok i ↔ f = encodeFields i := by
  constructor
  · intro h
    unfold decodeFields at h
    split at h
    · next hrsv => exact (encodeFields_of_decodeOpcode hf hrsv h).symm
    · cases h
  · rintro rfl
    exact decodeFields_encodeFields i

/-- The decoder by its fields: what the word holds is what the command's word holds. -/
theorem decodeWord_eq_ok_iff (x : BitVec 32) (i : Instr) :
    decodeWord x = .ok i ↔ fieldsOf x = encodeFields i :=
  decodeFields_eq_ok_iff (fieldsOf_fit x) i

theorem encodeFields_uid (i : Instr) : (encodeFields i).uid = i.unitIndex := by cases i <;> rfl

theorem encodeFields_nb (i : Instr) : (encodeFields i).nb = i.fieldWidth := by cases i <;> rfl

theorem encodeFields_rsv (i : Instr) : (encodeFields i).rsv = 0 := by cases i <;> rfl

/-- The fields that are codes fit their places, whatever the command. -/
theorem encodeFields_codes_lt (i : Instr) :
    (encodeFields i).opc < 256 ∧ (encodeFields i).tw < 4 ∧ (encodeFields i).org < 4 := by
  cases i <;>
    simp [encodeFields, plainFields, sizedFields, seekFields, TypeWidth.code_lt, Origin.code_lt]

/-- A command is well formed exactly if its fields fit the command word. -/
theorem encodeFields_fit_iff (i : Instr) : (encodeFields i).Fit ↔ i.WellFormed := by
  constructor
  · intro h
    exact ⟨encodeFields_uid i ▸ h.uid, encodeFields_nb i ▸ h.nb⟩
  · rintro ⟨huid, hnb⟩
    obtain ⟨hopc, htw, horg⟩ := encodeFields_codes_lt i
    exact ⟨hopc, encodeFields_uid i ▸ huid, htw, horg, encodeFields_nb i ▸ hnb,
      encodeFields_rsv i ▸ Nat.two_pow_pos 9⟩

end Sys2Proof
end

section
open Sys2Proof

/-- Settles O1: the fields of a well-formed command fit, so the word gives them back. -/
theorem decodeOfEncodeIsIdentity : Obligations.DecodeOfEncodeIsIdentity := by
  intro i hi
  rw [decodeWord_eq_ok_iff]
  exact fieldsOf_packFields ((encodeFields_fit_iff i).2 hi)

/-- Settles O2: the fields of the word are those of the command, and they are the whole word. -/
theorem encodeOfDecodeIsIdentity : Obligations.EncodeOfDecodeIsIdentity := by
  intro x i h
  rw [decodeWord_eq_ok_iff] at h
  refine ⟨(encodeFields_fit_iff i).1 (h ▸ fieldsOf_fit x), ?_⟩
  rw [encode, ← h, packFields_fieldsOf]

end

section
/-! SUPPORT. The printed opcode map (30_encoding R98): each command's row, which words match it, and that
the decoder reads those words as that command. -/
namespace Sys2Proof

/-- The mask R98 prints for a command's row: the bits its operands do not use. -/
def Instr.wordMask : Instr → BitVec 32
  | .wWrite _ _ _ | .wInsert _ _ _ | .rReadu _ _ _ | .rReads _ _ _ => 0xFF80C0FF#32
  | .wSeek _ _ | .rSeek _ _ => 0xFFFF30FF#32
  | _ => 0xFFFFF0FF#32

/-- The row of the opcode map a command has. -/
def Instr.row (i : Instr) : OpcodeRow :=
  { mnemonic := i.mnemonic, mask := i.wordMask, pattern := BitVec.ofNat 32 (encodeFields i).opc }

/-- One command per row, in the order of the opcode map. -/
def commandPerRow : List Instr :=
  [.wInito 0, .wAttach 0, .wFree 0, .wWrite 0 .w8 0, .wWbit 0, .wAppend 0, .wInsert 0 .w8 0, .wErase 0,
   .wResize 0, .wSeek 0 .fromBegin, .wAlign 0, .wReserve 0, .wTell 0, .wNbits 0, .wNbytes 0, .wPtr 0,
   .wCopy 0, .wDump 0, .rAttach 0, .rAttache 0, .rAttachp 0, .rFree 0, .rReadu 0 .w8 0, .rReads 0 .w8 0,
   .rSeek 0 .fromBegin, .rTell 0, .rLeft 0, .rNbits 0, .rNbytes 0, .rEof 0, .rPtr 0, .rDump 0]

theorem opcodeMap_eq_map_row : opcodeMap = commandPerRow.map Instr.row := rfl

theorem row_mem_opcodeMap (i : Instr) : i.row ∈ opcodeMap := by
  cases i <;>
    simp [opcodeMap, Instr.row, Instr.mnemonic, Instr.wordMask, encodeFields, plainFields, sizedFields,
      seekFields]

/-- The rows of the opcode map are those of the commands. -/
theorem mem_opcodeMap_iff (row : OpcodeRow) : row ∈ opcodeMap ↔ ∃ i : Instr, i.row = row := by
  constructor
  · rw [opcodeMap_eq_map_row]
    intro h
    obtain ⟨i, -, hi⟩ := List.mem_map.1 h
    exact ⟨i, hi⟩
  · rintro ⟨i, rfl⟩
    exact row_mem_opcodeMap i

/-! ### Which words match a row -/

theorem fieldsOf_opcodeWord {opc : Nat} (h : opc < 256) :
    fieldsOf (BitVec.ofNat 32 opc) = plainFields opc 0 := by
  have hfit : (plainFields opc 0).Fit :=
    ⟨h, Nat.two_pow_pos _, Nat.two_pow_pos _, Nat.two_pow_pos _, Nat.two_pow_pos _, Nat.two_pow_pos _⟩
  have hword : packFields (plainFields opc 0) = BitVec.ofNat 32 opc := by simp [packFields, plainFields]
  rw [← hword, fieldsOf_packFields hfit]

theorem Fields.eq_iff (f g : Fields) :
    f = g ↔ f.opc = g.opc ∧ f.uid = g.uid ∧ f.tw = g.tw ∧ f.org = g.org ∧ f.nb = g.nb ∧
      f.rsv = g.rsv := by
  cases f
  cases g
  simp

theorem and_allOnes_of_lt {n k : Nat} (h : n < 2 ^ k) : n &&& (2 ^ k - 1) = n := by
  rw [Nat.and_two_pow_sub_one_eq_mod, Nat.mod_eq_of_lt h]

/-- The words of a row that uses UID alone. -/
theorem matches_plain_iff (x : BitVec 32) {opc : Nat} (h : opc < 256) :
    x &&& 0xFFFFF0FF#32 = BitVec.ofNat 32 opc ↔ ∃ u, fieldsOf x = plainFields opc u := by
  have hmask : fieldsOf 0xFFFFF0FF#32 =
    ⟨2 ^ 8 - 1, 0, 2 ^ 2 - 1, 2 ^ 2 - 1, 2 ^ 7 - 1, 2 ^ 9 - 1⟩ := by decide
  obtain ⟨hopc, -, htw, horg, hnb, hrsv⟩ := fieldsOf_fit x
  rw [and_eq_iff_fields, hmask, fieldsOf_opcodeWord h]
  simp only [Fields.eq_iff, Fields.and, plainFields, and_allOnes_of_lt, hopc, htw, horg, hnb, hrsv,
    Nat.and_zero, true_and, exists_and_left, exists_eq_left']

/-- The words of a row that uses UID, TW and NB. -/
theorem matches_sized_iff (x : BitVec 32) {opc : Nat} (h : opc < 256) :
    x &&& 0xFF80C0FF#32 = BitVec.ofNat 32 opc ↔ ∃ u tw nb, fieldsOf x = sizedFields opc u tw nb := by
  have hmask : fieldsOf 0xFF80C0FF#32 = ⟨2 ^ 8 - 1, 0, 0, 2 ^ 2 - 1, 0, 2 ^ 9 - 1⟩ := by decide
  obtain ⟨hopc, -, htw, horg, -, hrsv⟩ := fieldsOf_fit x
  have hcode : ∃ t : TypeWidth, (fieldsOf x).tw = t.code := ⟨_, (TypeWidth.code_ofCode _ htw).symm⟩
  rw [and_eq_iff_fields, hmask, fieldsOf_opcodeWord h]
  simp only [Fields.eq_iff, Fields.and, plainFields, sizedFields, and_allOnes_of_lt, hopc, horg, hrsv,
    Nat.and_zero, true_and, exists_and_left, exists_and_right, exists_eq', hcode]

/-- The words of a row that uses UID and ORG. -/
theorem matches_seek_iff (x : BitVec 32) {opc : Nat} (h : opc < 256) :
    x &&& 0xFFFF30FF#32 = BitVec.ofNat 32 opc ↔ ∃ u org, fieldsOf x = seekFields opc u org := by
  have hmask : fieldsOf 0xFFFF30FF#32 = ⟨2 ^ 8 - 1, 0, 2 ^ 2 - 1, 0, 2 ^ 7 - 1, 2 ^ 9 - 1⟩ := by decide
  obtain ⟨hopc, -, htw, horg, hnb, hrsv⟩ := fieldsOf_fit x
  have hcode : ∃ o : Origin, (fieldsOf x).org = o.code := ⟨_, (Origin.code_ofCode _ horg).symm⟩
  rw [and_eq_iff_fields, hmask, fieldsOf_opcodeWord h]
  simp only [Fields.eq_iff, Fields.and, plainFields, seekFields, and_allOnes_of_lt, hopc, htw, hnb, hrsv,
    Nat.and_zero, true_and, exists_and_left, exists_and_right, exists_eq', hcode]

/-- A word the decoder reads as a command matches the command's row. -/
theorem matches_row_of_decodeWord {x : BitVec 32} {i : Instr} (h : decodeWord x = .ok i) :
    x &&& i.row.mask = i.row.pattern := by
  have hfields := (decodeWord_eq_ok_iff x i).1 h
  have hopc := (encodeFields_codes_lt i).1
  cases i with
  | wWrite u tw nb | wInsert u tw nb | rReadu u tw nb | rReads u tw nb =>
    exact (matches_sized_iff x hopc).2 ⟨u, tw, nb, hfields⟩
  | wSeek u org | rSeek u org => exact (matches_seek_iff x hopc).2 ⟨u, org, hfields⟩
  | _ => exact (matches_plain_iff x hopc).2 ⟨_, hfields⟩

/-- A word that matches a command's row is read as the same command, with its own operands. -/
theorem decodeWord_of_matches_row {x : BitVec 32} {i : Instr} (h : x &&& i.row.mask = i.row.pattern) :
    ∃ j, decodeWord x = .ok j ∧ j.mnemonic = i.mnemonic := by
  have hopc := (encodeFields_codes_lt i).1
  rw [decodeWord]
  cases i with
  | wWrite _ _ _ | wInsert _ _ _ | rReadu _ _ _ | rReads _ _ _ =>
    obtain ⟨u, tw, nb, hfields⟩ := (matches_sized_iff x hopc).1 h
    rw [hfields]
    exact ⟨_, rfl, rfl⟩
  | wSeek _ _ | rSeek _ _ =>
    obtain ⟨u, org, hfields⟩ := (matches_seek_iff x hopc).1 h
    rw [hfields]
    exact ⟨_, rfl, rfl⟩
  | _ =>
    obtain ⟨u, hfields⟩ := (matches_plain_iff x hopc).1 h
    rw [hfields]
    exact ⟨_, rfl, rfl⟩

/-! ### Why a word is no command -/

theorem decodePlain_ne_illOpcode (f : Fields) (i : Instr) : decodePlain f i ≠ .error .illOpcode := by
  unfold decodePlain
  split <;> simp

theorem decodeSized_ne_illOpcode (f : Fields) (mk : TypeWidth → Nat → Instr) :
    decodeSized f mk ≠ .error .illOpcode := by
  unfold decodeSized
  split <;> simp

theorem decodeSeek_ne_illOpcode (f : Fields) (mk : Origin → Instr) :
    decodeSeek f mk ≠ .error .illOpcode := by
  unfold decodeSeek
  split <;> simp

/-- An OPC is refused as such exactly if no row of the opcode map has it (30_encoding R100). -/
theorem decodeOpcode_eq_illOpcode_iff (f : Fields) :
    decodeOpcode f = .error .illOpcode ↔ ¬ ∃ row ∈ opcodeMap, bitSlice row.pattern 0 8 = f.opc := by
  have hcodes : opcodeMap.map (fun row => bitSlice row.pattern 0 8) =
      [0x01, 0x02, 0x03, 0x10, 0x11, 0x12, 0x13, 0x14, 0x15, 0x16, 0x17, 0x18, 0x19, 0x1A, 0x1B, 0x1C,
       0x1D, 0x1E, 0x21, 0x22, 0x23, 0x24, 0x30, 0x31, 0x32, 0x33, 0x34, 0x35, 0x36, 0x37, 0x38,
       0x39] := by decide
  rw [← List.mem_map, hcodes]
  unfold decodeOpcode
  split
  case h_33 => simp_all
  all_goals simp [decodePlain_ne_illOpcode, decodeSized_ne_illOpcode, decodeSeek_ne_illOpcode, *]

end Sys2Proof
end

section
open Sys2Proof

/-- Settles O3: every row is a command's row, and the words that match it are those with the command's
OPC and no bit in a field it does not use. -/
theorem legalWordsAreTheOpcodeMapRows : Obligations.LegalWordsAreTheOpcodeMapRows := by
  refine ⟨fun x i h => ⟨i.row, row_mem_opcodeMap i, rfl, matches_row_of_decodeWord h⟩, ?_⟩
  intro x row hrow h
  obtain ⟨i, rfl⟩ := (mem_opcodeMap_iff row).1 hrow
  exact decodeWord_of_matches_row h

end

section
/-! SUPPORT. The decode checks 3 to 6 of a command, in their order (30_encoding R101), and the step that
takes a packet. -/
namespace Sys2Proof.Machine

/-- A presented packet is taken and executed in one step (20_memory R75). -/
theorem step_command {s : State} {p : Packet} {rest : List HostAct} (h : s.host = .command p :: rest) :
    step s = runPacket (s.take p rest) := by
  unfold step
  rw [h]

theorem runPacket_of_decode_ok {s : State} {i : Instr} (h : decodeWord s.pkt.cmd = .ok i) :
    runPacket s = exec i s := by
  unfold runPacket
  rw [h]

theorem runPacket_of_decode_error {s : State} {e : DecodeError} (h : decodeWord s.pkt.cmd = .error e) :
    runPacket s = .next (s.raise (decodeCause e)) := by
  unfold runPacket
  rw [h]

/-! ### Decode steps 1 and 2 -/

/-- Step 1 (30_encoding R101): a reserved bit is set or no row has the word's OPC. -/
theorem decodeWord_illOpcode {x : BitVec 32}
    (h : bitSlice x 23 9 ≠ 0 ∨ ¬ ∃ row ∈ opcodeMap, bitSlice row.pattern 0 8 = bitSlice x 0 8) :
    decodeWord x = .error .illOpcode := by
  unfold decodeWord decodeFields
  split
  · next hrsv => exact (decodeOpcode_eq_illOpcode_iff _).2 (h.resolve_left (not_not.2 hrsv))
  · rfl

/-- Step 2 (30_encoding R101): a row has the word's OPC, but the word does not match it. -/
theorem decodeWord_illField {x : BitVec 32} (hrsv : bitSlice x 23 9 = 0)
    (hlisted : ∃ row ∈ opcodeMap, bitSlice row.pattern 0 8 = bitSlice x 0 8)
    (hlegal : ¬ ∃ row ∈ opcodeMap, x &&& row.mask = row.pattern) :
    decodeWord x = .error .illField := by
  cases hd : decodeWord x with
  | ok i => exact absurd ⟨i.row, row_mem_opcodeMap i, matches_row_of_decodeWord hd⟩ hlegal
  | error e =>
    cases e with
    | illField => rfl
    | illOpcode =>
      have hopc : decodeOpcode (fieldsOf x) = .error .illOpcode := by
        rwa [decodeWord, decodeFields, if_pos (show (fieldsOf x).rsv = 0 from hrsv)] at hd
      exact absurd hlisted ((decodeOpcode_eq_illOpcode_iff _).1 hopc)

/-! ### Decode steps 3 to 6 -/

theorem payloadFits_reader {i : Instr} (h : i.namesWriter = false) (p : Packet) :
    payloadFits i p = decide (p.payload = []) := by
  cases i with
  | wAppend u => cases h
  | _ => rfl

theorem payloadFits_constructs {i : Instr} (h : constructs i = true) (p : Packet) :
    payloadFits i p = decide (p.payload = []) := by
  cases i with
  | wAppend u => cases h
  | _ => rfl

/-- The ST a writer command needs (30_encoding R101 step 6). -/
def writerNeed (i : Instr) : WriterLife := if constructs i then .unbound else .ready

/-- The ST a reader command needs (30_encoding R101 step 6). -/
def readerNeed (i : Instr) : ReaderLife := if constructs i then .unbound else .ready

/-- A writer command that a decode check refuses ends with the cause of the check. -/
theorem exec_of_admitWriter_refuse {i : Instr} {s : State} {c : Cause} (hw : i.namesWriter = true)
    (h : admitWriter s i.unitIndex (payloadFits i s.pkt) (writerNeed i) = .refuse c) :
    exec i s = .next (s.raise c) := by
  rcases exec_shape i s with ⟨-, hc, rule, e⟩ | ⟨hr, -⟩ | ⟨-, hc, made, e⟩ | ⟨hr, -⟩
  · rw [show writerNeed i = .ready by simp [writerNeed, hc]] at h
    rw [e]
    unfold runWriterWith
    rw [h]
  · rw [hw] at hr; cases hr
  · rw [show writerNeed i = .unbound by simp [writerNeed, hc], payloadFits_constructs hc] at h
    rw [e]
    unfold bindWriter
    rw [h]
  · rw [hw] at hr; cases hr

/-- A reader command that a decode check refuses ends with the cause of the check. -/
theorem exec_of_admitReader_refuse {i : Instr} {s : State} {c : Cause} (hr : i.namesWriter = false)
    (h : admitReader s i.unitIndex (readerNeed i) = .refuse c) : exec i s = .next (s.raise c) := by
  rcases exec_shape i s with ⟨hw, -⟩ | ⟨-, hc, rule, e⟩ | ⟨hw, -⟩ | ⟨-, hc, made, e⟩
  · rw [hr] at hw; cases hw
  · rw [show readerNeed i = .ready by simp [readerNeed, hc]] at h
    rw [e]
    unfold runReader
    rw [h]
  · rw [hr] at hw; cases hw
  · rw [show readerNeed i = .unbound by simp [readerNeed, hc]] at h
    rw [e]
    unfold bindReader
    rw [h]

/-- The first check of a writer command that fails decides (30_encoding R101 steps 3 to 6). -/
theorem admitWriter_order (s : State) (u : Nat) (p : Bool) (need : WriterLife) :
    (¬ u < s.nw → admitWriter s u p need = .refuse .illUnit) ∧
    (u < s.nw → p = false → admitWriter s u p need = .refuse .illPayload) ∧
    (u < s.nw → p = true → (s.writer u).st = .faulted →
      admitWriter s u p need = .refuse .unitFaulted) ∧
    (u < s.nw → p = true → (s.writer u).st ≠ .faulted → (s.writer u).st ≠ need →
      admitWriter s u p need = .refuse .illState) := by
  unfold admitWriter
  refine ⟨fun hu => ?_, fun hu hp => ?_, fun hu hp hf => ?_, fun hu hp hf hst => ?_⟩
  · rw [if_pos hu]
  · rw [if_neg (not_not.2 hu), if_pos (by simp [hp])]
  · rw [if_neg (not_not.2 hu), if_neg (by simp [hp]), if_pos hf]
  · rw [if_neg (not_not.2 hu), if_neg (by simp [hp]), if_neg hf, if_pos hst]

/-- The first check of a reader command that fails decides; a reader is never FAULTED. -/
theorem admitReader_order (s : State) (u : Nat) (need : ReaderLife) :
    (¬ u < s.nr → admitReader s u need = .refuse .illUnit) ∧
    (u < s.nr → s.pkt.payload ≠ [] → admitReader s u need = .refuse .illPayload) ∧
    (u < s.nr → s.pkt.payload = [] → (s.reader u).st ≠ need →
      admitReader s u need = .refuse .illState) := by
  unfold admitReader
  refine ⟨fun hu => ?_, fun hu hp => ?_, fun hu hp hst => ?_⟩
  · rw [if_pos hu]
  · rw [if_neg (not_not.2 hu), if_pos hp]
  · rw [if_neg (not_not.2 hu), if_neg (not_not.2 hp), if_pos hst]

/-- A writer that is UNBOUND exactly if the command does not construct has not the ST it needs. -/
theorem ne_writerNeed {i : Instr} {st : WriterLife} (h : ¬ (st = .unbound ↔ constructs i = true)) :
    st ≠ writerNeed i := by
  rintro rfl
  unfold writerNeed at h
  cases hc : constructs i <;> simp [hc] at h

theorem ne_readerNeed {i : Instr} {st : ReaderLife} (h : ¬ (st = .unbound ↔ constructs i = true)) :
    st ≠ readerNeed i := by
  rintro rfl
  unfold readerNeed at h
  cases hc : constructs i <;> simp [hc] at h

end Sys2Proof.Machine
end

section
open Sys2Proof Sys2Proof.Machine

/-- Settles O51: steps 1 and 2 are the decoder's errors, steps 3 to 6 the order of the admission checks. -/
theorem decodeChecksComeInOrder : Obligations.DecodeChecksComeInOrder := by
  intro s p rest hhost
  have hstep := step_command hhost
  refine ⟨fun h => ?_, fun hrsv hlisted hlegal => ?_, fun i hi => ?_⟩
  · rw [hstep, runPacket_of_decode_error (decodeWord_illOpcode h)]; rfl
  · rw [hstep, runPacket_of_decode_error (decodeWord_illField hrsv hlisted hlegal)]; rfl
  rw [hstep, runPacket_of_decode_ok (s := s.take p rest) hi]
  cases hw : i.namesWriter with
  | true =>
    obtain ⟨hunit, hpayload, hfaulted, hstate⟩ :=
      admitWriter_order (s.take p rest) i.unitIndex (payloadFits i p) (writerNeed i)
    have refuse {c : Cause} := exec_of_admitWriter_refuse (s := s.take p rest) (c := c) hw
    simp only [if_true]
    exact ⟨fun hu => refuse (hunit hu), fun hu hp => refuse (hpayload hu hp),
      fun hu hp hf => refuse (hfaulted hu hp hf.2),
      fun hu hp hf hst => refuse (hstate hu hp (fun e => hf ⟨trivial, e⟩) (ne_writerNeed hst))⟩
  | false =>
    obtain ⟨hunit, hpayload, hstate⟩ :=
      admitReader_order (s.take p rest) i.unitIndex (readerNeed i)
    have refuse {c : Cause} := exec_of_admitReader_refuse (s := s.take p rest) (c := c) hw
    simp only [payloadFits_reader hw, decide_eq_true_eq, decide_eq_false_iff_not]
    exact ⟨fun hu => refuse (hunit hu), fun hu hp => refuse (hpayload hu hp),
      fun _ _ hf => (by cases hf.1),
      fun hu hp _ hst => refuse (hstate hu hp (ne_readerNeed hst))⟩

/-- Settles O6: taking the packet and executing its command are one step. -/
theorem stepRunsTheDecodedCommand : Obligations.StepRunsTheDecodedCommand := by
  intro s p rest i hhost hi
  rw [step_command hhost, runPacket_of_decode_ok (s := s.take p rest) hi]
  rfl

/-- Settles O4: each word has the fields of the command it stands for. -/
theorem decodeReadsSampleWords : Obligations.DecodeReadsSampleWords := by
  refine ⟨?_, ?_, ?_, ?_, ?_, ?_, ?_⟩ <;> exact (decodeWord_eq_ok_iff _ _).2 (by decide)

/-- Settles O5: the origin and the offset the expansions write are read as the constants the
pseudo-instructions stand for. -/
theorem pseudoInstructionsExpand : Obligations.PseudoInstructionsExpand := by
  intro u
  have hbegin : originToken "begin".toList = some .fromBegin := rfl
  have hend : originToken "end".toList = some .fromEnd := rfl
  have hzero : wordToken "0".toList = some 0 := rfl
  refine ⟨?_, ?_, ?_, rfl⟩
  · simp only [assembleWriter, hbegin, hzero]; rfl
  · simp only [assembleReader, hbegin, hzero]; rfl
  · simp only [assembleWriter, hend, hzero]; rfl

end

section
/-! SUPPORT. The response packet of a command (30_encoding R92). -/
namespace Sys2Proof.Machine

/-- The response packet the response registers stand for (30_encoding R92). -/
def State.response (t : State) : Response :=
  { status := t.status.code, cause := t.cause.code, res := t.res, errlog := t.errlog, dout := t.dout }

theorem State.responses_respond (s : State) (st : Status) (c : Cause) (r : Word) (d : List Byte) :
    (s.respond st c r d).responses = s.responses ++ [(s.respond st c r d).response] := rfl

/-- A command delivers one response packet, with the values it leaves in the response registers. -/
theorem Ended.responses {i : Instr} {s t : State} (h : Ended i s t) :
    t.responses = s.responses ++ [t.response] := by
  cases h with
  | raised c => exact State.responses_respond _ _ _ _ _
  | faulted c => exact State.responses_respond _ _ _ _ _
  | writerDone _ _ _ _ _ => exact State.responses_respond _ _ _ _ _
  | readerDone _ _ _ => exact State.responses_respond _ _ _ _ _
  | writerBound _ => exact State.responses_respond _ _ _ _ _
  | readerBound _ => exact State.responses_respond _ _ _ _ _

/-- A command packet, legal or not, gets one response packet. -/
theorem responses_of_command {s t : State} {p : Packet} {rest : List HostAct}
    (hhost : s.host = .command p :: rest) (h : Stepped s t) :
    t.responses = s.responses ++ [t.response] := by
  cases h with
  | illegal _ _ => exact State.responses_respond _ _ _ _ _
  | command _ _ hend => exact hend.responses
  | idle hh => rw [hhost] at hh; cases hh
  | store hh => rw [hhost] at hh; cases hh
  | reset hh => rw [hhost] at hh; cases hh
  | resetDuring _ hh => rw [hhost] at hh; cases hh

/-- No other act of the host gets a response packet (70_reset R270; log 10, log 20). -/
theorem responses_of_not_command {s t : State} (hnot : ∀ p rest, s.host ≠ .command p :: rest)
    (h : Stepped s t) : t.responses = s.responses := by
  cases h with
  | illegal hhost _ => exact absurd hhost (hnot _ _)
  | command hhost _ _ => exact absurd hhost (hnot _ _)
  | idle _ => rfl
  | store _ => rfl
  | reset _ => rfl
  | resetDuring _ _ => rfl

end Sys2Proof.Machine
end

section
/-! SUPPORT. A command reads of its packet the payload and the operands its rule names (30_encoding R90,
R97), and keeps nothing of the packet. -/
namespace Sys2Proof.Machine

/-! ### The bits of `A` a field names -/

theorem and_mask_congr {a b : Word} {n : Nat} (h : ∀ j, j < n → a.getLsbD j = b.getLsbD j) :
    a &&& mask 64 n = b &&& mask 64 n := by
  apply BitVec.eq_of_getLsbD_eq
  intro j _
  rw [BitVec.getLsbD_and, BitVec.getLsbD_and, getLsbD_mask]
  by_cases hj : j < n
  · rw [h j hj]
  · simp [hj]

theorem bitsStr_congr {a b : Word} {n : Nat} (h : ∀ j, j < n → a.getLsbD j = b.getLsbD j) :
    bitsStr a n = bitsStr b n := by
  apply List.map_congr_left
  intro j hj
  have := List.mem_range.1 hj
  exact h _ (by omega)

/-! ### The ways a command is built, with two packets -/

section
variable (s : State) {p q : Packet} {u : Nat}

/-- No check and no end of a writer command reads the packet: what it does is said by its payload
condition and its rule. -/
theorem runWriterWith_congr_pkt {a b : Bool} {f g : WriterView → WriterEnd} (hok : a = b)
    (hrule : f = g) :
    runWriterWith { s with pkt := p } u a f = runWriterWith { s with pkt := q } u b g := by
  subst hok hrule
  have hadmit :
      admitWriter { s with pkt := p } u a .ready = admitWriter { s with pkt := q } u a .ready := rfl
  have hview : State.writerView { s with pkt := p } u = State.writerView { s with pkt := q } u := rfl
  unfold runWriterWith
  rw [hadmit, hview]
  cases admitWriter { s with pkt := q } u a .ready with
  | refuse c => rfl
  | broken => rfl
  | granted => cases f (State.writerView { s with pkt := q } u) <;> rfl

theorem runWriter_congr_pkt {f g : WriterView → WriterEnd} (hpay : p.payload = q.payload)
    (hrule : f = g) :
    runWriter { s with pkt := p } u f = runWriter { s with pkt := q } u g :=
  runWriterWith_congr_pkt s (by rw [hpay]) hrule

/-- The checks of a reader command read the payload alone. -/
theorem admitReader_congr_pkt (need : ReaderLife) (hpay : p.payload = q.payload) :
    admitReader { s with pkt := p } u need = admitReader { s with pkt := q } u need := by
  unfold admitReader
  rw [hpay]
  rfl

theorem runReader_congr_pkt {f g : ReaderView → ReaderEnd} (hpay : p.payload = q.payload)
    (hrule : f = g) :
    runReader { s with pkt := p } u f = runReader { s with pkt := q } u g := by
  subst hrule
  have hview : State.readerView { s with pkt := p } u = State.readerView { s with pkt := q } u := rfl
  unfold runReader
  rw [admitReader_congr_pkt s .ready hpay, hview]
  cases admitReader { s with pkt := q } u .ready with
  | refuse c => rfl
  | broken => rfl
  | granted => cases f (State.readerView { s with pkt := q } u) <;> rfl

theorem bindWriter_congr_pkt {f g : Except Cause Writer} (hpay : p.payload = q.payload) (hmade : f = g) :
    bindWriter { s with pkt := p } u f = bindWriter { s with pkt := q } u g := by
  subst hmade
  have hadmit : admitWriter { s with pkt := p } u (decide (p.payload = [])) .unbound =
      admitWriter { s with pkt := q } u (decide (q.payload = [])) .unbound := by rw [hpay]; rfl
  unfold bindWriter
  rw [hadmit]
  cases admitWriter { s with pkt := q } u (decide (q.payload = [])) .unbound with
  | refuse c => rfl
  | broken => rfl
  | granted => cases f <;> rfl

theorem bindReader_congr_pkt {f g : Except Cause Reader} (hpay : p.payload = q.payload) (hmade : f = g) :
    bindReader { s with pkt := p } u f = bindReader { s with pkt := q } u g := by
  subst hmade
  unfold bindReader
  rw [admitReader_congr_pkt s .unbound hpay]
  cases admitReader { s with pkt := q } u .unbound with
  | refuse c => rfl
  | broken => rfl
  | granted => cases f <;> rfl

end

/-- The outcome of a command is a function of the payload and of what its rule names. -/
theorem exec_congr_pkt (i : Instr) (s : State) {p q : Packet} (h : operandsAgree i p q) :
    exec i { s with pkt := p } = exec i { s with pkt := q } := by
  obtain ⟨hpay, hops⟩ := h
  cases i
  all_goals
    simp only [exec, execWInito, execWAttach, execWFree, execWWrite, execWWbit, execWAppend,
      execWInsert, execWErase, execWResize, execWSeek, execWAlign, execWReserve, execWTell,
      execWNbits, execWNbytes, execWPtr, execWCopy, execWDump, execRAttach, execRAttache,
      execRAttachp, execRFree, execRReadu, execRReads, execRSeek, execRTell, execRLeft,
      execRNbits, execRNbytes, execREof, execRPtr, execRDump]
  case wInito =>
    have ha : p.a = q.a := hops
    exact bindWriter_congr_pkt s hpay (by rw [ha])
  case wAttach =>
    obtain ⟨ha, hb, hc⟩ := hops
    exact bindWriter_congr_pkt s hpay (by rw [ha, hb, hc])
  case rAttach =>
    obtain ⟨ha, hb, hc⟩ := hops
    exact bindReader_congr_pkt s hpay (by rw [ha, hb, hc])
  case rAttache =>
    obtain ⟨ha, hb⟩ := hops
    exact bindReader_congr_pkt s hpay (by rw [ha, hb])
  case rAttachp =>
    obtain ⟨ha, hc⟩ := hops
    exact bindReader_congr_pkt s hpay (by rw [ha, hc])
  case wWrite => exact runWriter_congr_pkt s hpay (by rw [and_mask_congr hops])
  case wWbit =>
    have hbit : p.a &&& mask 64 1 = q.a &&& mask 64 1 :=
      and_mask_congr fun j hj => by rw [Nat.lt_one_iff.1 hj]; exact hops
    exact runWriter_congr_pkt s hpay (by rw [hbit])
  case wAppend =>
    have ha : p.a = q.a := hops
    exact runWriterWith_congr_pkt s (by rw [hpay, ha]) (by rw [hpay])
  case wInsert =>
    obtain ⟨ha, hb⟩ := hops
    exact runWriter_congr_pkt s hpay (by rw [bitsStr_congr ha, hb])
  case wErase =>
    obtain ⟨ha, hb⟩ := hops
    exact runWriter_congr_pkt s hpay (by rw [ha, hb])
  case wResize | wReserve | wSeek =>
    have ha : p.a = q.a := hops
    exact runWriter_congr_pkt s hpay (by rw [ha])
  case rSeek =>
    have ha : p.a = q.a := hops
    exact runReader_congr_pkt s hpay (by rw [ha])
  case wFree | wAlign | wTell | wNbits | wNbytes | wPtr | wCopy | wDump =>
    exact runWriter_congr_pkt s hpay rfl
  case rFree | rReadu | rReads | rTell | rLeft | rNbits | rNbytes | rEof | rPtr | rDump =>
    exact runReader_congr_pkt s hpay rfl

end Sys2Proof.Machine
end

section
open Sys2Proof Sys2Proof.Machine

/-- Settles O53: whatever a command does, it ends by delivering the response registers; no other act of the
host touches the responses. -/
theorem oneResponsePerCommand : Obligations.OneResponsePerCommand := by
  intro s t hstep
  refine ⟨fun ⟨p, rest, hhost⟩ => ?_, fun hnot => ?_⟩
  · exact responses_of_command hhost (step_stepped hstep)
  · exact responses_of_not_command hnot (step_stepped hstep)

/-- Settles O58: two packets that agree on what the rule names run the same rule on the same unit. -/
theorem unusedOperandsAreIgnored : Obligations.UnusedOperandsAreIgnored :=
  fun i s _ _ h => exec_congr_pkt i s h

end

section
/-! SUPPORT. A bound unit keeps its binding (40 R127, 10_state R26, R29, R31): no rule of a READY unit
changes it, construction finds only UNBOUND units, and a command leaves the units it does not name. -/
namespace Sys2Proof.Machine

/-! ### Writers -/

/-- What stays fixed while a writer is bound: MODE, BASE and the capacity of an EXTERNAL region
(10_state R26, R29). -/
structure Writer.KeepsBinding (x y : Writer) : Prop where
  mode : y.mode = x.mode
  base : y.base = x.base
  cap : x.mode = .external → y.cap = x.cap

theorem Writer.KeepsBinding.refl (x : Writer) : x.KeepsBinding x := ⟨rfl, rfl, fun _ => rfl⟩

theorem Writer.KeepsBinding.trans {x y z : Writer} (h : x.KeepsBinding y) (g : y.KeepsBinding z) :
    x.KeepsBinding z :=
  ⟨g.mode.trans h.mode, g.base.trans h.base,
    fun he => (g.cap (h.mode.trans he)).trans (h.cap he)⟩

/-- A storing operation keeps the binding if it leaves the capacity of an EXTERNAL writer. -/
theorem SameStorage.keepsBinding {v w : WriterView} (h : SameStorage v w)
    (hcap : v.unit.mode = .external → w.unit.cap = v.unit.cap) : v.unit.KeepsBinding w.unit :=
  ⟨h.mode, h.base, hcap⟩

theorem keepsBinding_setCur (v : WriterView) (c : Nat) : v.unit.KeepsBinding (v.setCur c).unit :=
  ⟨rfl, rfl, fun _ => rfl⟩

theorem keepsBinding_writeField (v : WriterView) (value : Word) (n : Nat) :
    v.unit.KeepsBinding (writeField v value n).unit := by
  obtain ⟨hs, -, hcap⟩ := sameStorage_writeField v value n
  exact hs.keepsBinding fun _ => hcap

theorem keepsBinding_appendBytes (v : WriterView) (bytes : List Byte) :
    v.unit.KeepsBinding (appendBytes v bytes).unit := by
  obtain ⟨hs, -, hcap⟩ := sameStorage_appendBytes bytes v
  exact hs.keepsBinding fun _ => hcap

theorem keepsBinding_tailWrite (v : WriterView) (s : BitString) :
    v.unit.KeepsBinding (tailWrite v s).unit := by
  obtain ⟨hs, hcap⟩ := sameStorage_tailWrite v s
  exact hs.keepsBinding fun _ => hcap

/-- Only owned storage grows (41 R143). -/
theorem keepsBinding_growOwned (v : WriterView) (n : Nat) (ho : v.unit.mode = .owned) :
    v.unit.KeepsBinding (growOwned v n).unit :=
  (growOwned_spec v n ho).1.keepsBinding fun he => by rw [ho] at he; cases he

theorem keepsBinding_ensureCap {own need : Nat} {cause : Cause} {v w : WriterView}
    (h : ensureCap own v need cause = .ok w) : v.unit.KeepsBinding w.unit := by
  rcases (ensureCap_ok h).1 with rfl | ⟨n, ho, -, rfl⟩
  · exact .refl _
  · exact keepsBinding_growOwned v n ho

/-- Only owned storage shrinks (42 R161). -/
theorem keepsBinding_truncateTo (v : WriterView) (len : Nat) :
    v.unit.KeepsBinding (truncateTo v len).unit := by
  refine (sameStorage_truncateTo v len).1.keepsBinding fun he => ?_
  by_cases hne : len = v.unit.valid
  · rw [hne, truncateTo_valid_self]
  · rw [truncateTo_external v len he hne, WriterView.setValid_cap, (zeroBytes_spec _ _ _).2.1,
      (sameStorage_maskLastByte v len).2]

/-- However the rule of a writer command ends, it keeps the binding of the writer `x` it started on. -/
inductive WriterEnd.KeepsBinding (x : Writer) : WriterEnd → Prop
  | done {v : WriterView} {r : Word} {d : List Byte} (h : x.KeepsBinding v.unit) :
      KeepsBinding x (.done v r d)
  | error {c : Cause} : KeepsBinding x (.error c)
  | faulted {c : Cause} : KeepsBinding x (.faulted c)

theorem runWriterWith_keepsBinding {s t : State} {u : Nat} {p : Bool} {rule : WriterView → WriterEnd}
    (h : runWriterWith s u p rule = .next t)
    (hrule : (rule (s.writerView u)).KeepsBinding (s.writer u)) :
    (s.writer u).KeepsBinding (t.writer u) := by
  rcases runWriterWith_next _ _ _ _ _ h with ⟨c, -, -, rfl⟩ | ⟨hu, -, -, -, hend⟩
  · exact .refl _
  · rcases hend with ⟨v, r, d, he, rfl⟩ | ⟨c, -, rfl⟩ | ⟨c, -, rfl⟩
    · rw [he] at hrule
      cases hrule with
      | done hkeep => rwa [← State.writer_commit_self s u v hu] at hkeep
    · exact .refl _
    · have hfault : (s.raiseFault u c).writer u = { s.writer u with st := .faulted } :=
        State.writer_setWriter_self s u _ hu
      rw [hfault]
      exact ⟨rfl, rfl, fun _ => rfl⟩

theorem runWriter_keepsBinding {s t : State} {u : Nat} {rule : WriterView → WriterEnd}
    (h : runWriter s u rule = .next t)
    (hrule : (rule (s.writerView u)).KeepsBinding (s.writer u)) :
    (s.writer u).KeepsBinding (t.writer u) :=
  runWriterWith_keepsBinding h hrule

/-- A writer that is bound is not constructed again (30_encoding R101 step 6). -/
theorem bindWriter_keepsBinding {s t : State} {u : Nat} {made : Except Cause Writer}
    (h : bindWriter s u made = .next t) (hbound : (s.writer u).st ≠ .unbound) :
    (s.writer u).KeepsBinding (t.writer u) := by
  rcases bindWriter_cases s u made with ⟨c, -, -, e⟩ | ⟨⟨-, -, hunbound⟩, -⟩
  · rw [e] at h; cases h; exact .refl _
  · exact absurd hunbound hbound

section
variable {s t : State} {u : Nat}

theorem execWWrite_keepsBinding {nb : Nat} {tw : TypeWidth} (h : execWWrite u tw nb s = .next t) :
    (s.writer u).KeepsBinding (t.writer u) := by
  refine runWriter_keepsBinding h ?_
  split
  · exact .error
  · split
    · exact .error
    · next hcap => exact .done ((keepsBinding_ensureCap hcap).trans (keepsBinding_writeField _ _ _))

theorem execWWbit_keepsBinding (h : execWWbit u s = .next t) :
    (s.writer u).KeepsBinding (t.writer u) := by
  refine runWriter_keepsBinding h ?_
  split
  · exact .error
  · next hcap => exact .done ((keepsBinding_ensureCap hcap).trans (keepsBinding_writeField _ _ _))

theorem execWAppend_keepsBinding (h : execWAppend u s = .next t) :
    (s.writer u).KeepsBinding (t.writer u) := by
  refine runWriterWith_keepsBinding h ?_
  split
  · exact .error
  · next w hcap =>
    have hbytes := (keepsBinding_ensureCap hcap).trans (keepsBinding_appendBytes w s.pkt.payload)
    refine .done ?_
    split
    · exact hbytes
    · exact hbytes.trans (keepsBinding_setCur _ _)

theorem execWInsert_keepsBinding {nb : Nat} {tw : TypeWidth} (h : execWInsert u tw nb s = .next t) :
    (s.writer u).KeepsBinding (t.writer u) := by
  refine runWriter_keepsBinding h ?_
  dsimp only
  split
  · exact .error
  · split
    · exact .error
    · split
      · exact .error
      · split
        · exact .done (.refl _)
        · split
          · exact .error
          · next hcap =>
            have hroom := (keepsBinding_truncateTo _ _).trans (keepsBinding_ensureCap hcap)
            exact .done (((hroom.trans (keepsBinding_tailWrite _ _)).trans
              (keepsBinding_tailWrite _ _)).trans (keepsBinding_setCur _ _))

theorem execWErase_keepsBinding (h : execWErase u s = .next t) :
    (s.writer u).KeepsBinding (t.writer u) := by
  refine runWriter_keepsBinding h ?_
  dsimp only
  split
  · exact .error
  · split
    · exact .done (.refl _)
    · split
      · exact .error
      · next hcap =>
        have hroom := (keepsBinding_truncateTo _ _).trans (keepsBinding_ensureCap hcap)
        exact .done ((hroom.trans (keepsBinding_tailWrite _ _)).trans (keepsBinding_setCur _ _))

/-- A length W.RESIZE cannot hold ends it with nothing stored (42 R166). -/
theorem keepsBinding_of_resizeCheck {own len : Nat} {v : WriterView} {e : WriterEnd} (x : Writer)
    (h : resizeCheck own v len = some e) : e.KeepsBinding x := by
  unfold resizeCheck at h
  split at h <;> split at h <;> cases h
  · exact .faulted
  · exact .error

theorem execWResize_keepsBinding (h : execWResize u s = .next t) :
    (s.writer u).KeepsBinding (t.writer u) := by
  refine runWriter_keepsBinding h ?_
  dsimp only
  split
  · next hcheck => exact keepsBinding_of_resizeCheck _ hcheck
  · split
    · split
      · exact .error
      · next hcap =>
        exact .done (((keepsBinding_ensureCap hcap).trans (keepsBinding_tailWrite _ _)).trans
          (keepsBinding_setCur _ _))
    · exact .done ((keepsBinding_truncateTo (s.writerView u) _).trans (keepsBinding_setCur _ _))

theorem execWReserve_keepsBinding (h : execWReserve u s = .next t) :
    (s.writer u).KeepsBinding (t.writer u) := by
  refine runWriter_keepsBinding h ?_
  split
  · exact .error
  · next ho =>
    split
    · exact .error
    · exact .done (keepsBinding_growOwned (s.writerView u) _ ho)

theorem execWSeek_keepsBinding {org : Origin} (h : execWSeek u org s = .next t) :
    (s.writer u).KeepsBinding (t.writer u) := by
  refine runWriter_keepsBinding h ?_
  split
  · exact .error
  · exact .done (keepsBinding_setCur (s.writerView u) _)

theorem execWAlign_keepsBinding (h : execWAlign u s = .next t) :
    (s.writer u).KeepsBinding (t.writer u) :=
  runWriter_keepsBinding h (.done (keepsBinding_writeField (s.writerView u) _ _))

/-- A released unit keeps the registers of its binding (40 R122; log 7). -/
theorem execWFree_keepsBinding (h : execWFree u s = .next t) :
    (s.writer u).KeepsBinding (t.writer u) :=
  runWriter_keepsBinding h (.done ⟨rfl, rfl, fun _ => rfl⟩)

theorem execWCopy_keepsBinding (h : execWCopy u s = .next t) :
    (s.writer u).KeepsBinding (t.writer u) := by
  refine runWriter_keepsBinding h ?_
  split
  · exact .error
  · exact .done (.refl _)

/-- A writer command that only answers (43 R181 to R184, R186). -/
theorem writerAnswer_keepsBinding {r : WriterView → Word} {d : WriterView → List Byte}
    (h : runWriter s u (fun v => .done v (r v) (d v)) = .next t) :
    (s.writer u).KeepsBinding (t.writer u) :=
  runWriter_keepsBinding h (.done (.refl _))

end

/-- A writer command keeps the binding of the writer it names, if it finds it bound. -/
theorem exec_keepsWriterBinding_self {i : Instr} {s t : State} (hi : i.namesWriter = true)
    (h : exec i s = .next t) (hbound : (s.writer i.unitIndex).st ≠ .unbound) :
    (s.writer i.unitIndex).KeepsBinding (t.writer i.unitIndex) := by
  cases i with
  | wInito u => exact bindWriter_keepsBinding h hbound
  | wAttach u => exact bindWriter_keepsBinding h hbound
  | wFree u => exact execWFree_keepsBinding h
  | wWrite u tw nb => exact execWWrite_keepsBinding h
  | wWbit u => exact execWWbit_keepsBinding h
  | wAppend u => exact execWAppend_keepsBinding h
  | wInsert u tw nb => exact execWInsert_keepsBinding h
  | wErase u => exact execWErase_keepsBinding h
  | wResize u => exact execWResize_keepsBinding h
  | wSeek u org => exact execWSeek_keepsBinding h
  | wAlign u => exact execWAlign_keepsBinding h
  | wReserve u => exact execWReserve_keepsBinding h
  | wTell u => exact writerAnswer_keepsBinding (show execWTell u s = _ from h)
  | wNbits u => exact writerAnswer_keepsBinding (show execWNbits u s = _ from h)
  | wNbytes u => exact writerAnswer_keepsBinding (show execWNbytes u s = _ from h)
  | wPtr u => exact writerAnswer_keepsBinding (show execWPtr u s = _ from h)
  | wCopy u => exact execWCopy_keepsBinding h
  | wDump u => exact writerAnswer_keepsBinding (show execWDump u s = _ from h)
  | rAttach u | rAttache u | rAttachp u | rFree u | rReadu u tw nb | rReads u tw nb | rSeek u org
  | rTell u | rLeft u | rNbits u | rNbytes u | rEof u | rPtr u | rDump u => cases hi

/-- A command keeps the binding of every bound writer. -/
theorem exec_keepsWriterBinding {i : Instr} {s t : State} {u : Nat} (h : exec i s = .next t)
    (hbound : (s.writer u).st ≠ .unbound) : (s.writer u).KeepsBinding (t.writer u) := by
  cases hi : i.namesWriter with
  | true =>
    by_cases hu : u = i.unitIndex
    · subst hu; exact exec_keepsWriterBinding_self hi h hbound
    · obtain ⟨-, hother, -⟩ := exec_onlyWriterChanged hi h
      rw [hother u hu]; exact .refl _
  | false =>
    obtain ⟨⟨-, -, hwriters⟩, -⟩ := exec_onlyReaderChanged hi h
    have hsame : t.writer u = s.writer u := by simp only [State.writer, hwriters]
    rw [hsame]; exact .refl _

/-! ### Readers -/

/-- What stays fixed while a reader is bound: BASE, CAP and VALID (10_state R31). -/
structure Reader.KeepsBinding (x y : Reader) : Prop where
  base : y.base = x.base
  cap : y.cap = x.cap
  valid : y.valid = x.valid

theorem Reader.KeepsBinding.refl (x : Reader) : x.KeepsBinding x := ⟨rfl, rfl, rfl⟩

/-- However the rule of a reader command ends, it keeps the binding of the reader `x` it started on. -/
inductive ReaderEnd.KeepsBinding (x : Reader) : ReaderEnd → Prop
  | done {y : Reader} {r : Word} {d : List Byte} (h : x.KeepsBinding y) :
      KeepsBinding x (.done y r d)
  | error {c : Cause} : KeepsBinding x (.error c)

theorem runReader_keepsBinding {s t : State} {u : Nat} {rule : ReaderView → ReaderEnd}
    (h : runReader s u rule = .next t)
    (hrule : (rule (s.readerView u)).KeepsBinding (s.reader u)) :
    (s.reader u).KeepsBinding (t.reader u) := by
  rcases runReader_next _ _ _ _ h with ⟨c, -, -, rfl⟩ | ⟨⟨hu, -⟩, hend⟩
  · exact .refl _
  · rcases hend with ⟨x, r, d, he, rfl⟩ | ⟨c, -, rfl⟩
    · rw [he] at hrule
      cases hrule with
      | done hkeep => rwa [← State.reader_setReader_self s u x hu] at hkeep
    · exact .refl _

/-- A reader that is bound is not constructed again (30_encoding R101 step 6). -/
theorem bindReader_keepsBinding {s t : State} {u : Nat} {made : Except Cause Reader}
    (h : bindReader s u made = .next t) (hbound : (s.reader u).st ≠ .unbound) :
    (s.reader u).KeepsBinding (t.reader u) := by
  rcases bindReader_cases s u made with ⟨c, -, -, e⟩ | ⟨⟨-, -, hunbound⟩, -⟩
  · rw [e] at h; cases h; exact .refl _
  · exact absurd hunbound hbound

theorem keepsBinding_readField (v : ReaderView) (n : Nat) :
    v.unit.KeepsBinding (readField v n).2.unit := by
  rw [readField_view]
  exact ⟨rfl, rfl, rfl⟩

section
variable {s t : State} {u : Nat}

theorem execRReadu_keepsBinding {nb : Nat} {tw : TypeWidth} (h : execRReadu u tw nb s = .next t) :
    (s.reader u).KeepsBinding (t.reader u) := by
  refine runReader_keepsBinding h ?_
  split
  · exact .done (.refl _)
  · split
    · exact .error
    · exact .done (keepsBinding_readField (s.readerView u) _)

theorem execRReads_keepsBinding {nb : Nat} {tw : TypeWidth} (h : execRReads u tw nb s = .next t) :
    (s.reader u).KeepsBinding (t.reader u) := by
  refine runReader_keepsBinding h ?_
  split
  · exact .done (.refl _)
  · split
    · exact .error
    · exact .done (keepsBinding_readField (s.readerView u) _)

theorem execRSeek_keepsBinding {org : Origin} (h : execRSeek u org s = .next t) :
    (s.reader u).KeepsBinding (t.reader u) := by
  refine runReader_keepsBinding h ?_
  split
  · exact .error
  · exact .done ⟨rfl, rfl, rfl⟩

/-- A released unit keeps the registers of its binding (40 R126; log 7). -/
theorem execRFree_keepsBinding (h : execRFree u s = .next t) :
    (s.reader u).KeepsBinding (t.reader u) :=
  runReader_keepsBinding h (.done ⟨rfl, rfl, rfl⟩)

/-- A reader command that only answers (44 R205 to R211). -/
theorem readerAnswer_keepsBinding {r : ReaderView → Word} {d : ReaderView → List Byte}
    (h : runReader s u (fun v => .done v.unit (r v) (d v)) = .next t) :
    (s.reader u).KeepsBinding (t.reader u) :=
  runReader_keepsBinding h (.done (.refl _))

end

/-- A reader command keeps the binding of the reader it names, if it finds it bound. -/
theorem exec_keepsReaderBinding_self {i : Instr} {s t : State} (hi : i.namesWriter = false)
    (h : exec i s = .next t) (hbound : (s.reader i.unitIndex).st ≠ .unbound) :
    (s.reader i.unitIndex).KeepsBinding (t.reader i.unitIndex) := by
  cases i with
  | rAttach u => exact bindReader_keepsBinding h hbound
  | rAttache u => exact bindReader_keepsBinding h hbound
  | rAttachp u => exact bindReader_keepsBinding h hbound
  | rFree u => exact execRFree_keepsBinding h
  | rReadu u tw nb => exact execRReadu_keepsBinding h
  | rReads u tw nb => exact execRReads_keepsBinding h
  | rSeek u org => exact execRSeek_keepsBinding h
  | rTell u => exact readerAnswer_keepsBinding (show execRTell u s = _ from h)
  | rLeft u => exact readerAnswer_keepsBinding (show execRLeft u s = _ from h)
  | rNbits u => exact readerAnswer_keepsBinding (show execRNbits u s = _ from h)
  | rNbytes u => exact readerAnswer_keepsBinding (show execRNbytes u s = _ from h)
  | rEof u => exact readerAnswer_keepsBinding (show execREof u s = _ from h)
  | rPtr u => exact readerAnswer_keepsBinding (show execRPtr u s = _ from h)
  | rDump u => exact readerAnswer_keepsBinding (show execRDump u s = _ from h)
  | wInito u | wAttach u | wFree u | wWrite u tw nb | wWbit u | wAppend u | wInsert u tw nb
  | wErase u | wResize u | wSeek u org | wAlign u | wReserve u | wTell u | wNbits u | wNbytes u
  | wPtr u | wCopy u | wDump u => cases hi

/-- A command keeps the binding of every bound reader. -/
theorem exec_keepsReaderBinding {i : Instr} {s t : State} {u : Nat} (h : exec i s = .next t)
    (hbound : (s.reader u).st ≠ .unbound) : (s.reader u).KeepsBinding (t.reader u) := by
  cases hi : i.namesWriter with
  | true =>
    obtain ⟨-, -, hreaders⟩ := exec_onlyWriterChanged hi h
    have hsame : t.reader u = s.reader u := by simp only [State.reader, hreaders]
    rw [hsame]; exact .refl _
  | false =>
    obtain ⟨⟨-, hother, -⟩, -⟩ := exec_onlyReaderChanged hi h
    by_cases hu : u = i.unitIndex
    · subst hu; exact exec_keepsReaderBinding_self hi h hbound
    · rw [hother u hu]; exact .refl _

/-! ### One step -/

/-- Every step but a reset keeps the binding of every bound unit. -/
theorem step_keepsBinding {s t : State} (u : Nat) (h : step s = .next t)
    (hreset : ∀ rest, s.host ≠ .reset :: rest) (hduring : ∀ p rest, s.host ≠ .resetDuring p :: rest) :
    ((s.writer u).st ≠ .unbound → (s.writer u).KeepsBinding (t.writer u)) ∧
    ((s.reader u).st ≠ .unbound → (s.reader u).KeepsBinding (t.reader u)) := by
  rcases step_cases s with ⟨-, e⟩ | ⟨p, rest, err, -, -, e⟩ | ⟨p, rest, i, -, -, e⟩ |
    ⟨a, v, rest, -, e⟩ | ⟨rest, hhost, -⟩ | ⟨p, rest, hhost, -⟩
  · rw [e] at h; cases h
    exact ⟨fun _ => .refl _, fun _ => .refl _⟩
  · rw [e] at h; cases h
    exact ⟨fun _ => .refl _, fun _ => .refl _⟩
  · rw [e] at h
    exact ⟨exec_keepsWriterBinding (s := s.take p rest) h,
      exec_keepsReaderBinding (s := s.take p rest) h⟩
  · rw [e] at h; cases h
    exact ⟨fun _ => .refl _, fun _ => .refl _⟩
  · exact absurd hhost (hreset rest)
  · exact absurd hhost (hduring p rest)

end Sys2Proof.Machine
end

section
open Sys2Proof Sys2Proof.Machine

/-- Settles O56: no rule changes the binding of the unit it runs on, not even a release (log 7), and a
bound unit is not constructed again. -/
theorem bindingIsFixedForALifetime : Obligations.BindingIsFixedForALifetime := by
  intro s t u hstep hreset hduring
  obtain ⟨hwriter, hreader⟩ := step_keepsBinding u hstep hreset hduring
  refine ⟨fun hbound _ => ?_, fun hready _ => ?_⟩
  · obtain ⟨hmode, hbase, hcap⟩ := hwriter hbound
    exact ⟨hmode, hbase, hcap⟩
  · obtain ⟨hbase, hcap, hvalid⟩ := hreader (by rw [hready]; decide)
    exact ⟨hbase, hcap, hvalid⟩

end

section
/-! SUPPORT. Construction and release, clause by clause (40 R120 to R126): which units refuse, what each
check answers in its order, and what a command that ends with OK leaves. -/
namespace Sys2Proof.Machine

/-! ### Refusals (30_encoding R101 steps 5 and 6) -/

theorem exec_illState_of_writer {i : Instr} {s : State} (hw : i.namesWriter = true)
    (hu : i.unitIndex < s.nw) (hp : payloadFits i s.pkt = true)
    (hf : (s.writer i.unitIndex).st ≠ .faulted) (hst : (s.writer i.unitIndex).st ≠ writerNeed i) :
    exec i s = .next (s.raise .illState) := by
  obtain ⟨-, -, -, hstate⟩ := admitWriter_order s i.unitIndex (payloadFits i s.pkt) (writerNeed i)
  exact exec_of_admitWriter_refuse hw (hstate hu hp hf hst)

theorem exec_illState_of_reader {i : Instr} {s : State} (hr : i.namesWriter = false)
    (hu : i.unitIndex < s.nr) (hp : s.pkt.payload = [])
    (hst : (s.reader i.unitIndex).st ≠ readerNeed i) : exec i s = .next (s.raise .illState) := by
  obtain ⟨-, -, hstate⟩ := admitReader_order s i.unitIndex (readerNeed i)
  exact exec_of_admitReader_refuse hr (hstate hu hp hst)

/-- A READY writer is not constructed again. -/
theorem exec_constructs_of_ready_writer {i : Instr} {s : State} (hw : i.namesWriter = true)
    (hc : constructs i = true) (hu : i.unitIndex < s.nw) (hp : s.pkt.payload = [])
    (hready : (s.writer i.unitIndex).st = .ready) : exec i s = .next (s.raise .illState) := by
  have hfits : payloadFits i s.pkt = true := by rw [payloadFits_constructs hc]; exact decide_eq_true hp
  refine exec_illState_of_writer hw hu hfits ?_ ?_ <;> simp [hready, writerNeed, hc]

/-- A READY reader is not constructed again. -/
theorem exec_constructs_of_ready_reader {i : Instr} {s : State} (hr : i.namesWriter = false)
    (hc : constructs i = true) (hu : i.unitIndex < s.nr) (hp : s.pkt.payload = [])
    (hready : (s.reader i.unitIndex).st = .ready) : exec i s = .next (s.raise .illState) :=
  exec_illState_of_reader hr hu hp (by simp [hready, readerNeed, hc])

/-! ### How a command that ends with OK leaves the state -/

/-- Ending a command with OK on a state whose response side is still that of `s`. -/
theorem endsOk_done {s t : State} (r : Word) (d : List Byte) (herrlog : t.errlog = s.errlog)
    (hresponses : t.responses = s.responses) (hhost : t.host = s.host)
    (hctr : t.freeCtr = s.freeCtr) (hown : t.ownMax = s.ownMax) : EndsOk s (t.done r d) r d := by
  have hflags : t.errlog ||| Status.ok.logBit = s.errlog := by rw [herrlog]; simp
  refine ⟨⟨rfl, rfl, rfl, rfl, hflags⟩, ?_, rfl, hhost, hctr, hown⟩
  rw [State.done_responses, hresponses, hflags]
  rfl

/-- A command that puts `x` in the place of writer `u` and ends with OK. -/
theorem setWriter_done_spec {s : State} {u : Nat} (x : Writer) (hu : u < s.nw) :
    EndsOk s ((s.setWriter u x).done 0 []) 0 [] ∧
    OnlyWriterChanged s ((s.setWriter u x).done 0 []) u ∧
    ((s.setWriter u x).done 0 []).xmem = s.xmem ∧
    ((s.setWriter u x).done 0 []).writer u = x :=
  ⟨endsOk_done 0 [] rfl rfl rfl rfl rfl, onlyWriterChanged_setWriter s u x, rfl,
    State.writer_setWriter_self s u x hu⟩

/-- A command that puts `x` in the place of reader `r` and ends with OK. -/
theorem setReader_done_spec {s : State} {r : Nat} (x : Reader) (hr : r < s.nr) :
    EndsOk s ((s.setReader r x).done 0 []) 0 [] ∧
    OnlyReaderChanged s ((s.setReader r x).done 0 []) r ∧
    ((s.setReader r x).done 0 []).xmem = s.xmem ∧
    ((s.setReader r x).done 0 []).reader r = x :=
  ⟨endsOk_done 0 [] rfl rfl rfl rfl rfl, onlyReaderChanged_setReader s r x, rfl,
    State.reader_setReader_self s r x hr⟩

/-! ### What a construction answers on an UNBOUND unit -/

theorem bindWriter_error {s : State} {u : Nat} (h : s.WriterBinds u) (c : Cause) :
    bindWriter s u (.error c) = .next (s.raise c) := by
  obtain ⟨hu, hp, hst⟩ := h
  unfold bindWriter
  rw [(admitWriter_granted_iff s u _ .unbound (by decide)).2
    ⟨hu, decide_eq_true hp, hst, fun hn => by cases hn⟩]

theorem bindWriter_ok {s : State} {u : Nat} (h : s.WriterBinds u) (x : Writer) :
    bindWriter s u (.ok x) = .next ((s.setWriter u x).done 0 []) := by
  obtain ⟨hu, hp, hst⟩ := h
  unfold bindWriter
  rw [(admitWriter_granted_iff s u _ .unbound (by decide)).2
    ⟨hu, decide_eq_true hp, hst, fun hn => by cases hn⟩]

theorem bindReader_error {s : State} {r : Nat} (h : s.ReaderBinds r) (c : Cause) :
    bindReader s r (.error c) = .next (s.raise c) := by
  obtain ⟨hr, hp, hst⟩ := h
  unfold bindReader
  rw [(admitReader_granted_iff s r .unbound).2 ⟨hr, hp, hst, fun hn => by cases hn⟩]

theorem bindReader_ok {s : State} {r : Nat} (h : s.ReaderBinds r) (x : Reader) :
    bindReader s r (.ok x) = .next ((s.setReader r x).done 0 []) := by
  obtain ⟨hr, hp, hst⟩ := h
  unfold bindReader
  rw [(admitReader_granted_iff s r .unbound).2 ⟨hr, hp, hst, fun hn => by cases hn⟩]

/-- A region that can be attached (40 R121, R123): the three checks in their order, then the valid-bits
count, where 0 stands for the whole region. -/
theorem regionValid_order (base : Word) (len nv : Nat) :
    (len > 2 ^ 61 - 1 → regionValid base len nv = .error .cfgLength) ∧
    (len ≤ 2 ^ 61 - 1 → base.toNat + len > 2 ^ 64 → regionValid base len nv = .error .cfgWrap) ∧
    (len ≤ 2 ^ 61 - 1 → base.toNat + len ≤ 2 ^ 64 → nv > 8 * len →
      regionValid base len nv = .error .cfgNvalid) ∧
    (len ≤ 2 ^ 61 - 1 → base.toNat + len ≤ 2 ^ 64 → nv ≤ 8 * len →
      regionValid base len nv = .ok (if nv = 0 then 8 * len else nv)) := by
  unfold regionValid Config.extMaxBytes Config.addrSpace
  refine ⟨fun hlen => ?_, fun hlen hwrap => ?_, fun hlen hwrap hnv => ?_, fun hlen hwrap hnv => ?_⟩
  · rw [if_pos hlen]
  · rw [if_neg (Nat.not_lt.2 hlen), if_pos hwrap]
  · rw [if_neg (Nat.not_lt.2 hlen), if_neg (Nat.not_lt.2 hwrap), if_pos hnv]
  · rw [if_neg (Nat.not_lt.2 hlen), if_neg (Nat.not_lt.2 hwrap), if_neg (Nat.not_lt.2 hnv)]

theorem exec_wAttach_error {s : State} {u : Nat} {c : Cause} (hb : s.WriterBinds u)
    (h : regionValid s.pkt.a s.pkt.b.toNat s.pkt.c.toNat = .error c) :
    exec (.wAttach u) s = .next (s.raise c) := by
  show execWAttach u s = _
  unfold execWAttach
  rw [h]
  exact bindWriter_error hb c

theorem exec_wAttach_ok {s : State} {u valid : Nat} (hb : s.WriterBinds u)
    (h : regionValid s.pkt.a s.pkt.b.toNat s.pkt.c.toNat = .ok valid) :
    exec (.wAttach u) s =
      .next ((s.setWriter u (Writer.attached s.pkt.a s.pkt.b.toNat valid)).done 0 []) := by
  show execWAttach u s = _
  unfold execWAttach
  rw [h]
  exact bindWriter_ok hb _

theorem exec_rAttach_error {s : State} {r : Nat} {c : Cause} (hb : s.ReaderBinds r)
    (h : regionValid s.pkt.a s.pkt.b.toNat s.pkt.c.toNat = .error c) :
    exec (.rAttach r) s = .next (s.raise c) := by
  show execRAttach r s = _
  unfold execRAttach
  rw [h]
  exact bindReader_error hb c

theorem exec_rAttach_ok {s : State} {r valid : Nat} (hb : s.ReaderBinds r)
    (h : regionValid s.pkt.a s.pkt.b.toNat s.pkt.c.toNat = .ok valid) :
    exec (.rAttach r) s =
      .next ((s.setReader r (Reader.attached s.pkt.a s.pkt.b.toNat valid)).done 0 []) := by
  show execRAttach r s = _
  unfold execRAttach
  rw [h]
  exact bindReader_ok hb _

/-- Storage that lists no byte reads as 0 everywhere (10_state R27; log 15). -/
theorem byte_owning (n k : Nat) (m : Memory) :
    WriterView.byte { unit := Writer.owning n, xmem := m } k = 0 := rfl

/-! ### Release -/

theorem exec_wFree_of_takes {s : State} {u : Nat} (h : s.WriterTakes u) :
    exec (.wFree u) s = .next ((s.setWriter u (s.writer u).freed).done 0 []) :=
  runWriter_granted s u (fun v => .done { v with unit := v.unit.freed } 0 []) h

theorem exec_rFree_of_takes {s : State} {r : Nat} (h : s.ReaderTakes r) :
    exec (.rFree r) s = .next ((s.setReader r { s.reader r with st := .unbound }).done 0 []) :=
  runReader_granted s r (fun v => .done { v.unit with st := .unbound } 0 []) h

/-- An UNBOUND writer has nothing to release. -/
theorem exec_wFree_of_unbound {s : State} {u : Nat} (hu : u < s.nw) (hp : s.pkt.payload = [])
    (hst : (s.writer u).st = .unbound) : exec (.wFree u) s = .next (s.raise .illState) := by
  have hneed : writerNeed (.wFree u) = .ready := rfl
  refine exec_illState_of_writer (i := .wFree u) rfl hu (decide_eq_true hp) ?_ ?_ <;>
    simp [Instr.unitIndex, hst, hneed]

/-- An UNBOUND reader has nothing to release. -/
theorem exec_rFree_of_unbound {s : State} {r : Nat} (hr : r < s.nr) (hp : s.pkt.payload = [])
    (hst : (s.reader r).st = .unbound) : exec (.rFree r) s = .next (s.raise .illState) := by
  have hneed : readerNeed (.rFree r) = .ready := rfl
  exact exec_illState_of_reader (i := .rFree r) rfl hr hp (by simp [Instr.unitIndex, hst, hneed])

/-- A FAULTED writer is released by a reset only (60_exceptions R241). -/
theorem exec_wFree_of_faulted {s : State} {u : Nat} (hu : u < s.nw) (hp : s.pkt.payload = [])
    (hst : (s.writer u).st = .faulted) : exec (.wFree u) s = .next (s.raise .unitFaulted) := by
  obtain ⟨-, -, hfaulted, -⟩ := admitWriter_order s u (payloadFits (.wFree u) s.pkt) .ready
  exact exec_of_admitWriter_refuse (i := .wFree u) rfl (hfaulted hu (decide_eq_true hp) hst)

end Sys2Proof.Machine
end

section
open Sys2Proof Sys2Proof.Machine

/-- Settles O23: the one check of W.INITO is on the size; the storage made lists no byte. -/
theorem wInitoConstructsOwnedWriter : Obligations.WInitoConstructsOwnedWriter := by
  intro s u
  refine ⟨fun hu hp hready => exec_constructs_of_ready_writer rfl rfl hu hp hready, fun hb => ?_⟩
  refine ⟨fun hbig => ?_, fun hfits => ?_⟩
  · show execWInito u s = _
    unfold execWInito
    rw [if_pos hbig, bindWriter_error hb]
  · obtain ⟨hends, honly, hxmem, hunit⟩ :=
      setWriter_done_spec (Writer.owning s.pkt.a.toNat) hb.1
    refine ⟨_, ?_, hends, honly, hxmem, hunit, fun k _ => ?_⟩
    · show execWInito u s = _
      unfold execWInito
      rw [if_neg (Nat.not_lt.2 hfits), bindWriter_ok hb]
    · rw [State.writerView, hunit, byte_owning]

/-- Settles O24: the checks of the region come in R121's order, before the unit is made. -/
theorem wAttachConstructsExternalWriter : Obligations.WAttachConstructsExternalWriter := by
  intro s u base len nv
  refine ⟨fun hu hp hready => exec_constructs_of_ready_writer rfl rfl hu hp hready, fun hb => ?_⟩
  obtain ⟨hlength, hwraps, hnvalid, hok⟩ := regionValid_order base len nv
  refine ⟨fun hl => exec_wAttach_error hb (hlength hl),
    fun hl hw => exec_wAttach_error hb (hwraps hl hw),
    fun hl hw hn => exec_wAttach_error hb (hnvalid hl hw hn), fun hl hw hn => ?_⟩
  exact ⟨_, exec_wAttach_ok hb (hok hl hw hn), setWriter_done_spec _ hb.1⟩

/-- Settles O25: the checks of the region come in R123's order, before the unit is made. -/
theorem rAttachConstructsReader : Obligations.RAttachConstructsReader := by
  intro s r base len nv
  refine ⟨fun hr hp hready => exec_constructs_of_ready_reader rfl rfl hr hp hready, fun hb => ?_⟩
  obtain ⟨hlength, hwraps, hnvalid, hok⟩ := regionValid_order base len nv
  refine ⟨fun hl => exec_rAttach_error hb (hlength hl),
    fun hl hw => exec_rAttach_error hb (hwraps hl hw),
    fun hl hw hn => exec_rAttach_error hb (hnvalid hl hw hn), fun hl hw hn => ?_⟩
  exact ⟨_, exec_rAttach_ok hb (hok hl hw hn), setReader_done_spec _ hb.1⟩

/-- Settles O26: the region is checked for its order and for its length; both give CFG_LENGTH. -/
theorem rAttacheConstructsReader : Obligations.RAttacheConstructsReader := by
  intro s r first last
  refine ⟨fun hr hp hready => exec_constructs_of_ready_reader rfl rfl hr hp hready, fun hb => ?_⟩
  have hmax : Config.extMaxBytes = 2 ^ 61 - 1 := rfl
  refine ⟨fun hbad => ?_, fun horder hlen => ?_⟩
  · show execRAttache r s = _
    unfold execRAttache
    by_cases horder : last < first
    · rw [if_pos horder, bindReader_error hb]
    · rw [if_neg horder]
      dsimp only
      rw [if_pos (show last - first > Config.extMaxBytes by omega), bindReader_error hb]
  · refine ⟨_, ?_, setReader_done_spec (Reader.attached s.pkt.a (last - first) (8 * (last - first)))
      hb.1⟩
    show execRAttache r s = _
    unfold execRAttache
    rw [if_neg (Nat.not_lt.2 horder)]
    dsimp only
    rw [if_neg (show ¬ last - first > Config.extMaxBytes by omega), bindReader_ok hb]

/-- Settles O27: the three checks of R125 come in their order, on the least region that holds the bits. -/
theorem rAttachpConstructsReader : Obligations.RAttachpConstructsReader := by
  intro s r nv len
  refine ⟨fun hr hp hready => exec_constructs_of_ready_reader rfl rfl hr hp hready, fun hb => ?_⟩
  refine ⟨fun hzero => ?_, fun hzero hlen => ?_, fun hzero hlen hwrap => ?_,
    fun hzero hlen hwrap => ⟨_, ?_, setReader_done_spec (Reader.attached s.pkt.a len nv) hb.1⟩⟩
  all_goals
    show execRAttachp r s = _
    unfold execRAttachp
  · rw [if_pos hzero, bindReader_error hb]
  · rw [if_neg hzero]
    dsimp only
    rw [if_pos (show ceil8 nv > Config.extMaxBytes from hlen), bindReader_error hb]
  · rw [if_neg hzero]
    dsimp only
    rw [if_neg (show ¬ ceil8 nv > Config.extMaxBytes from Nat.not_lt.2 hlen),
      if_pos (show s.pkt.a.toNat + ceil8 nv > Config.addrSpace from hwrap), bindReader_error hb]
  · rw [if_neg hzero]
    dsimp only
    rw [if_neg (show ¬ ceil8 nv > Config.extMaxBytes from Nat.not_lt.2 hlen),
      if_neg (show ¬ s.pkt.a.toNat + ceil8 nv > Config.addrSpace from Nat.not_lt.2 hwrap),
      bindReader_ok hb]
    rfl

/-- Settles O28: a release writes ST and drops the owned bytes; the other registers stay (log 7). -/
theorem freeReleasesTheUnit : Obligations.FreeReleasesTheUnit := by
  refine ⟨fun s u => ⟨exec_wFree_of_unbound, exec_wFree_of_faulted, fun htakes => ?_⟩,
    fun s r => ⟨exec_rFree_of_unbound, fun htakes => ?_⟩⟩
  · obtain ⟨hends, honly, hxmem, hunit⟩ := setWriter_done_spec (s.writer u).freed htakes.1
    refine ⟨_, exec_wFree_of_takes htakes, hends, honly, hxmem, fun ho => ?_, ?_⟩
    · rw [hunit]; exact if_pos ho
    · rw [hunit]; rfl
  · exact ⟨_, exec_rFree_of_takes htakes, setReader_done_spec _ htakes.1⟩

end

section
/-! SUPPORT. A field write bit by bit (41 R140): which bits it leaves in its span, what it leaves alone,
and what room an EnsureCap that passes makes for it (41 R143). -/
namespace Sys2Proof.Machine

/-! ### Runs of PutChunks -/

theorem Puts.sameStorage {n : Nat} {v w : WriterView} (h : Puts n v w) : SameStorage v w := by
  induction h with
  | nil v => exact SameStorage.refl v
  | cons chunk k _ _ _ _ ih => exact (sameStorage_putChunk _ chunk k).trans ih

/-- A run of PutChunks stores only in bytes that hold a bit of its span (20_memory R66). -/
theorem Puts.storesAt {P : Nat → Prop} {n : Nat} {v w : WriterView} (h : Puts n v w)
    (hP : ∀ i, v.unit.cur ≤ i → i < v.unit.cur + n → P (i / 8)) : StoresAt P v w := by
  induction h with
  | nil v => exact .refl v
  | @cons v w n chunk k hpos hle _ _ ih =>
    have hfst : P (v.unit.cur / 8) := hP _ (Nat.le_refl _) (by omega)
    have hsnd : 8 < v.unit.cur % 8 + k → P (v.unit.cur / 8 + 1) := fun hover => by
      have hlast := hP (v.unit.cur + k - 1) (by omega) (by omega)
      rwa [show (v.unit.cur + k - 1) / 8 = v.unit.cur / 8 + 1 by omega] at hlast
    refine (storesAt_putChunk v chunk k hfst hsnd).trans (ih fun i hlo hhi => ?_)
    rw [putChunk_cur] at hlo hhi
    exact hP i (by omega) (by omega)

/-- Of the registers a run of PutChunks moves CUR and VALID alone (41 R140). -/
theorem Puts.unit {n : Nat} {v w : WriterView} (h : Puts n v w) :
    w.unit = { v.unit with cur := w.unit.cur, valid := w.unit.valid, omem := w.unit.omem } := by
  have hs := h.sameStorage
  dsimp only
  rw [← hs.st, ← hs.mode, ← hs.base, ← h.cap]

/-! ### The bits of a field -/

/-- The whole bytes of a field, the most significant bit first. -/
theorem bitAt_writeWholeBytes_inside (value : Word) (q : Nat) : ∀ (v : WriterView) (j : Nat),
    j < 8 * q →
    bitAt (writeWholeBytes v value q).byte (v.unit.cur + j) = value.getLsbD (8 * q - 1 - j) := by
  induction q with
  | zero => exact fun _ _ hj => absurd hj (Nat.not_lt_zero _)
  | succ q ih =>
    intro v j hj
    rw [writeWholeBytes]
    have hcur := putChunk_cur v ((value >>> (8 * q)).setWidth 8) 8
    by_cases hfst : j < 8
    · have hbit : 8 * q + (8 - 1 - j) = 8 * (q + 1) - 1 - j := by omega
      rw [(puts_writeWholeBytes value q _).bitAt_outside _ (.inl (by omega)),
        bitAt_putChunk_inside _ _ _ _ (Nat.le_refl _) (BitVec.isLt _) hfst,
        BitVec.getLsbD_setWidth, BitVec.getLsbD_ushiftRight, hbit,
        decide_eq_true (show 8 - 1 - j < 8 by omega), Bool.true_and]
    · have hrest := ih (putChunk v ((value >>> (8 * q)).setWidth 8) 8) (j - 8) (by omega)
      rw [hcur, show v.unit.cur + 8 + (j - 8) = v.unit.cur + j by omega,
        show 8 * q - 1 - (j - 8) = 8 * (q + 1) - 1 - j by omega] at hrest
      exact hrest

/-- The leading chunk of a field: the `r` bits of the value above its whole bytes. -/
theorem getLsbD_leadChunk (value : Word) (q r j : Nat) (hr : r ≤ 8) (hj : j < r) :
    ((value >>> q).setWidth 8 &&& mask 8 r).getLsbD j = value.getLsbD (q + j) := by
  simp [getLsbD_mask, hj, show j < 8 by omega]

/-- WriteField puts the value's low `n` bits at the cursor, the most significant first (41 R140). -/
theorem bitAt_writeField_inside (v : WriterView) (value : Word) (n j : Nat) (hj : j < n) :
    bitAt (writeField v value n).byte (v.unit.cur + j) = value.getLsbD (n - 1 - j) := by
  unfold writeField
  by_cases hlead : n % 8 > 0
  · simp only [hlead, if_true]
    generalize hchunk : (value >>> (8 * (n / 8))).setWidth 8 &&& mask 8 (n % 8) = chunk
    have hcur := putChunk_cur v chunk (n % 8)
    by_cases hfst : j < n % 8
    · have hfit : chunk.toNat < 2 ^ (n % 8) := hchunk ▸ toNat_and_mask_lt _ _
      rw [(puts_writeWholeBytes value (n / 8) _).bitAt_outside _ (.inl (by omega)),
        bitAt_putChunk_inside v chunk _ _ (by omega) hfit hfst, ← hchunk,
        getLsbD_leadChunk _ _ _ _ (by omega) (by omega)]
      congr 1; omega
    · have hrest := bitAt_writeWholeBytes_inside value (n / 8) (putChunk v chunk (n % 8)) (j - n % 8)
        (by omega)
      rw [hcur, show v.unit.cur + n % 8 + (j - n % 8) = v.unit.cur + j by omega,
        show 8 * (n / 8) - 1 - (j - n % 8) = n - 1 - j by omega] at hrest
      exact hrest
  · simp only [hlead, if_false]
    rw [bitAt_writeWholeBytes_inside value (n / 8) v j (by omega)]
    congr 1; omega

/-- The bytes of W.APPEND stand at the cursor in their order (41 R144). -/
theorem bitAt_appendBytes_inside (bytes : List Byte) : ∀ (v : WriterView) (j : Nat),
    j < 8 * bytes.length →
    bitAt (appendBytes v bytes).byte (v.unit.cur + j) =
      (bytes.getD (j / 8) 0).getLsbD (7 - j % 8) := by
  induction bytes with
  | nil => exact fun _ _ hj => absurd hj (Nat.not_lt_zero _)
  | cons b bytes ih =>
    intro v j hj
    have hcons : appendBytes v (b :: bytes) = appendBytes (writeField v (b.setWidth 64) 8) bytes := rfl
    have hcur := (puts_writeField v (b.setWidth 64) 8).cur
    rw [List.length_cons] at hj
    rw [hcons]
    by_cases hfst : j < 8
    · rw [(puts_appendBytes bytes _).bitAt_outside _ (.inl (by omega)),
        bitAt_writeField_inside _ _ _ _ hfst, Nat.div_eq_of_lt hfst, Nat.mod_eq_of_lt hfst,
        List.getD_cons_zero, BitVec.getLsbD_setWidth, decide_eq_true (by omega), Bool.true_and]
    · have hrest := ih (writeField v (b.setWidth 64) 8) (j - 8) (by omega)
      rw [hcur, show v.unit.cur + 8 + (j - 8) = v.unit.cur + j by omega,
        show (j - 8) % 8 = j % 8 by omega] at hrest
      rw [hrest, show j / 8 = (j - 8) / 8 + 1 by omega, List.getD_cons_succ]

/-! ### Room for a field -/

/-- `w` is `v` with room for `need` bits (41 R143): OWNED storage gained 0 bytes as far as needed. -/
structure MadeRoom (need : Nat) (v w : WriterView) : Prop where
  storage : SameStorage v w
  xmem : w.xmem = v.xmem
  cur : w.unit.cur = v.unit.cur
  valid : w.unit.valid = v.unit.valid
  cap : w.unit.cap = if v.unit.mode = .owned then max v.unit.cap (ceil8 need) else v.unit.cap
  kept : ∀ k, k < v.unit.cap → w.byte k = v.byte k
  fresh : ∀ k, v.unit.cap ≤ k → k < w.unit.cap → w.byte k = 0

/-- Storage that has the room already stays as it is. -/
theorem MadeRoom.refl {need : Nat} {v : WriterView} (h : need ≤ 8 * v.unit.cap) :
    MadeRoom need v v where
  storage := .refl v
  xmem := rfl
  cur := rfl
  valid := rfl
  cap := by rw [Nat.max_eq_left ((ceil8_le_iff _ _).2 h), ite_self]
  kept _ _ := rfl
  fresh _ hlo hhi := absurd hhi (Nat.not_lt.2 hlo)

theorem madeRoom_growOwned {need : Nat} {v : WriterView} (ho : v.unit.mode = .owned) :
    MadeRoom need v (growOwned v (ceil8 need)) := by
  obtain ⟨hstorage, hcap, hvalid, hcur, hkept, hfresh⟩ := growOwned_spec v (ceil8 need) ho
  exact ⟨hstorage, hstorage.xmem ho, hcur, hvalid, by rw [hcap, if_pos ho], hkept,
    fun k hlo hhi => hfresh k hlo (by omega)⟩

section
variable {s : State} {u need : Nat} (cause : Cause)

/-- EnsureCap passes within the capacity the storage can have, and makes the room asked for. -/
theorem ensureCap_of_capacityFor (h : CapacityFor s u need) :
    ∃ w, ensureCap s.ownMax (s.writerView u) need cause = .ok w ∧
      MadeRoom need (s.writerView u) w := by
  rcases ensureCap_cases s.ownMax (s.writerView u) need cause with
    ⟨he, hfull, -⟩ | ⟨-, hroom, hok⟩ | ⟨ho, hfull, -⟩ | ⟨ho, -, hok⟩
  · exact absurd (h.1 he) (Nat.not_le.2 hfull)
  · exact ⟨_, hok, .refl hroom⟩
  · exact absurd (h.2 ho) (Nat.not_le.2 hfull)
  · exact ⟨_, hok, madeRoom_growOwned ho⟩

theorem ensureCap_external_full (he : (s.writer u).mode = .external)
    (hfull : need > 8 * (s.writer u).cap) :
    ensureCap s.ownMax (s.writerView u) need cause = .error cause := by
  unfold ensureCap
  rw [State.writerView_unit, he]
  exact if_pos hfull

theorem ensureCap_owned_full (ho : (s.writer u).mode = .owned) (hfull : ceil8 need > s.ownMax) :
    ensureCap s.ownMax (s.writerView u) need cause = .error .nomemGrow := by
  unfold ensureCap
  rw [State.writerView_unit, ho]
  exact if_pos hfull

end

/-! ### The state after a field write -/

theorem writerView_commit_done {s : State} {u : Nat} (hu : u < s.nw) (v : WriterView) (r : Word)
    (d : List Byte) : ((s.commit u v).done r d).writerView u = v := by
  have hunit : ((s.commit u v).done r d).writer u = v.unit := State.writer_commit_self s u v hu
  rw [State.writerView, hunit]; rfl

/-- A field written where room was made, and the cursor then put at `cur`, is a FieldWritten. -/
theorem fieldWritten_of_puts {s : State} {u n cur : Nat} {f : Nat → Bool} {v w : WriterView}
    (hu : u < s.nw) (hsound : (s.writer u).cur ≤ (s.writer u).valid)
    (hroom : MadeRoom ((s.writer u).cur + n) (s.writerView u) v) (hputs : Puts n v w)
    (hbits : ∀ j, j < n → bitAt w.byte (v.unit.cur + j) = f j) :
    FieldWritten s ((s.commit u (w.setCur cur)).done 0 []) u n cur f := by
  have hcur : v.unit.cur = (s.writer u).cur := hroom.cur
  have hvalid : v.unit.valid = (s.writer u).valid := hroom.valid
  have hstorage := hroom.storage.trans hputs.sameStorage
  have hunit : ((s.commit u (w.setCur cur)).done 0 []).writer u = (w.setCur cur).unit :=
    State.writer_commit_self s u _ hu
  have hbit : ∀ i, ((s.commit u (w.setCur cur)).done 0 []).wbit u i = bitAt w.byte i := fun i => by
    rw [State.wbit, writerView_commit_done hu, WriterView.byte_setCur]
  have hstores : StoresAt (fun k => ∃ i, (s.writer u).cur ≤ i ∧ i < (s.writer u).cur + n ∧ k = i / 8)
      (s.writerView u) w :=
    (StoresAt.of_xmem_eq hroom.storage.mode hroom.storage.base hroom.xmem).trans
      (hputs.storesAt fun i hlo hhi => ⟨i, by omega, by omega, rfl⟩)
  unfold FieldWritten SameBinding XmemStoredOnly
  simp only [hunit, hbit, ← hcur]
  refine ⟨⟨hstorage.st, hstorage.mode, hstorage.base⟩, hbits, fun i hi hout => ?_,
    fun i hlo hhi hout => ?_, rfl, ?_, ?_, hstores.owned, fun a ha => ?_⟩
  · rw [hputs.bitAt_outside i hout]
    exact bitAt_congr (hroom.kept _ (by rw [State.writerView_unit]; omega))
  · rw [WriterView.setCur_cap, hputs.cap] at hhi
    have hzero : v.byte (i / 8) = 0 :=
      hroom.fresh _ (by rw [State.writerView_unit]; omega) (by omega)
    rw [hputs.bitAt_outside i hout]
    simp [bitAt, hzero]
  · rw [WriterView.setCur_valid, hputs.valid (by rw [hcur, hvalid]; exact hsound), hvalid]
  · rw [WriterView.setCur_cap, hputs.cap, hroom.cap, hcur]; rfl
  · refine hstores.outside a fun k hk => ?_
    obtain ⟨i, hlo, hhi, rfl⟩ := hk
    exact ha i (by omega) (by omega)

/-- How a command that writes a field and ends with OK leaves the state. -/
theorem commit_done_field_spec {s : State} {u n cur : Nat} {f : Nat → Bool} {v w : WriterView}
    (hu : u < s.nw) (hsound : (s.writer u).cur ≤ (s.writer u).valid)
    (hroom : MadeRoom ((s.writer u).cur + n) (s.writerView u) v) (hputs : Puts n v w)
    (hbits : ∀ j, j < n → bitAt w.byte (v.unit.cur + j) = f j) :
    EndsOk s ((s.commit u (w.setCur cur)).done 0 []) 0 [] ∧
    OnlyWriterChanged s ((s.commit u (w.setCur cur)).done 0 []) u ∧
    FieldWritten s ((s.commit u (w.setCur cur)).done 0 []) u n cur f :=
  ⟨endsOk_done 0 [] rfl rfl rfl rfl rfl, onlyWriterChanged_setWriter s u _,
    fieldWritten_of_puts hu hsound hroom hputs hbits⟩

/-- A run of PutChunks leaves the cursor at the end of its span, so putting it there changes nothing. -/
theorem Puts.setCur_end {n c : Nat} {v w : WriterView} (h : Puts n v w) (hc : v.unit.cur + n = c) :
    w.setCur c = w := by
  rw [← hc, ← h.cur]; rfl

/-! ### The rules of the commands that write at the cursor (41 R141 to R146) -/

theorem typeBits_le (tw : TypeWidth) : typeBits tw ≤ 64 := by cases tw <;> decide

theorem one_le_typeBits (tw : TypeWidth) : 1 ≤ typeBits tw := by cases tw <;> decide

section
variable {s : State} {u nb : Nat} {tw : TypeWidth}

theorem exec_wWrite_width (h : s.WriterTakes u) (hwide : nb > typeBits tw) :
    exec (.wWrite u tw nb) s = .next (s.raise .writeWidth) := by
  show execWWrite u tw nb s = _
  unfold execWWrite
  rw [runWriter_granted s u _ h, if_pos hwide]
  rfl

theorem exec_wWrite_error {c : Cause} (h : s.WriterTakes u) (hnb : nb ≤ typeBits tw)
    (hcap : ensureCap s.ownMax (s.writerView u) ((s.writer u).cur + nb) .writeCapacity = .error c) :
    exec (.wWrite u tw nb) s = .next (s.raise c) := by
  show execWWrite u tw nb s = _
  unfold execWWrite
  rw [runWriter_granted s u _ h, if_neg (Nat.not_lt.2 hnb), State.writerView_unit, hcap]
  rfl

theorem exec_wWrite_ok {v : WriterView} (h : s.WriterTakes u) (hnb : nb ≤ typeBits tw)
    (hcap : ensureCap s.ownMax (s.writerView u) ((s.writer u).cur + nb) .writeCapacity = .ok v) :
    exec (.wWrite u tw nb) s =
      .next ((s.commit u (writeField v (s.pkt.a &&& mask 64 nb) nb)).done 0 []) := by
  show execWWrite u tw nb s = _
  unfold execWWrite
  rw [runWriter_granted s u _ h, if_neg (Nat.not_lt.2 hnb), State.writerView_unit, hcap]
  rfl

/-- The width check of W.WRITE passes for one bit, and then the two rules are the same (41 R142). -/
theorem exec_wWbit_eq_wWrite (s : State) (u : Nat) (tw : TypeWidth) :
    exec (.wWbit u) s = exec (.wWrite u tw 1) s := by
  show execWWbit u s = execWWrite u tw 1 s
  unfold execWWbit execWWrite
  simp only [if_neg (Nat.not_lt.2 (one_le_typeBits tw))]

end

/-- The checks of W.APPEND pass for a payload of exactly `A` bytes (30_encoding R101 step 4). -/
theorem exec_wAppend_granted {s : State} {u : Nat} (hu : u < s.nw)
    (hlen : s.pkt.payload.length = s.pkt.a.toNat) (hready : (s.writer u).st = .ready)
    (hsound : (s.writer u).Sound s.ownMax) :
    (∀ c, ensureCap s.ownMax (s.writerView u) ((s.writer u).cur + 8 * s.pkt.payload.length)
        .appendCapacity = .error c → exec (.wAppend u) s = .next (s.raise c)) ∧
    (∀ v, ensureCap s.ownMax (s.writerView u) ((s.writer u).cur + 8 * s.pkt.payload.length)
        .appendCapacity = .ok v →
      exec (.wAppend u) s = .next ((s.commit u
        (if (s.writer u).cur = (s.writer u).valid then appendBytes v s.pkt.payload
          else (appendBytes v s.pkt.payload).setCur (s.writer u).cur)).done 0 [])) := by
  have hexec : exec (.wAppend u) s = execWAppend u s := rfl
  unfold execWAppend at hexec
  rw [runWriterWith_granted s u _ _ hu (decide_eq_true hlen) hready hsound,
    State.writerView_unit] at hexec
  constructor <;> (intro c hcap; rw [hexec, hcap]; rfl)

theorem exec_wAlign_of_takes {s : State} {u : Nat} (h : s.WriterTakes u) :
    exec (.wAlign u) s = .next ((s.commit u
      (writeField (s.writerView u) 0 ((8 - (s.writer u).cur % 8) % 8))).done 0 []) :=
  runWriter_granted s u (fun v => .done (writeField v 0 ((8 - v.unit.cur % 8) % 8)) 0 []) h

/-- The bits of W.ALIGN end at the next byte boundary (41 R146). -/
theorem add_alignPad (c : Nat) : c + (8 - c % 8) % 8 = 8 * ceil8 c := by unfold ceil8; omega

end Sys2Proof.Machine
end

section
open Sys2Proof Sys2Proof.Machine

/-- Settles O19: a field write is a run of PutChunks, and its span holds the field's bits. -/
theorem writeFieldWritesTheField : Obligations.WriteFieldWritesTheField := by
  intro v value n _ _ c w
  have hputs : Puts n v w := puts_writeField v value n
  refine ⟨?_, hputs.bitAt_outside, hputs.cur, hputs.valid, hputs.unit⟩
  unfold bitsBetween bitsStr
  rw [Nat.add_sub_cancel_left]
  exact List.map_congr_left fun j hj => bitAt_writeField_inside v value n j (List.mem_range.1 hj)

/-- Settles O29: the checks come before the field write, which finds the room made for it. -/
theorem wWriteWritesTheLowBits : Obligations.WWriteWritesTheLowBits := by
  intro s u tw nb htakes x
  refine ⟨exec_wWrite_width htakes,
    fun hnb he hfull => exec_wWrite_error htakes hnb (ensureCap_external_full _ he hfull),
    fun hnb ho hfull => exec_wWrite_error htakes hnb (ensureCap_owned_full _ ho hfull),
    fun hnb hcapacity => ?_⟩
  have ⟨hu, _, _, hcur, _⟩ := htakes
  obtain ⟨v, hok, hroom⟩ := ensureCap_of_capacityFor .writeCapacity hcapacity
  have hputs := puts_writeField v (s.pkt.a &&& mask 64 nb) nb
  refine ⟨_, exec_wWrite_ok htakes hnb hok, ?_⟩
  rw [← hputs.setCur_end (c := x.cur + nb) (by rw [hroom.cur]; rfl)]
  refine commit_done_field_spec hu hcur hroom hputs fun j hj => ?_
  have hwidth : nb ≤ 64 := Nat.le_trans hnb (typeBits_le tw)
  rw [bitAt_writeField_inside _ _ _ _ hj, BitVec.getLsbD_and, getLsbD_mask,
    decide_eq_true (by omega), decide_eq_true (by omega), Bool.and_true, Bool.and_true]

/-- Settles O30: W.WBIT is W.WRITE of one bit at any type width, so it has that command's effect. -/
theorem wWbitIsAOneBitWrite : Obligations.WWbitIsAOneBitWrite := by
  refine ⟨exec_wWbit_eq_wWrite, fun s u htakes => ?_⟩
  intro x
  obtain ⟨-, hexternal, howned, hok⟩ := wWriteWritesTheLowBits s u .w8 1 htakes
  have hone := one_le_typeBits .w8
  have hbit : (fun j => s.pkt.a.getLsbD (1 - 1 - j)) = fun _ => s.pkt.a.getLsbD 0 := by
    funext j; rw [Nat.sub_self, Nat.zero_sub]
  rw [exec_wWbit_eq_wWrite s u .w8, ← hbit]
  exact ⟨hexternal hone, howned hone, hok hone⟩

/-- Settles O31: the bytes are fields of 8 bits in a row; the cursor is put back unless it was at the
end. -/
theorem wAppendWritesBytesAtTheCursor : Obligations.WAppendWritesBytesAtTheCursor := by
  intro s u hu hlen hready hsound x n
  obtain ⟨herror, hdone⟩ := exec_wAppend_granted hu hlen hready hsound
  refine ⟨fun he hfull => herror _ (ensureCap_external_full _ he hfull),
    fun ho hfull => herror _ (ensureCap_owned_full _ ho hfull), fun hcapacity => ?_⟩
  obtain ⟨v, hok, hroom⟩ := ensureCap_of_capacityFor .appendCapacity hcapacity
  have hputs := puts_appendBytes s.pkt.payload v
  have hcursor : (if x.cur = x.valid then appendBytes v s.pkt.payload
        else (appendBytes v s.pkt.payload).setCur x.cur) =
      (appendBytes v s.pkt.payload).setCur (if x.cur = x.valid then x.cur + n else x.cur) := by
    by_cases hend : x.cur = x.valid
    · rw [if_pos hend, if_pos hend, hputs.setCur_end (by rw [hroom.cur]; rfl)]
    · rw [if_neg hend, if_neg hend]
  refine ⟨_, hdone v hok, ?_⟩
  rw [hcursor]
  exact commit_done_field_spec hu hsound.1 hroom hputs
    fun j hj => bitAt_appendBytes_inside s.pkt.payload v j hj

/-- Settles O32: the byte of a sound writer's cursor has room for the pad bits, so nothing can fail; an
aligned cursor has no pad bits. -/
theorem wAlignPadsWithZeros : Obligations.WAlignPadsWithZeros := by
  intro s u htakes x pad
  have ⟨hu, _, _, hcur, hvalid, _⟩ := htakes
  have hputs := puts_writeField (s.writerView u) 0 pad
  have hend : x.cur + pad = 8 * ceil8 x.cur := add_alignPad x.cur
  have hfits : x.cur + pad ≤ 8 * x.cap := by
    rw [hend]
    exact Nat.mul_le_mul_left 8 ((ceil8_le_iff _ _).2 (Nat.le_trans hcur hvalid))
  have hbits : ∀ j, j < pad →
      bitAt (writeField (s.writerView u) 0 pad).byte (x.cur + j) = false := fun j hj =>
    (bitAt_writeField_inside _ _ _ _ hj).trans BitVec.getLsbD_zero
  have hspec := commit_done_field_spec (cur := 8 * ceil8 x.cur) hu hcur (.refl hfits) hputs hbits
  rw [hputs.setCur_end hend] at hspec
  obtain ⟨hends, honly, hfield⟩ := hspec
  refine ⟨_, exec_wAlign_of_takes htakes, hends, honly, hfield, fun haligned => ?_⟩
  have hpad : pad = 0 := by omega
  have hsame : s.commit u (writeField (s.writerView u) 0 pad) = s := by
    rw [hpad]; exact State.commit_writerView s u
  have hstored : NothingStored s (s.commit u (writeField (s.writerView u) 0 pad)) := by
    rw [hsame]; exact ⟨rfl, rfl, rfl⟩
  exact hstored

end

section
/-! SUPPORT. Bit strings cut out of a storage (00_scope R10), and what TailWrite and Truncate leave bit by
bit and byte by byte (42 R161, R162). -/
namespace Sys2Proof.Machine

/-! ### Strings of bits -/

/-- A string read out of a storage is `s` when its bits are. -/
theorem bitsBetween_eq_of_getElem {f : Nat → Byte} {a : Nat} {s : BitString}
    (h : ∀ j (hj : j < s.length), bitAt f (a + j) = s[j]) : bitsBetween f a (a + s.length) = s := by
  refine List.ext_getElem (by simp) fun j _ hj => ?_
  simpa [bitsBetween] using h j hj

theorem bitAt_of_bitsBetween_eq {f : Nat → Byte} {a j : Nat} {s : BitString}
    (h : bitsBetween f a (a + s.length) = s) (hj : j < s.length) : bitAt f (a + j) = s[j] := by
  have hget := getElem?_bitsBetween f a (a + s.length) j (by omega)
  rw [h, List.getElem?_eq_getElem hj] at hget
  exact (Option.some.inj hget).symm

theorem bitsBetween_congr {f g : Nat → Byte} {a b : Nat}
    (h : ∀ i, a ≤ i → i < b → bitAt f i = bitAt g i) : bitsBetween f a b = bitsBetween g a b :=
  List.map_congr_left fun j hj => by
    have := List.mem_range.1 hj
    exact h _ (by omega) (by omega)

theorem bitsBetween_append (f : Nat → Byte) {a b c : Nat} (hab : a ≤ b) (hbc : b ≤ c) :
    bitsBetween f a b ++ bitsBetween f b c = bitsBetween f a c := by
  unfold bitsBetween
  rw [show c - a = (b - a) + (c - b) by omega, List.range_add, List.map_append, List.map_map]
  refine congrArg _ (List.map_congr_left fun j _ => ?_)
  rw [Function.comp_apply, show a + (b - a + j) = b + j by omega]

theorem take_bitsBetween (f : Nat → Byte) {p n : Nat} (h : p ≤ n) :
    (bitsBetween f 0 n).take p = bitsBetween f 0 p := by
  rw [← bitsBetween_append f (Nat.zero_le p) h]
  exact List.take_left' (by simp)

theorem drop_bitsBetween (f : Nat → Byte) {p n : Nat} (h : p ≤ n) :
    (bitsBetween f 0 n).drop p = bitsBetween f p n := by
  rw [← bitsBetween_append f (Nat.zero_le p) h]
  exact List.drop_left' (by simp)

/-! ### TailWrite -/

/-- The chunk made of a group of bits puts those bits (42 R162). -/
theorem bitsBetween_putChunk_group (v : WriterView) (s : BitString) (hs : s.length ≤ 8) :
    bitsBetween (putChunk v (BitVec.ofNat 8 (bitsVal s)) s.length).byte v.unit.cur
      (v.unit.cur + s.length) = s := by
  refine bitsBetween_eq_of_getElem fun j hj => ?_
  have hget : s.reverse.getD (s.length - 1 - j) false = s[j] := by
    rw [List.getD_eq_getElem?_getD, List.getElem?_reverse (by omega),
      show s.length - 1 - (s.length - 1 - j) = j by omega, List.getElem?_eq_getElem hj,
      Option.getD_some]
  rw [bitAt_putChunk_inside v _ _ _ hs (toNat_ofNat_bitsVal_lt s) hj, BitVec.getLsbD_ofNat,
    testBit_bitsVal, hget, decide_eq_true (by omega), Bool.true_and]

/-- A run of PutChunks that starts where the string `s` ends puts its own string behind `s`. -/
theorem bitsBetween_append_of_puts {v w : WriterView} {c : Nat} {s t : BitString}
    (hputs : Puts t.length v w) (hcur : v.unit.cur = c + s.length)
    (hs : bitsBetween v.byte c (c + s.length) = s)
    (ht : bitsBetween w.byte v.unit.cur (v.unit.cur + t.length) = t) :
    bitsBetween w.byte c (c + (s ++ t).length) = s ++ t := by
  have hkept : bitsBetween w.byte c (c + s.length) = s :=
    (bitsBetween_congr fun i _ hi => hputs.bitAt_outside i (.inl (by omega))).trans hs
  rw [hcur] at ht
  rw [List.length_append, ← Nat.add_assoc,
    ← bitsBetween_append _ (Nat.le_add_right c s.length) (Nat.le_add_right _ _), hkept, ht]

theorem bitsBetween_writeGroups (n : Nat) : ∀ (v : WriterView) (s : BitString), s.length ≤ n →
    bitsBetween (writeGroups n v s).byte v.unit.cur (v.unit.cur + s.length) = s := by
  induction n with
  | zero =>
    intro v s hs
    rw [List.length_eq_zero_iff.1 (Nat.le_zero.1 hs)]
    exact bitsBetween_eq_of_getElem fun j hj => absurd hj (Nat.not_lt_zero j)
  | succ n ih =>
    intro v s hs
    cases s with
    | nil => exact bitsBetween_eq_of_getElem fun j hj => absurd hj (Nat.not_lt_zero j)
    | cons b tl =>
      have hgroup : ((b :: tl).take 8).length ≤ 8 := by rw [List.length_take]; omega
      have hrest : ((b :: tl).drop 8).length ≤ n := by
        rw [List.length_drop]; rw [List.length_cons] at hs ⊢; omega
      have hsplit := bitsBetween_append_of_puts (puts_writeGroups n _ _ hrest) (putChunk_cur v _ _)
        (bitsBetween_putChunk_group v _ hgroup) (ih _ _ hrest)
      rwa [List.take_append_drop] at hsplit

/-- `w` is `v` with `bits` written at the end of the valid content by PutChunks (42 R162). -/
structure Appended (bits : BitString) (v w : WriterView) : Prop where
  puts : Puts bits.length (v.setCur v.unit.valid) w
  bits : bitsBetween w.byte v.unit.valid (v.unit.valid + bits.length) = bits

theorem appended_tailWrite (v : WriterView) (bits : BitString) :
    Appended bits v (tailWrite v bits) :=
  ⟨puts_tailWrite v bits, bitsBetween_writeGroups _ (v.setCur v.unit.valid) bits (Nat.le_refl _)⟩

theorem Appended.nil (v : WriterView) : Appended [] v (v.setCur v.unit.valid) :=
  ⟨.nil _, bitsBetween_eq_of_getElem fun j hj => absurd hj (Nat.not_lt_zero j)⟩

theorem Appended.cur {bits : BitString} {v w : WriterView} (h : Appended bits v w) :
    w.unit.cur = v.unit.valid + bits.length := h.puts.cur

theorem Appended.valid {bits : BitString} {v w : WriterView} (h : Appended bits v w) :
    w.unit.valid = v.unit.valid + bits.length := by
  rw [h.puts.valid (Nat.le_refl _)]
  exact Nat.max_eq_right (Nat.le_add_right _ _)

theorem Appended.bitAt_outside {bits : BitString} {v w : WriterView} (h : Appended bits v w) (i : Nat)
    (hi : i < v.unit.valid ∨ v.unit.valid + bits.length ≤ i) : bitAt w.byte i = bitAt v.byte i :=
  h.puts.bitAt_outside i hi

/-- One string after the other is their concatenation. -/
theorem Appended.trans {bits bits' : BitString} {u v w : WriterView} (h : Appended bits u v)
    (g : Appended bits' v w) : Appended (bits ++ bits') u w := by
  have hend : v.setCur v.unit.valid = v := h.puts.setCur_end (by rw [h.valid]; rfl)
  have hputs : Puts bits'.length v w := hend ▸ g.puts
  refine ⟨by rw [List.length_append]; exact h.puts.trans hputs, ?_⟩
  refine bitsBetween_append_of_puts hputs h.cur h.bits ?_
  rw [h.cur, ← h.valid]
  exact g.bits

/-! ### Truncate -/

/-- Of the registers Truncate moves CAP and VALID alone (42 R161). -/
theorem truncateTo_unit (v : WriterView) (len : Nat) :
    (truncateTo v len).unit =
      { v.unit with cap := (truncateTo v len).unit.cap, valid := len,
                    omem := (truncateTo v len).unit.omem } := by
  obtain ⟨hs, hvalid, hcur⟩ := sameStorage_truncateTo v len
  generalize truncateTo v len = w at hs hvalid hcur ⊢
  subst hvalid
  dsimp only
  rw [← hs.st, ← hs.mode, ← hs.base, ← hcur]

theorem truncateTo_cap_owned {v : WriterView} {len : Nat} (ho : v.unit.mode = .owned)
    (hne : len ≠ v.unit.valid) : (truncateTo v len).unit.cap = ceil8 len := by
  rw [truncateTo_owned v len ho hne]; rfl

/-- Truncating external content clears the bits cut off, to the end of the last byte that held one. -/
theorem bitAt_truncateTo_external {v : WriterView} {len : Nat} (he : v.unit.mode = .external)
    (hlt : len < v.unit.valid) (i : Nat) :
    bitAt (truncateTo v len).byte i =
      if len ≤ i ∧ i < 8 * ceil8 v.unit.valid then false else bitAt v.byte i := by
  have hlast : ceil8 len ≤ ceil8 v.unit.valid := by unfold ceil8; omega
  have hlo : len ≤ 8 * ceil8 len := le_ceil8 len
  obtain ⟨-, -, hbytes⟩ :=
    zeroBytes_spec (ceil8 v.unit.valid - ceil8 len) (maskLastByte v len) (ceil8 len)
  have hbyte := hbytes (i / 8)
  rw [truncateTo_external v len he (Nat.ne_of_lt hlt), WriterView.byte_setValid]
  by_cases hzeroed : ceil8 len ≤ i / 8 ∧ i / 8 < ceil8 len + (ceil8 v.unit.valid - ceil8 len)
  · rw [if_pos hzeroed] at hbyte
    rw [if_pos (by omega), bitAt, hbyte]
    exact BitVec.getLsbD_zero
  · rw [if_neg hzeroed] at hbyte
    rw [bitAt_congr hbyte, bitAt_maskLastByte]
    by_cases hcut : len ≤ i ∧ i < 8 * ceil8 v.unit.valid
    · rw [if_pos hcut, if_pos (by omega)]
    · rw [if_neg hcut, if_neg (by omega)]

/-- Truncate keeps the bits it does not cut off. -/
theorem bitAt_truncateTo_below {v : WriterView} {len i : Nat} (hlen : len ≤ v.unit.valid)
    (hfits : v.unit.valid ≤ 8 * v.unit.cap) (hi : i < len) :
    bitAt (truncateTo v len).byte i = bitAt v.byte i := by
  by_cases hne : len = v.unit.valid
  · rw [hne, truncateTo_valid_self]
  · cases hm : v.unit.mode with
    | external =>
      rw [bitAt_truncateTo_external hm (by omega), if_neg (by omega)]
    | owned =>
      have hmode : (maskLastByte v len).unit.mode = .owned := (maskLastByte_mode v len).trans hm
      have hcap : (maskLastByte v len).unit.cap = v.unit.cap := by
        rw [(sameStorage_maskLastByte v len).2]
      have hlast : len ≤ 8 * ceil8 len := le_ceil8 len
      have hbyte := WriterView.byte_setOwnedCap (maskLastByte v len) (ceil8 len) (i / 8) hmode
      rw [hcap, if_pos (by omega)] at hbyte
      rw [truncateTo_owned v len hm hne, WriterView.byte_setValid, bitAt_congr hbyte,
        bitAt_maskLastByte, if_neg (by omega)]

/-- Truncate stores only in bytes that held a bit it cuts off (20_memory R66). -/
theorem storesAt_truncateTo {P : Nat → Prop} {v : WriterView} {len : Nat} (hlen : len ≤ v.unit.valid)
    (hP : ∀ i, len ≤ i → i < 8 * ceil8 v.unit.valid → P (i / 8)) :
    StoresAt P v (truncateTo v len) := by
  have hs := (sameStorage_truncateTo v len).1
  by_cases hne : len = v.unit.valid
  · rw [hne, truncateTo_valid_self]; exact .refl v
  · cases hm : v.unit.mode with
    | owned => exact .of_xmem_eq hs.mode hs.base (hs.xmem hm)
    | external =>
      have hold : v.unit.valid ≤ 8 * ceil8 v.unit.valid := le_ceil8 _
      have hmask : StoresAt P v (maskLastByte v len) :=
        storesAt_maskLastByte v len fun _ => hP len (Nat.le_refl _) (by omega)
      rw [truncateTo_external v len hm hne]
      refine (hmask.trans (storesAt_zeroBytes _ _ _ fun k hlo hhi => ?_)).trans
        (.of_xmem_eq rfl rfl rfl)
      have hfst : len ≤ 8 * ceil8 len := le_ceil8 len
      have hk := hP (8 * k) (by omega) (by omega)
      rwa [Nat.mul_div_cancel_left k (by decide)] at hk

end Sys2Proof.Machine
end

section
open Sys2Proof Sys2Proof.Machine

/-- Settles O21: the last retained byte is masked, and the bytes behind it are dropped or cleared. -/
theorem truncateCutsTheContent : Obligations.TruncateCutsTheContent := by
  intro v len hlen hfits w old
  refine ⟨fun hsame => if_pos hsame, fun hlt => ⟨fun i hi => bitAt_truncateTo_below hlen hfits hi,
    fun ho => ⟨truncateTo_cap_owned ho (Nat.ne_of_lt hlt), fun i hi =>
      bitAt_truncateTo_owned v len i ho (Nat.ne_of_lt hlt) hi⟩,
    fun he => ⟨(keepsBinding_truncateTo v len).cap he, fun i hlo hhi => ?_, fun i hi => ?_⟩,
    truncateTo_unit v len⟩⟩
  · rw [bitAt_truncateTo_external he hlt, if_pos ⟨hlo, hhi⟩]
  · rw [bitAt_truncateTo_external he hlt, if_neg fun hcut => Nat.not_le.2 hcut.2 hi]

/-- Settles O22: the groups of TailWrite are chunks in a row from the end of the valid content on. -/
theorem tailWriteAppendsAtTheEnd : Obligations.TailWriteAppendsAtTheEnd := by
  intro v bits w old
  have happended : Appended bits v w := appended_tailWrite v bits
  refine ⟨happended.bits, happended.bitAt_outside, ?_⟩
  have hunit := happended.puts.unit
  rwa [happended.cur, happended.valid] at hunit

end

section
/-! SUPPORT. The common course of W.INSERT, W.ERASE and W.RESIZE (42 R163 to R166): truncate, make room,
write at the end, move the cursor. What it leaves is said once, for any new tail. -/
namespace Sys2Proof.Machine

/-! ### Room after a truncation -/

/-- Making room in an EXTERNAL region changes no byte. -/
theorem MadeRoom.byte_external {need : Nat} {v w : WriterView} (h : MadeRoom need v w)
    (he : v.unit.mode = .external) : w.byte = v.byte := by
  unfold WriterView.byte
  rw [h.storage.mode, he, h.storage.base, h.xmem]

/-- EnsureCap passes within the capacity a command found, as long as it has kept the unit's binding. -/
theorem ensureCap_of_keepsBinding {s : State} {u need : Nat} {v : WriterView} (cause : Cause)
    (h : CapacityFor s u need) (hkeep : (s.writer u).KeepsBinding v.unit) :
    ∃ w, ensureCap s.ownMax v need cause = .ok w ∧ MadeRoom need v w := by
  rcases ensureCap_cases s.ownMax v need cause with
    ⟨he, hfull, -⟩ | ⟨-, hroom, hok⟩ | ⟨ho, hfull, -⟩ | ⟨ho, -, hok⟩
  · have he' := hkeep.mode.symm.trans he
    rw [hkeep.cap he'] at hfull
    exact absurd (h.1 he') (Nat.not_le.2 hfull)
  · exact ⟨_, hok, .refl hroom⟩
  · exact absurd (h.2 (hkeep.mode.symm.trans ho)) (Nat.not_le.2 hfull)
  · exact ⟨_, hok, madeRoom_growOwned ho⟩

/-! ### A rewritten tail -/

/-- Where the bits end that an edit may store, when it replaces the content from bit `p` on by `n` bits:
behind the new bits and behind the last byte that held an old one (42 R161). -/
def rewriteEnd (v : WriterView) (p n : Nat) : Nat :=
  if p < v.unit.valid then max (p + n) (8 * ceil8 v.unit.valid) else p + n

/-- `w` is `v` with the valid content from bit `p` on replaced by `bits`: what stands in the storage,
within and beyond the new content, and where XMEM was stored (42 R164). -/
structure TailRewritten (p : Nat) (bits : BitString) (v w : WriterView) : Prop where
  st : w.unit.st = v.unit.st
  valid : w.unit.valid = p + bits.length
  capExternal : v.unit.mode = .external → w.unit.cap = v.unit.cap
  capOwned : v.unit.mode = .owned → w.unit.cap =
    if p < v.unit.valid then ceil8 (p + bits.length) else max v.unit.cap (ceil8 (p + bits.length))
  below : ∀ i, i < p → bitAt w.byte i = bitAt v.byte i
  written : bitsBetween w.byte p (p + bits.length) = bits
  beyondOwned : v.unit.mode = .owned → ∀ i, p + bits.length ≤ i → i < 8 * w.unit.cap →
    bitAt w.byte i = if p < v.unit.valid ∨ 8 * v.unit.cap ≤ i then false else bitAt v.byte i
  beyondExternal : v.unit.mode = .external → ∀ i, p + bits.length ≤ i →
    bitAt w.byte i =
      if p < v.unit.valid ∧ i < 8 * ceil8 v.unit.valid then false else bitAt v.byte i
  stores : StoresAt (fun k => ∃ i, p ≤ i ∧ i < rewriteEnd v p bits.length ∧ k = i / 8) v w

section
variable {p : Nat} {bits : BitString} {v v' w : WriterView}

/-- The new capacity of owned storage: fitted to the new content if there was a cut, and never smaller
than before if there was none (42 R164). -/
theorem cap_of_rewrite_owned (ho : v.unit.mode = .owned) (hp : p ≤ v.unit.valid)
    (hroom : MadeRoom (p + bits.length) (truncateTo v p) v') (happ : Appended bits v' w) :
    w.unit.cap =
      if p < v.unit.valid then ceil8 (p + bits.length)
      else max v.unit.cap (ceil8 (p + bits.length)) := by
  have hmode : (truncateTo v p).unit.mode = .owned := (sameStorage_truncateTo v p).1.mode.trans ho
  have hcap := happ.puts.cap.trans hroom.cap
  rw [if_pos hmode] at hcap
  by_cases hlt : p < v.unit.valid
  · have hle : ceil8 p ≤ ceil8 (p + bits.length) := by unfold ceil8; omega
    rw [hcap, if_pos hlt, truncateTo_cap_owned ho (Nat.ne_of_lt hlt), Nat.max_eq_right hle]
  · have hself : p = v.unit.valid := by omega
    rw [hcap, if_neg hlt, hself, truncateTo_valid_self]

/-- Owned storage beyond the new content: 0 where it is new or was cut, else as before. -/
theorem bitAt_beyond_rewrite_owned (ho : v.unit.mode = .owned) (hp : p ≤ v.unit.valid)
    (hroom : MadeRoom (p + bits.length) (truncateTo v p) v') (happ : Appended bits v' w) (i : Nat)
    (hi : p + bits.length ≤ i) (hcap : i < 8 * w.unit.cap) :
    bitAt w.byte i =
      if p < v.unit.valid ∨ 8 * v.unit.cap ≤ i then false else bitAt v.byte i := by
  have hvalid : v'.unit.valid = p := hroom.valid.trans (sameStorage_truncateTo v p).2.1
  have hcap' : w.unit.cap = v'.unit.cap := happ.puts.cap
  rw [happ.bitAt_outside i (.inr (by omega))]
  by_cases hold : i / 8 < (truncateTo v p).unit.cap
  · rw [bitAt_congr (hroom.kept _ hold)]
    by_cases hlt : p < v.unit.valid
    · rw [if_pos (.inl hlt), bitAt_truncateTo_owned v p i ho (Nat.ne_of_lt hlt) (by omega)]
    · have hself : p = v.unit.valid := by omega
      rw [hself, truncateTo_valid_self] at hold ⊢
      rw [if_neg (by omega)]
  · have hzero : v'.byte (i / 8) = 0 := hroom.fresh _ (Nat.not_lt.1 hold) (by omega)
    have hfalse : bitAt v'.byte i = false := by rw [bitAt, hzero]; exact BitVec.getLsbD_zero
    rw [hfalse]
    by_cases hlt : p < v.unit.valid
    · rw [if_pos (.inl hlt)]
    · have hself : p = v.unit.valid := by omega
      rw [hself, truncateTo_valid_self] at hold
      rw [if_pos (.inr (by omega))]

/-- An EXTERNAL region beyond the new content: 0 up to the end of the last byte that held valid content
if there was a cut, else as before. -/
theorem bitAt_beyond_rewrite_external (he : v.unit.mode = .external) (hp : p ≤ v.unit.valid)
    (hroom : MadeRoom (p + bits.length) (truncateTo v p) v') (happ : Appended bits v' w) (i : Nat)
    (hi : p + bits.length ≤ i) :
    bitAt w.byte i =
      if p < v.unit.valid ∧ i < 8 * ceil8 v.unit.valid then false else bitAt v.byte i := by
  obtain ⟨hstorage, htvalid, -⟩ := sameStorage_truncateTo v p
  have hvalid : v'.unit.valid = p := hroom.valid.trans htvalid
  rw [happ.bitAt_outside i (.inr (by omega)), hroom.byte_external (hstorage.mode.trans he)]
  by_cases hlt : p < v.unit.valid
  · rw [bitAt_truncateTo_external he hlt]
    by_cases hend : i < 8 * ceil8 v.unit.valid
    · rw [if_pos ⟨by omega, hend⟩, if_pos ⟨hlt, hend⟩]
    · rw [if_neg fun h => hend h.2, if_neg fun h => hend h.2]
  · have hself : p = v.unit.valid := by omega
    rw [if_neg fun h => hlt h.1, hself, truncateTo_valid_self]

theorem storesAt_rewrite (hp : p ≤ v.unit.valid)
    (hroom : MadeRoom (p + bits.length) (truncateTo v p) v') (happ : Appended bits v' w) :
    StoresAt (fun k => ∃ i, p ≤ i ∧ i < rewriteEnd v p bits.length ∧ k = i / 8) v w := by
  have hvalid : v'.unit.valid = p := hroom.valid.trans (sameStorage_truncateTo v p).2.1
  have hend : p + bits.length ≤ rewriteEnd v p bits.length := by unfold rewriteEnd; split <;> omega
  have hcut : StoresAt (fun k => ∃ i, p ≤ i ∧ i < rewriteEnd v p bits.length ∧ k = i / 8) v
      (truncateTo v p) := by
    by_cases hlt : p < v.unit.valid
    · refine storesAt_truncateTo hp fun i hlo hhi => ⟨i, hlo, ?_, rfl⟩
      unfold rewriteEnd
      rw [if_pos hlt]
      omega
    · have hself : p = v.unit.valid := by omega
      rw [hself, truncateTo_valid_self]
      exact .refl v
  refine (hcut.trans (.of_xmem_eq hroom.storage.mode hroom.storage.base hroom.xmem)).trans ?_
  refine StoresAt.trans (v := v'.setCur v'.unit.valid) (.of_xmem_eq rfl rfl rfl)
    (happ.puts.storesAt fun i hlo hhi => ?_)
  rw [WriterView.setCur_cur] at hlo hhi
  exact ⟨i, by omega, by omega, rfl⟩

/-- A tail written where the old one was cut off and room was made is a rewritten tail. -/
theorem tailRewritten_of_appended (hp : p ≤ v.unit.valid) (hfits : v.unit.valid ≤ 8 * v.unit.cap)
    (hroom : MadeRoom (p + bits.length) (truncateTo v p) v') (happ : Appended bits v' w) :
    TailRewritten p bits v w := by
  obtain ⟨hstorage, htvalid, -⟩ := sameStorage_truncateTo v p
  have hvalid : v'.unit.valid = p := hroom.valid.trans htvalid
  exact {
    st := (happ.puts.sameStorage.st.trans hroom.storage.st).trans hstorage.st
    valid := by rw [happ.valid, hvalid]
    capExternal := fun he => by
      have hmode := hstorage.mode.trans he
      rw [happ.puts.cap, WriterView.setCur_cap, hroom.cap, hmode,
        if_neg (by decide), (keepsBinding_truncateTo v p).cap he]
    capOwned := fun ho => cap_of_rewrite_owned ho hp hroom happ
    below := fun i hi => by
      have hold : p ≤ 8 * (truncateTo v p).unit.cap := (truncateTo_cap v p hp hfits).1
      rw [happ.bitAt_outside i (.inl (by omega)),
        bitAt_congr (hroom.kept _ (by omega)), bitAt_truncateTo_below hp hfits hi]
    written := by
      have hbits := happ.bits
      rwa [hvalid] at hbits
    beyondOwned := fun ho => bitAt_beyond_rewrite_owned ho hp hroom happ
    beyondExternal := fun he => bitAt_beyond_rewrite_external he hp hroom happ
    stores := storesAt_rewrite hp hroom happ }

/-- No part of this speaks of the cursor. -/
theorem TailRewritten.setCur (h : TailRewritten p bits v w) (c : Nat) :
    TailRewritten p bits v (w.setCur c) :=
  ⟨h.st, h.valid, h.capExternal, h.capOwned, h.below, h.written, h.beyondOwned, h.beyondExternal,
    h.stores.trans (.of_xmem_eq rfl rfl rfl)⟩

end

/-- The content after the edit: the old one up to `p`, then the new bits. -/
theorem TailRewritten.content {p : Nat} {bits : BitString} {v w : WriterView}
    (h : TailRewritten p bits v w) (hp : p ≤ v.unit.valid) :
    bitsBetween w.byte 0 w.unit.valid = (bitsBetween v.byte 0 v.unit.valid).take p ++ bits := by
  rw [h.valid, ← bitsBetween_append _ (Nat.zero_le p) (Nat.le_add_right p _), h.written,
    take_bitsBetween _ hp]
  exact congrArg (· ++ bits) (bitsBetween_congr fun i _ hi => h.below i hi)

/-! ### The state after an edit -/

/-- A command ended with OK and replaced the content of writer `u` from bit `p` on by `bits`. -/
structure TailEdited (s t : State) (u p : Nat) (bits : BitString) (cur : Nat) : Prop where
  ends : EndsOk s t 0 []
  only : OnlyWriterChanged s t u
  view : TailRewritten p bits (s.writerView u) (t.writerView u)
  cur : (t.writer u).cur = cur

theorem tailEdited_commit {s : State} {u p c : Nat} {bits : BitString} {w : WriterView} (hu : u < s.nw)
    (h : TailRewritten p bits (s.writerView u) w) :
    TailEdited s ((s.commit u (w.setCur c)).done 0 []) u p bits c where
  ends := endsOk_done 0 [] rfl rfl rfl rfl rfl
  only := onlyWriterChanged_setWriter s u _
  view := by rw [writerView_commit_done hu]; exact h.setCur c
  cur := by
    have hunit : ((s.commit u (w.setCur c)).done 0 []).writer u = (w.setCur c).unit :=
      State.writer_commit_self s u _ hu
    rw [hunit, WriterView.setCur_cur]

section
variable {s t : State} {u p cur : Nat} {bits : BitString}

theorem TailEdited.sameBinding (h : TailEdited s t u p bits cur) : SameBinding s t u :=
  ⟨h.view.st, h.view.stores.mode, h.view.stores.base⟩

theorem TailEdited.valid (h : TailEdited s t u p bits cur) :
    (t.writer u).valid = p + bits.length := h.view.valid

theorem TailEdited.content (h : TailEdited s t u p bits cur) (hp : p ≤ (s.writer u).valid) :
    t.content u = (s.content u).take p ++ bits := h.view.content hp

theorem TailEdited.xmemStoredOnly (h : TailEdited s t u p bits cur) :
    XmemStoredOnly s t u p (rewriteEnd (s.writerView u) p bits.length) := by
  refine ⟨h.view.stores.owned, fun a ha => h.view.stores.outside a fun k hk => ?_⟩
  obtain ⟨i, hlo, hhi, rfl⟩ := hk
  exact ha i hlo hhi

end

@[simp] theorem length_content (s : State) (u : Nat) : (s.content u).length = (s.writer u).valid := by
  simp [State.content]

/-! ### Commands that end with OK -/

/-- A command of a READY writer that ends with OK was taken (30_encoding R101). -/
theorem writerTakes_of_ok {s t : State} {u : Nat} {rule : WriterView → WriterEnd}
    (h : runWriter s u rule = .next t) (hok : t.status = .ok) : s.WriterTakes u := by
  rcases runWriterWith_next _ _ _ _ _ h with ⟨c, hc, -, rfl⟩ | ⟨hu, hp, hready, hsound, -⟩
  · have hstatus : c.status = .ok := hok
    simp only [List.mem_cons, List.not_mem_nil, or_false] at hc
    rcases hc with rfl | rfl | rfl | rfl <;> cases hstatus
  · exact ⟨hu, of_decide_eq_true hp, hready, hsound⟩

/-- An outcome that raises a cause did not end with OK. -/
theorem status_ne_ok_of_raise {o : Host.Outcome State Fault Refusal} {s t : State} {c : Cause}
    (hraise : o = .next (s.raise c)) (hc : c.status ≠ .ok) (h : o = .next t) : t.status ≠ .ok := by
  rw [hraise] at h
  cases h
  exact hc

theorem nothingStored_done (s : State) : NothingStored s (s.done 0 []) := ⟨rfl, rfl, rfl⟩

/-- The content of a sound writer, and any shorter one, fits its storage (10_state R25). -/
theorem capacityFor_of_le_valid {s : State} {u need : Nat} (h : (s.writer u).Sound s.ownMax)
    (hneed : need ≤ (s.writer u).valid) : CapacityFor s u need := by
  obtain ⟨-, hvalid, -, -, howned⟩ := h
  refine ⟨fun _ => Nat.le_trans hneed hvalid, fun ho => ?_⟩
  exact Nat.le_trans ((ceil8_le_iff _ _).2 (Nat.le_trans hneed hvalid)) (howned ho).1

/-- Every command keeps the writer it names sound (10_state R25). -/
theorem exec_keepsWriterSound {i : Instr} {s t : State} (h : exec i s = .next t)
    (hu : i.unitIndex < s.nw) (hmax : s.ownMax ≤ Config.extMaxBytes)
    (hsound : (s.writer i.unitIndex).Sound s.ownMax) : (t.writer i.unitIndex).Sound s.ownMax := by
  cases exec_ended h with
  | raised c => exact hsound
  | faulted c =>
    have hunit : (s.raiseFault i.unitIndex c).writer i.unitIndex =
        { s.writer i.unitIndex with st := .faulted } := State.writer_setWriter_self s _ _ hu
    rw [hunit]; exact hsound
  | @writerDone v r d _ _ _ hpath _ =>
    have hunit : ((s.commit i.unitIndex v).done r d).writer i.unitIndex = v.unit :=
      State.writer_commit_self s _ _ hu
    rw [hunit]; exact hpath.sound hmax hsound
  | readerDone _ _ _ => exact hsound
  | @writerBound x hx =>
    have hunit : ((s.setWriter i.unitIndex x).done 0 []).writer i.unitIndex = x :=
      State.writer_setWriter_self s _ _ hu
    rw [hunit]; exact hx.sound hmax
  | readerBound _ => exact hsound

end Sys2Proof.Machine
end

section
/-! SUPPORT. W.INSERT and W.ERASE (42 R163, R165): what each check answers in its order, and the rewritten
tail of a command that ends with OK. -/
namespace Sys2Proof.Machine

section
variable {s t : State} {u nb : Nat} {tw : TypeWidth}

/-! ### W.INSERT -/

theorem exec_wInsert_width (h : s.WriterTakes u) (hwide : nb > typeBits tw) :
    exec (.wInsert u tw nb) s = .next (s.raise .writeWidth) := by
  show execWInsert u tw nb s = _
  unfold execWInsert
  rw [runWriter_granted s u _ h]
  dsimp only
  rw [if_pos hwide]
  rfl

theorem exec_wInsert_range (h : s.WriterTakes u) (hnb : nb ≤ typeBits tw)
    (hp : s.pkt.b.toNat > (s.writer u).valid) :
    exec (.wInsert u tw nb) s = .next (s.raise .insertRange) := by
  show execWInsert u tw nb s = _
  unfold execWInsert
  rw [runWriter_granted s u _ h]
  dsimp only
  rw [if_neg (Nat.not_lt.2 hnb), State.writerView_unit, if_pos hp]
  rfl

theorem exec_wInsert_full {c : Cause} (h : s.WriterTakes u) (hnb : nb ≤ typeBits tw)
    (hp : s.pkt.b.toNat ≤ (s.writer u).valid)
    (hcap : ensureCap s.ownMax (s.writerView u) ((s.writer u).valid + nb) .insertCapacity =
      .error c) :
    exec (.wInsert u tw nb) s = .next (s.raise c) := by
  show execWInsert u tw nb s = _
  unfold execWInsert
  rw [runWriter_granted s u _ h]
  dsimp only
  rw [if_neg (Nat.not_lt.2 hnb), State.writerView_unit, if_neg (Nat.not_lt.2 hp), checkCap_eq, hcap]
  rfl

theorem checkCap_of_capacityFor {need : Nat} (cause : Cause) (h : CapacityFor s u need) :
    checkCap s.ownMax (s.writerView u) need cause = none := by
  obtain ⟨w, hok, -⟩ := ensureCap_of_capacityFor cause h
  rw [checkCap_eq, hok]

/-- Inserting no bit passes every check and changes nothing (42 R163). -/
theorem exec_wInsert_zero (h : s.WriterTakes u) (hp : s.pkt.b.toNat ≤ (s.writer u).valid) :
    exec (.wInsert u tw 0) s = .next (s.done 0 []) := by
  have ⟨_, _, _, hsound⟩ := h
  have hcheck := checkCap_of_capacityFor .insertCapacity
    (capacityFor_of_le_valid (need := (s.writer u).valid + 0) hsound (Nat.le_refl _))
  show execWInsert u tw 0 s = _
  unfold execWInsert
  rw [runWriter_granted s u _ h]
  dsimp only
  rw [if_neg (Nat.not_lt_zero _), State.writerView_unit, if_neg (Nat.not_lt.2 hp), hcheck]
  exact congrArg (fun s' : State => Host.Outcome.next (s'.done 0 [])) (s.commit_writerView u)

/-- The bits W.INSERT writes from `p` on: the field, then what stood there (42 R163). -/
abbrev insertTail (s : State) (u nb : Nat) : BitString :=
  bitsStr s.pkt.a nb ++ (s.content u).drop s.pkt.b.toNat

theorem length_insertTail (hp : s.pkt.b.toNat ≤ (s.writer u).valid) :
    s.pkt.b.toNat + (insertTail s u nb).length = (s.writer u).valid + nb := by
  rw [List.length_append, length_bitsStr, List.length_drop, length_content]
  omega

/-- W.INSERT of at least one bit, with its checks passed: the tail from `p` on is rewritten. -/
theorem exec_wInsert_done (h : s.WriterTakes u) (hpos : 0 < nb) (hnb : nb ≤ typeBits tw)
    (hp : s.pkt.b.toNat ≤ (s.writer u).valid) (hcap : CapacityFor s u ((s.writer u).valid + nb)) :
    ∃ t, exec (.wInsert u tw nb) s = .next t ∧
      TailEdited s t u s.pkt.b.toNat (insertTail s u nb)
        (cursorAfterInsert (s.writer u).cur s.pkt.b.toNat nb) := by
  have ⟨hu, _, _, _, hfits, _⟩ := h
  obtain ⟨v, hok, hroom⟩ := ensureCap_of_keepsBinding .insertCapacity hcap
    (keepsBinding_truncateTo (s.writerView u) s.pkt.b.toNat)
  have hsuffix : extractBits (s.writerView u) s.pkt.b.toNat (s.writer u).valid =
      (s.content u).drop s.pkt.b.toNat := (drop_bitsBetween _ hp).symm
  have happ := (appended_tailWrite v (bitsStr s.pkt.a nb)).trans
    (appended_tailWrite _ ((s.content u).drop s.pkt.b.toNat))
  rw [← length_insertTail hp] at hroom
  refine ⟨_, ?_, tailEdited_commit hu (tailRewritten_of_appended hp hfits hroom happ)⟩
  show execWInsert u tw nb s = _
  unfold execWInsert
  rw [runWriter_granted s u _ h]
  dsimp only
  rw [if_neg (Nat.not_lt.2 hnb), State.writerView_unit, if_neg (Nat.not_lt.2 hp),
    checkCap_of_capacityFor _ hcap, hsuffix]
  dsimp only
  rw [if_neg (Nat.ne_of_gt hpos), hok]
  rfl

/-- A W.INSERT that ends with OK has passed its checks. -/
theorem wInsert_checks_of_ok (h : exec (.wInsert u tw nb) s = .next t) (hok : t.status = .ok) :
    s.WriterTakes u ∧ nb ≤ typeBits tw ∧ s.pkt.b.toNat ≤ (s.writer u).valid ∧
      CapacityFor s u ((s.writer u).valid + nb) := by
  have htakes : s.WriterTakes u := writerTakes_of_ok (show execWInsert u tw nb s = _ from h) hok
  have hnb : nb ≤ typeBits tw := Nat.not_lt.1 fun hwide =>
    status_ne_ok_of_raise (exec_wInsert_width htakes hwide) (by decide) h hok
  have hp : s.pkt.b.toNat ≤ (s.writer u).valid := Nat.not_lt.1 fun hrange =>
    status_ne_ok_of_raise (exec_wInsert_range htakes hnb hrange) (by decide) h hok
  refine ⟨htakes, hnb, hp, fun he => Nat.not_lt.1 fun hfull => ?_, fun ho =>
    Nat.not_lt.1 fun hfull => ?_⟩
  · exact status_ne_ok_of_raise (exec_wInsert_full htakes hnb hp (ensureCap_external_full _ he hfull))
      (by decide) h hok
  · exact status_ne_ok_of_raise (exec_wInsert_full htakes hnb hp (ensureCap_owned_full _ ho hfull))
      (by decide) h hok

/-- A W.INSERT of at least one bit that ends with OK has rewritten the tail from `p` on. -/
theorem tailEdited_of_wInsert_ok (h : exec (.wInsert u tw nb) s = .next t) (hok : t.status = .ok)
    (hpos : 0 < nb) : s.pkt.b.toNat ≤ (s.writer u).valid ∧
      TailEdited s t u s.pkt.b.toNat (insertTail s u nb)
        (cursorAfterInsert (s.writer u).cur s.pkt.b.toNat nb) := by
  obtain ⟨htakes, hnb, hp, hcap⟩ := wInsert_checks_of_ok h hok
  obtain ⟨t', hexec, hedit⟩ := exec_wInsert_done htakes hpos hnb hp hcap
  rw [hexec] at h
  cases h
  exact ⟨hp, hedit⟩

/-! ### W.ERASE -/

theorem exec_wErase_range (h : s.WriterTakes u)
    (hrange : s.pkt.a.toNat + s.pkt.b.toNat > (s.writer u).valid) :
    exec (.wErase u) s = .next (s.raise .eraseRange) := by
  show execWErase u s = _
  unfold execWErase
  rw [runWriter_granted s u _ h]
  dsimp only
  rw [State.writerView_unit, if_pos hrange]
  rfl

/-- Erasing no bit changes nothing (42 R165). -/
theorem exec_wErase_zero (h : s.WriterTakes u)
    (hrange : s.pkt.a.toNat + s.pkt.b.toNat ≤ (s.writer u).valid) (hn : s.pkt.b.toNat = 0) :
    exec (.wErase u) s = .next (s.done 0 []) := by
  show execWErase u s = _
  unfold execWErase
  rw [runWriter_granted s u _ h]
  dsimp only
  rw [State.writerView_unit, if_neg (Nat.not_lt.2 hrange), if_pos hn]
  exact congrArg (fun s' : State => Host.Outcome.next (s'.done 0 [])) (s.commit_writerView u)

/-- The bits W.ERASE writes from `f` on: what stood behind the range (42 R165). -/
abbrev eraseTail (s : State) (u : Nat) : BitString :=
  (s.content u).drop (s.pkt.a.toNat + s.pkt.b.toNat)

theorem length_eraseTail (hrange : s.pkt.a.toNat + s.pkt.b.toNat ≤ (s.writer u).valid) :
    s.pkt.a.toNat + (eraseTail s u).length = (s.writer u).valid - s.pkt.b.toNat := by
  rw [List.length_drop, length_content]
  omega

/-- W.ERASE of at least one bit within the content: the tail from `f` on is rewritten. No capacity can be
missing, since the content gets shorter. -/
theorem exec_wErase_done (h : s.WriterTakes u)
    (hrange : s.pkt.a.toNat + s.pkt.b.toNat ≤ (s.writer u).valid) (hpos : 0 < s.pkt.b.toNat) :
    ∃ t, exec (.wErase u) s = .next t ∧
      TailEdited s t u s.pkt.a.toNat (eraseTail s u)
        (cursorAfterErase (s.writer u).cur s.pkt.a.toNat s.pkt.b.toNat) := by
  have ⟨hu, _, _, hsound⟩ := h
  have ⟨_, hfits, _⟩ := hsound
  obtain ⟨v, hok, hroom⟩ := ensureCap_of_keepsBinding .eraseRange
    (capacityFor_of_le_valid (need := (s.writer u).valid - s.pkt.b.toNat) hsound (Nat.sub_le _ _))
    (keepsBinding_truncateTo (s.writerView u) s.pkt.a.toNat)
  have hsuffix : extractBits (s.writerView u) (s.pkt.a.toNat + s.pkt.b.toNat) (s.writer u).valid =
      eraseTail s u := (drop_bitsBetween _ hrange).symm
  have hf : s.pkt.a.toNat ≤ (s.writer u).valid := by omega
  rw [← length_eraseTail hrange] at hroom
  refine ⟨_, ?_, tailEdited_commit hu
    (tailRewritten_of_appended hf hfits hroom (appended_tailWrite v (eraseTail s u)))⟩
  show execWErase u s = _
  unfold execWErase
  rw [runWriter_granted s u _ h]
  dsimp only
  rw [State.writerView_unit, if_neg (Nat.not_lt.2 hrange), if_neg (Nat.ne_of_gt hpos), hok, hsuffix]
  rfl

/-- A W.ERASE of at least one bit that ends with OK has rewritten the tail from `f` on. -/
theorem tailEdited_of_wErase_ok (h : exec (.wErase u) s = .next t) (hok : t.status = .ok)
    (hpos : 0 < s.pkt.b.toNat) : s.pkt.a.toNat + s.pkt.b.toNat ≤ (s.writer u).valid ∧
      TailEdited s t u s.pkt.a.toNat (eraseTail s u)
        (cursorAfterErase (s.writer u).cur s.pkt.a.toNat s.pkt.b.toNat) := by
  have htakes : s.WriterTakes u := writerTakes_of_ok (show execWErase u s = _ from h) hok
  have hrange : s.pkt.a.toNat + s.pkt.b.toNat ≤ (s.writer u).valid := Nat.not_lt.1 fun hout =>
    status_ne_ok_of_raise (exec_wErase_range htakes hout) (by decide) h hok
  obtain ⟨t', hexec, hedit⟩ := exec_wErase_done htakes hrange hpos
  rw [hexec] at h
  cases h
  exact ⟨hrange, hedit⟩

/-! ### One after the other (42 R167) -/

/-- A writer that W.INSERT has changed takes a W.ERASE of the bits inserted. -/
theorem writerTakes_of_wInsert_ok {p : Packet} (hmax : s.ownMax ≤ Config.extMaxBytes)
    (h : exec (.wInsert u tw nb) s = .next t) (htakes : s.WriterTakes u) (hends : EndsOk s t 0 [])
    (hnw : t.nw = s.nw) (hst : (t.writer u).st = (s.writer u).st) (hp : p.payload = []) :
    State.WriterTakes { t with pkt := p } u := by
  obtain ⟨hu, -, hready, hsound⟩ := htakes
  obtain ⟨-, -, -, -, -, hown⟩ := hends
  have hkept : (t.writer u).Sound s.ownMax :=
    exec_keepsWriterSound (i := .wInsert u tw nb) h hu hmax hsound
  refine ⟨?_, hp, hst.trans hready, ?_⟩
  · show u < t.nw
    rwa [hnw]
  · show (t.writer u).Sound t.ownMax
    rwa [hown]

/-- The cursor rule of W.ERASE takes back that of W.INSERT (42 R167). -/
theorem cursorAfterErase_insert (c p n : Nat) :
    cursorAfterErase (cursorAfterInsert c p n) p n = c := by
  unfold cursorAfterErase cursorAfterInsert
  by_cases h : c < p
  · rw [if_pos h, if_pos h]
  · rw [if_neg h, if_neg (by omega), if_neg (by omega), Nat.add_sub_cancel]

/-- Cutting an inserted string out again. -/
theorem take_append_drop_insert (s f : BitString) {p : Nat} (hp : p ≤ s.length) :
    (s.take p ++ (f ++ s.drop p)).take p ++ (s.take p ++ (f ++ s.drop p)).drop (p + f.length) = s := by
  have hlen : (s.take p).length = p := List.length_take_of_le hp
  rw [List.take_left' hlen, ← List.append_assoc,
    List.drop_left' (by rw [List.length_append, hlen]), List.take_append_drop]

end

end Sys2Proof.Machine
end

section
open Sys2Proof Sys2Proof.Machine

/-- Settles O33: the checks come before the first change; then the tail from `p` on is the field followed
by what stood there. -/
theorem wInsertInsertsTheField : Obligations.WInsertInsertsTheField := by
  intro s u tw nb htakes x p
  refine ⟨exec_wInsert_width htakes, exec_wInsert_range htakes,
    fun hnb hp he hfull => exec_wInsert_full htakes hnb hp (ensureCap_external_full _ he hfull),
    fun hnb hp ho hfull => exec_wInsert_full htakes hnb hp (ensureCap_owned_full _ ho hfull),
    fun hzero hp => ?_, fun hpos hnb hp hcap => ?_⟩
  · subst hzero
    exact ⟨_, exec_wInsert_zero htakes hp, endsOk_done 0 [] rfl rfl rfl rfl rfl,
      nothingStored_done s⟩
  · obtain ⟨t, hexec, hedit⟩ := exec_wInsert_done htakes hpos hnb hp hcap
    have hlen := length_insertTail (nb := nb) hp
    have hcontent := hedit.content hp
    have hvalid := hedit.valid
    have hstored := hedit.xmemStoredOnly
    have hcapOwned := hedit.view.capOwned
    unfold rewriteEnd at hstored
    rw [hlen] at hvalid hstored hcapOwned
    rw [← List.append_assoc] at hcontent
    exact ⟨t, hexec, hedit.ends, hedit.only, hedit.sameBinding, hcontent, hvalid, hedit.cur,
      hedit.view.capExternal, hcapOwned, hstored⟩

/-- Settles O34: the tail from `f` on is what stood behind the range, so the content gets shorter and the
span ends with the last byte that held content. -/
theorem wEraseRemovesTheRange : Obligations.WEraseRemovesTheRange := by
  intro s u htakes x f n
  refine ⟨exec_wErase_range htakes, fun hrange hzero => ⟨_, exec_wErase_zero htakes hrange hzero,
    endsOk_done 0 [] rfl rfl rfl rfl rfl, nothingStored_done s⟩, fun hrange hpos => ?_⟩
  obtain ⟨t, hexec, hedit⟩ := exec_wErase_done htakes hrange hpos
  have hf : f < x.valid := by omega
  have hlen := length_eraseTail hrange
  have hold : x.valid ≤ 8 * ceil8 x.valid := le_ceil8 _
  have hend : rewriteEnd (s.writerView u) f (eraseTail s u).length = 8 * ceil8 x.valid := by
    unfold rewriteEnd
    rw [hlen, State.writerView_unit, if_pos hf, Nat.max_eq_right (Nat.le_trans (Nat.sub_le _ _) hold)]
  have hcapOwned := hedit.view.capOwned
  rw [hlen, State.writerView_unit, if_pos hf] at hcapOwned
  exact ⟨t, hexec, hedit.ends, hedit.only, hedit.sameBinding, hedit.content (Nat.le_of_lt hf),
    hedit.valid.trans hlen, hedit.cur, hedit.view.capExternal, hcapOwned,
    hend ▸ hedit.xmemStoredOnly⟩

/-- Settles O35: what a rewritten tail leaves beyond the new content, for an insert before the end, an
insert at the end, where zero padding is as it was, and an erase. -/
theorem insertAndEraseClosedFormPadding : Obligations.InsertAndEraseClosedFormPadding := by
  constructor
  · intro s t u tw nb hpos hpadded h hok
    dsimp only
    obtain ⟨hp, hedit⟩ := tailEdited_of_wInsert_ok h hok hpos
    have hlen := length_insertTail (nb := nb) hp
    have hcontent := hedit.content hp
    have hvalid := hedit.valid
    obtain ⟨-, -, -, hcapOwned, -, -, howned, hexternal, -⟩ := hedit.view
    rw [hlen] at hvalid hcapOwned howned hexternal
    rw [← List.append_assoc] at hcontent
    refine ⟨hcontent, hvalid, fun ho => ⟨fun i hi hcap => ?_, hcapOwned ho⟩, fun he =>
      ⟨fun hlt i hi hold => ?_, fun _ i hi hold => ?_, fun hend i hi => ?_⟩⟩
    · refine (howned ho i hi hcap).trans ?_
      by_cases hnew : s.pkt.b.toNat < (s.writer u).valid ∨ 8 * (s.writer u).cap ≤ i
      · exact if_pos hnew
      · have hbyte : (s.writerView u).byte = (s.writer u).omem.read := by
          unfold WriterView.byte
          rw [State.writerView_unit, ho]
        exact (if_neg hnew).trans (hbyte ▸ hpadded ho i (by omega) (by omega))
    · exact (hexternal he i hi).trans (if_pos ⟨hlt, hold⟩)
    · exact (hexternal he i hi).trans (if_neg fun hcut => Nat.not_le.2 hcut.2 hold)
    · exact (hexternal he i hi).trans (if_neg fun hcut => Nat.ne_of_lt hcut.1 hend)
  · intro s t u hpos h hok
    dsimp only
    obtain ⟨hrange, hedit⟩ := tailEdited_of_wErase_ok h hok hpos
    have hf : s.pkt.a.toNat < (s.writer u).valid := by omega
    have hlen := length_eraseTail hrange
    have hold : (s.writer u).valid ≤ 8 * ceil8 (s.writer u).valid := le_ceil8 _
    have hcontent := hedit.content (Nat.le_of_lt hf)
    have hvalid := hedit.valid
    obtain ⟨-, -, -, hcapOwned, -, -, howned, hexternal, -⟩ := hedit.view
    rw [hlen] at hvalid hcapOwned howned hexternal
    refine ⟨hcontent, hvalid, fun ho => ⟨fun i hi hcap => ?_, (hcapOwned ho).trans (if_pos hf)⟩,
      fun he => ⟨fun i hi hbyte => ?_, fun i hi => ?_⟩⟩
    · exact (howned ho i hi hcap).trans (if_pos (.inl hf))
    · exact (hexternal he i hi).trans (if_pos ⟨hf, hbyte⟩)
    · exact (hexternal he i (by omega)).trans (if_neg fun hcut => Nat.not_le.2 hcut.2 hi)

/-- Settles O46: the erase finds a sound writer whose content holds the inserted bits between the parts
of the old one, and cuts them out. -/
theorem eraseUndoesInsert : Obligations.EraseUndoesInsert := by
  intro s t u tw nb p hparams hnb h hok ha hb hpayload
  obtain ⟨htakes, -, hp, -⟩ := wInsert_checks_of_ok h hok
  obtain ⟨-, -, hmax⟩ := hparams
  have hfirst : p.a.toNat = s.pkt.b.toNat := by rw [ha]
  have hcount : p.b.toNat = nb := by
    rw [hb, BitVec.toNat_ofNat]
    exact Nat.mod_eq_of_lt (by omega)
  by_cases hpos : 0 < nb
  · obtain ⟨-, hedit⟩ := tailEdited_of_wInsert_ok h hok hpos
    have htakes' : State.WriterTakes { t with pkt := p } u :=
      writerTakes_of_wInsert_ok hmax h htakes hedit.ends hedit.only.1 hedit.view.st hpayload
    have hvalid : (t.writer u).valid = (s.writer u).valid + nb :=
      hedit.valid.trans (length_insertTail hp)
    have hrange : p.a.toNat + p.b.toNat ≤ (t.writer u).valid := by omega
    obtain ⟨t', hexec, hundo⟩ := exec_wErase_done htakes' hrange (hcount ▸ hpos)
    have hf : p.a.toNat ≤ (t.writer u).valid := by omega
    obtain ⟨⟨hstatus, -⟩, -⟩ := hundo.ends
    refine ⟨t', hexec, hstatus, ?_, ?_, ?_⟩
    · have hcontent : t'.content u =
          (t.content u).take p.a.toNat ++ (t.content u).drop (p.a.toNat + p.b.toNat) :=
        hundo.content hf
      have hlen : p.b.toNat = (bitsStr s.pkt.a nb).length := by rw [hcount, length_bitsStr]
      rw [hcontent, hedit.content hp, hfirst, hlen]
      exact take_append_drop_insert _ _ (by rwa [length_content])
    · have hundone : (t'.writer u).valid = (t.writer u).valid - p.b.toNat :=
        hundo.valid.trans (length_eraseTail hrange)
      omega
    · have hcur : (t'.writer u).cur = cursorAfterErase (t.writer u).cur p.a.toNat p.b.toNat := hundo.cur
      rw [hcur, hedit.cur, hfirst, hcount, cursorAfterErase_insert]
  · have hzero : nb = 0 := by omega
    subst hzero
    rw [exec_wInsert_zero htakes hp] at h
    cases h
    obtain ⟨hu, -, hready, hsound⟩ := htakes
    have htakes' : State.WriterTakes { s.done 0 [] with pkt := p } u := ⟨hu, hpayload, hready, hsound⟩
    have hrange : p.a.toNat + p.b.toNat ≤ (s.writer u).valid := by omega
    exact ⟨_, exec_wErase_zero htakes' hrange hcount, rfl, rfl, rfl, rfl⟩

end

section
/-! SUPPORT. W.RESIZE and W.RESERVE (42 R166, R168): what each check answers, and what a command that ends
with OK leaves. -/
namespace Sys2Proof.Machine

/-! ### A tail without a cut, and a cut without a tail -/

/-- Writing behind the whole content cuts nothing off: the bits beyond are as before, or new and 0. -/
theorem TailRewritten.beyond_of_no_cut {bits : BitString} {v w : WriterView}
    (h : TailRewritten v.unit.valid bits v w) :
    w.unit.cap = (if v.unit.mode = .owned then max v.unit.cap (ceil8 (v.unit.valid + bits.length))
      else v.unit.cap) ∧
    (∀ i, v.unit.valid + bits.length ≤ i → i < 8 * v.unit.cap → bitAt w.byte i = bitAt v.byte i) ∧
    ∀ i, v.unit.valid + bits.length ≤ i → 8 * v.unit.cap ≤ i → i < 8 * w.unit.cap →
      bitAt w.byte i = false := by
  obtain ⟨-, -, hcapExternal, hcapOwned, -, -, howned, hexternal, -⟩ := h
  cases hm : v.unit.mode with
  | owned =>
    have hcap := hcapOwned hm
    rw [if_neg (Nat.lt_irrefl _)] at hcap
    refine ⟨by rw [hcap, if_pos rfl], fun i hi hold => ?_, fun i hi hnew hend => ?_⟩
    · rw [howned hm i hi (by omega), if_neg (by omega)]
    · rw [howned hm i hi hend, if_pos (.inr hnew)]
  | external =>
    have hcap := hcapExternal hm
    refine ⟨by rw [hcap, if_neg (by decide)], fun i hi _ => ?_, fun i _ hnew hend => by omega⟩
    rw [hexternal hm i hi, if_neg fun hcut => Nat.lt_irrefl _ hcut.1]

/-- Cutting the content and writing nothing leaves what Truncate leaves (42 R161). -/
theorem TailRewritten.beyond_of_no_tail {p : Nat} {v w : WriterView} (h : TailRewritten p [] v w)
    (hlt : p < v.unit.valid) :
    (v.unit.mode = .owned → w.unit.cap = ceil8 p ∧
      ∀ i, p ≤ i → i < 8 * ceil8 p → bitAt w.byte i = false) ∧
    (v.unit.mode = .external → w.unit.cap = v.unit.cap ∧
      (∀ i, p ≤ i → i < 8 * ceil8 v.unit.valid → bitAt w.byte i = false) ∧
      ∀ i, 8 * ceil8 v.unit.valid ≤ i → bitAt w.byte i = bitAt v.byte i) := by
  obtain ⟨-, -, hcapExternal, hcapOwned, -, -, howned, hexternal, -⟩ := h
  have hold : v.unit.valid ≤ 8 * ceil8 v.unit.valid := le_ceil8 _
  refine ⟨fun ho => ?_, fun he => ⟨hcapExternal he, fun i hi hend => ?_, fun i hi => ?_⟩⟩
  · have hcap : w.unit.cap = ceil8 p := (hcapOwned ho).trans (if_pos hlt)
    exact ⟨hcap, fun i hi hend => (howned ho i hi (hcap ▸ hend)).trans (if_pos (.inl hlt))⟩
  · exact (hexternal he i hi).trans (if_pos ⟨hlt, hend⟩)
  · exact (hexternal he i (show p + 0 ≤ i by omega)).trans
      (if_neg fun hcut => Nat.not_le.2 hcut.2 hi)

section
variable {s t : State} {u : Nat}

/-! ### W.RESIZE -/

/-- What the capacity check of W.RESIZE answers (42 R166). -/
theorem resizeCheck_of_full (own : Nat) (v : WriterView) (len : Nat) :
    (v.unit.mode = .external → len > 8 * v.unit.cap →
      resizeCheck own v len = some (.faulted .resizeExtCapacity)) ∧
    (v.unit.mode = .owned → ceil8 len > own → resizeCheck own v len = some (.error .nomemGrow)) := by
  unfold resizeCheck
  refine ⟨fun he hfull => ?_, fun ho hfull => ?_⟩
  · rw [he]; exact if_pos hfull
  · rw [ho]; exact if_pos hfull

theorem resizeCheck_of_capacityFor {len : Nat} (h : CapacityFor s u len) :
    resizeCheck s.ownMax (s.writerView u) len = none := by
  obtain ⟨hexternal, howned⟩ := h
  unfold resizeCheck
  rw [State.writerView_unit]
  cases hm : (s.writer u).mode with
  | owned => exact if_neg (Nat.not_lt.2 (howned hm))
  | external => exact if_neg (Nat.not_lt.2 (hexternal hm))

theorem exec_wResize_full {e : WriterEnd} (h : s.WriterTakes u)
    (hcheck : resizeCheck s.ownMax (s.writerView u) s.pkt.a.toNat = some e) :
    exec (.wResize u) s = finishWriter s u e := by
  show execWResize u s = _
  unfold execWResize
  rw [runWriter_granted s u _ h]
  dsimp only
  rw [hcheck]

theorem exec_wResize_grow {v : WriterView} (h : s.WriterTakes u) (hcap : CapacityFor s u s.pkt.a.toNat)
    (hgrow : s.pkt.a.toNat > (s.writer u).valid)
    (hok : ensureCap s.ownMax (s.writerView u) s.pkt.a.toNat .resizeExtCapacity = .ok v) :
    exec (.wResize u) s = .next ((s.commit u
      ((tailWrite v (List.replicate (s.pkt.a.toNat - (s.writer u).valid) false)).setCur
        (min (s.writer u).cur s.pkt.a.toNat))).done 0 []) := by
  show execWResize u s = _
  unfold execWResize
  rw [runWriter_granted s u _ h]
  dsimp only
  rw [resizeCheck_of_capacityFor hcap]
  dsimp only
  rw [State.writerView_unit, if_pos hgrow, hok]
  rfl

theorem exec_wResize_cut (h : s.WriterTakes u) (hcap : CapacityFor s u s.pkt.a.toNat)
    (hle : s.pkt.a.toNat ≤ (s.writer u).valid) :
    exec (.wResize u) s = .next ((s.commit u
      ((truncateTo (s.writerView u) s.pkt.a.toNat).setCur
        (min (s.writer u).cur s.pkt.a.toNat))).done 0 []) := by
  show execWResize u s = _
  unfold execWResize
  rw [runWriter_granted s u _ h]
  dsimp only
  rw [resizeCheck_of_capacityFor hcap]
  dsimp only
  rw [State.writerView_unit, if_neg (Nat.not_lt.2 hle)]
  rfl

/-- Resizing to the length the content has changes nothing (42 R166). -/
theorem exec_wResize_same (h : s.WriterTakes u) (hsame : s.pkt.a.toNat = (s.writer u).valid) :
    exec (.wResize u) s = .next (s.done 0 []) := by
  have ⟨_, _, _, hsound⟩ := h
  have ⟨hcur, _⟩ := hsound
  have hkept : (truncateTo (s.writerView u) s.pkt.a.toNat).setCur
      (min (s.writer u).cur s.pkt.a.toNat) = s.writerView u := by
    have hself : truncateTo (s.writerView u) s.pkt.a.toNat = s.writerView u := if_pos hsame
    rw [hself, Nat.min_eq_left (hsame ▸ hcur)]
    rfl
  rw [exec_wResize_cut h (capacityFor_of_le_valid hsound (Nat.le_of_eq hsame)) (Nat.le_of_eq hsame),
    hkept, State.commit_writerView]

/-- The bits W.RESIZE writes: zeros when it grows, none when it shrinks (42 R166). -/
abbrev resizeTail (s : State) (u : Nat) : BitString :=
  List.replicate (s.pkt.a.toNat - (s.writer u).valid) false

theorem length_resizeTail :
    min (s.writer u).valid s.pkt.a.toNat + (resizeTail s u).length = s.pkt.a.toNat := by
  rw [List.length_replicate]
  omega

/-- Shrinking writes no bit. -/
theorem resizeTail_of_le (h : s.pkt.a.toNat ≤ (s.writer u).valid) : resizeTail s u = [] := by
  rw [resizeTail, Nat.sub_eq_zero_of_le h]
  rfl

/-- W.RESIZE within the capacity: the content is cut at the new length, or zeros follow it. -/
theorem exec_wResize_done (h : s.WriterTakes u) (hcap : CapacityFor s u s.pkt.a.toNat) :
    ∃ t, exec (.wResize u) s = .next t ∧
      TailEdited s t u (min (s.writer u).valid s.pkt.a.toNat) (resizeTail s u)
        (min (s.writer u).cur s.pkt.a.toNat) := by
  have ⟨hu, _, _, _, hfits, _⟩ := h
  have hlen := length_resizeTail (s := s) (u := u)
  by_cases hgrow : s.pkt.a.toNat > (s.writer u).valid
  · rw [Nat.min_eq_left (Nat.le_of_lt hgrow)] at hlen ⊢
    obtain ⟨v, hok, hroom⟩ := ensureCap_of_capacityFor .resizeExtCapacity hcap
    refine ⟨_, exec_wResize_grow h hcap hgrow hok, tailEdited_commit hu ?_⟩
    refine tailRewritten_of_appended (Nat.le_refl _) hfits ?_ (appended_tailWrite v _)
    rw [hlen]
    exact (truncateTo_valid_self (s.writerView u)).symm ▸ hroom
  · have hle : s.pkt.a.toNat ≤ (s.writer u).valid := Nat.not_lt.1 hgrow
    rw [Nat.min_eq_right hle, resizeTail_of_le hle]
    obtain ⟨hkept, -⟩ := truncateTo_cap (s.writerView u) s.pkt.a.toNat hle hfits
    have hcut : TailRewritten s.pkt.a.toNat [] (s.writerView u)
        ((truncateTo (s.writerView u) s.pkt.a.toNat).setCur _) :=
      tailRewritten_of_appended hle hfits (.refl hkept) (.nil _)
    exact ⟨_, exec_wResize_cut h hcap hle, tailEdited_commit hu (hcut.setCur _)⟩

/-- A W.RESIZE that ends with OK has cut the content or extended it with zeros. -/
theorem tailEdited_of_wResize_ok (h : exec (.wResize u) s = .next t) (hok : t.status = .ok) :
    TailEdited s t u (min (s.writer u).valid s.pkt.a.toNat) (resizeTail s u)
      (min (s.writer u).cur s.pkt.a.toNat) := by
  have htakes : s.WriterTakes u := writerTakes_of_ok (show execWResize u s = _ from h) hok
  obtain ⟨hexternal, howned⟩ := resizeCheck_of_full s.ownMax (s.writerView u) s.pkt.a.toNat
  have hcap : CapacityFor s u s.pkt.a.toNat := by
    refine ⟨fun he => Nat.not_lt.1 fun hfull => ?_, fun ho => Nat.not_lt.1 fun hfull => ?_⟩
    · rw [exec_wResize_full htakes (hexternal he hfull)] at h
      cases h
      cases hok
    · rw [exec_wResize_full htakes (howned ho hfull)] at h
      cases h
      cases hok
  obtain ⟨t', hexec, hedit⟩ := exec_wResize_done htakes hcap
  rw [hexec] at h
  cases h
  exact hedit

/-! ### W.RESERVE -/

theorem exec_wReserve_external (h : s.WriterTakes u) (he : (s.writer u).mode = .external) :
    exec (.wReserve u) s = .next (s.raise .reserveExternal) := by
  show execWReserve u s = _
  unfold execWReserve
  rw [runWriter_granted s u _ h, State.writerView_unit, he]
  rfl

theorem exec_wReserve_full (h : s.WriterTakes u) (ho : (s.writer u).mode = .owned)
    (hfull : ceil8 s.pkt.a.toNat > s.ownMax) :
    exec (.wReserve u) s = .next (s.raise .nomemGrow) := by
  show execWReserve u s = _
  unfold execWReserve
  rw [runWriter_granted s u _ h, State.writerView_unit, ho]
  dsimp only
  rw [if_pos hfull]
  rfl

theorem exec_wReserve_done (h : s.WriterTakes u) (ho : (s.writer u).mode = .owned)
    (hfits : ceil8 s.pkt.a.toNat ≤ s.ownMax) :
    exec (.wReserve u) s =
      .next ((s.commit u (growOwned (s.writerView u) (ceil8 s.pkt.a.toNat))).done 0 []) := by
  show execWReserve u s = _
  unfold execWReserve
  rw [runWriter_granted s u _ h, State.writerView_unit, ho]
  dsimp only
  rw [if_neg (Nat.not_lt.2 hfits)]
  rfl

/-- Of the registers growth moves CAP alone (42 R168). -/
theorem growOwned_unit (v : WriterView) (n : Nat) :
    (growOwned v n).unit =
      { v.unit with cap := max v.unit.cap n, omem := (growOwned v n).unit.omem } := by
  unfold growOwned
  by_cases hgrow : n > v.unit.cap
  · rw [if_pos hgrow, Nat.max_eq_right (Nat.le_of_lt hgrow)]
    rfl
  · rw [if_neg hgrow, Nat.max_eq_left (Nat.not_lt.1 hgrow)]

end

end Sys2Proof.Machine
end

section
open Sys2Proof Sys2Proof.Machine

/-- Settles O36: growing, shrinking and keeping the length are one edit, whose tail is zeros or empty. -/
theorem wResizeSetsTheLength : Obligations.WResizeSetsTheLength := by
  intro s u htakes
  dsimp only
  obtain ⟨hexternal, howned⟩ := resizeCheck_of_full s.ownMax (s.writerView u) s.pkt.a.toNat
  refine ⟨fun he hfull => exec_wResize_full htakes (hexternal he hfull),
    fun ho hfull => exec_wResize_full htakes (howned ho hfull), fun hcap => ?_⟩
  obtain ⟨t, hexec, hedit⟩ := exec_wResize_done htakes hcap
  have hvalid : (t.writer u).valid = s.pkt.a.toNat := hedit.valid.trans length_resizeTail
  have hstored := hedit.xmemStoredOnly
  refine ⟨t, hexec, hedit.ends, hedit.only, hedit.sameBinding, hvalid, hedit.cur, hedit.view.below,
    fun hsame => ?_, fun hgrow => ?_, fun hcut => ?_, ?_⟩
  · rw [exec_wResize_same htakes hsame] at hexec
    cases hexec
    exact nothingStored_done s
  · have hview := hedit.view
    have hlen := length_resizeTail (s := s) (u := u)
    rw [Nat.min_eq_left (Nat.le_of_lt hgrow)] at hview hlen
    obtain ⟨hnewCap, hkept, hfresh⟩ :=
      TailRewritten.beyond_of_no_cut (v := s.writerView u) hview
    simp only [State.writerView_unit, hlen] at hnewCap hkept hfresh
    refine ⟨fun i hlo hhi => ?_, hkept, hfresh, hnewCap⟩
    have hzero := bitAt_of_bitsBetween_eq hview.written
      (show i - (s.writer u).valid < (resizeTail s u).length by rw [List.length_replicate]; omega)
    rw [List.getElem_replicate, Nat.add_sub_cancel' hlo] at hzero
    exact hzero
  · have hview := hedit.view
    rw [Nat.min_eq_right (Nat.le_of_lt hcut), resizeTail_of_le (Nat.le_of_lt hcut)] at hview
    exact hview.beyond_of_no_tail hcut
  · unfold rewriteEnd at hstored
    rw [length_resizeTail, State.writerView_unit] at hstored
    by_cases hcut : s.pkt.a.toNat < (s.writer u).valid
    · have hold : (s.writer u).valid ≤ 8 * ceil8 (s.writer u).valid := le_ceil8 _
      rw [if_pos (by omega), Nat.max_eq_right (by omega)] at hstored
      rwa [if_pos hcut]
    · rw [if_neg (by omega)] at hstored
      rwa [if_neg hcut]

/-- Settles O37: the one change is the growth of owned storage. -/
theorem wReserveGrowsOwnedCapacity : Obligations.WReserveGrowsOwnedCapacity := by
  intro s u htakes x need
  refine ⟨exec_wReserve_external htakes, exec_wReserve_full htakes, fun ho hfits => ?_⟩
  obtain ⟨hstorage, -, -, -, hkept, hfresh⟩ := growOwned_spec (s.writerView u) need ho
  have hview := writerView_commit_done htakes.1 (growOwned (s.writerView u) need) 0 []
  have hunit : ((s.commit u (growOwned (s.writerView u) need)).done 0 []).writer u =
      (growOwned (s.writerView u) need).unit := State.writer_commit_self s u _ htakes.1
  refine ⟨_, exec_wReserve_done htakes ho hfits, endsOk_done 0 [] rfl rfl rfl rfl rfl,
    onlyWriterChanged_setWriter s u _, hstorage.xmem ho, ?_, ?_, ?_⟩
  · rw [hunit]; exact growOwned_unit _ _
  · rw [hview]; exact hkept
  · rw [hview]; exact hfresh

/-- Settles O47: both resizes keep the bits below the lengths they go from and to. -/
theorem growThenShrinkKeepsThePrefix : Obligations.GrowThenShrinkKeepsThePrefix := by
  intro s t t' u p h hok hgrow hshrink h' hok'
  have hfirst := tailEdited_of_wResize_ok h hok
  have hsecond := tailEdited_of_wResize_ok h' hok'
  have hcontent : t.content u = s.content u ++ resizeTail s u := by
    rw [hfirst.content (Nat.min_le_left _ _), Nat.min_eq_left hgrow, ← length_content, List.take_length]
  have hvalid : (t.writer u).valid = s.pkt.a.toNat := hfirst.valid.trans length_resizeTail
  have hle : p.a.toNat ≤ (t.writer u).valid := by omega
  have hvalid' : (t'.writer u).valid = p.a.toNat := hsecond.valid.trans length_resizeTail
  refine ⟨hvalid', ?_⟩
  have hnone : resizeTail { t with pkt := p } u = [] := resizeTail_of_le hle
  have hcut : t'.content u = (t.content u).take (min (t.writer u).valid p.a.toNat) ++ [] :=
    hnone ▸ hsecond.content (Nat.min_le_left _ _)
  rw [hcut, List.append_nil, Nat.min_eq_right hle, hcontent,
    List.take_append_of_le_length (by rwa [length_content])]

end

section
/-! SUPPORT. Seek, the accessors, the copy and the dumps (43 R180 to R187, 44 R204, R211): what each check
of a seek answers, and that a command which only answers stores nothing. -/
namespace Sys2Proof.Machine

/-! ### Seek -/

/-- The three origins that have a base position (30_encoding R94). -/
theorem originBase_eq_some_iff (org : Origin) (valid cur base : Nat) :
    originBase org valid cur = some base ↔
      (org = .fromBegin ∧ base = 0) ∨ (org = .fromEnd ∧ base = valid) ∨
      (org = .fromCurrent ∧ base = cur) := by
  cases org <;> simp [originBase, eq_comm]

theorem seekTarget_invalid (a : Word) (valid cur : Nat) :
    seekTarget .invalid a valid cur = .error .seekOrigin := rfl

/-- The three ranges of the exact sum, with the operand read as two's complement (43 R187). -/
theorem seekTarget_of_originBase {org : Origin} {a : Word} {valid cur base : Nat}
    (hbase : originBase org valid cur = some base) :
    ((base : Int) + a.toInt < 0 → seekTarget org a valid cur = .error .seekNegative) ∧
    ((base : Int) + a.toInt > valid → seekTarget org a valid cur = .error .seekBeyond) ∧
    (0 ≤ (base : Int) + a.toInt → (base : Int) + a.toInt ≤ valid →
      seekTarget org a valid cur = .ok ((base : Int) + a.toInt).toNat) := by
  rcases seekTarget_cases org a valid cur with ⟨rfl, -⟩ | ⟨base', hbase', hranges⟩
  · cases hbase
  obtain rfl : base = base' := Option.some.inj (hbase.symm.trans hbase')
  rw [signedOffset_eq_toInt] at hranges
  rcases hranges with ⟨hneg, h⟩ | ⟨hnonneg, hbeyond, h⟩ | ⟨hnonneg, hle, h⟩
  · exact ⟨fun _ => h, fun _ => by omega, fun _ => by omega⟩
  · exact ⟨fun _ => by omega, fun _ => h, fun _ _ => by omega⟩
  · exact ⟨fun _ => by omega, fun _ => by omega, fun _ _ => h⟩

section
variable {s : State} {u r pos : Nat} {org : Origin} {c : Cause}

theorem exec_wSeek_error (h : s.WriterTakes u)
    (hseek : seekTarget org s.pkt.a (s.writer u).valid (s.writer u).cur = .error c) :
    exec (.wSeek u org) s = .next (s.raise c) := by
  show execWSeek u org s = _
  unfold execWSeek
  rw [runWriter_granted s u _ h, State.writerView_unit, hseek]
  rfl

theorem exec_wSeek_ok (h : s.WriterTakes u)
    (hseek : seekTarget org s.pkt.a (s.writer u).valid (s.writer u).cur = .ok pos) :
    exec (.wSeek u org) s = .next ((s.setWriter u { s.writer u with cur := pos }).done 0 []) := by
  show execWSeek u org s = _
  unfold execWSeek
  rw [runWriter_granted s u _ h, State.writerView_unit, hseek]
  rfl

theorem exec_rSeek_error (h : s.ReaderTakes r)
    (hseek : seekTarget org s.pkt.a (s.reader r).valid (s.reader r).cur = .error c) :
    exec (.rSeek r org) s = .next (s.raise c) := by
  show execRSeek r org s = _
  unfold execRSeek
  rw [runReader_granted s r _ h, State.readerView_unit, hseek]
  rfl

theorem exec_rSeek_ok (h : s.ReaderTakes r)
    (hseek : seekTarget org s.pkt.a (s.reader r).valid (s.reader r).cur = .ok pos) :
    exec (.rSeek r org) s = .next ((s.setReader r { s.reader r with cur := pos }).done 0 []) := by
  show execRSeek r org s = _
  unfold execRSeek
  rw [runReader_granted s r _ h, State.readerView_unit, hseek]
  rfl

end

/-! ### Commands that only answer -/

/-- A writer rule that hands back the view it was given ends the command on the state it found. -/
theorem runWriter_answer {s : State} {u : Nat} {rule : WriterView → WriterEnd} {x : Word}
    {d : List Byte} (h : s.WriterTakes u)
    (hrule : rule (s.writerView u) = .done (s.writerView u) x d) :
    runWriter s u rule = .next (s.done x d) := by
  rw [runWriter_granted s u rule h, hrule, finishWriter, State.commit_writerView]

/-- A reader rule that hands back the unit it was given ends the command on the state it found. -/
theorem runReader_answer {s : State} {r : Nat} {rule : ReaderView → ReaderEnd} {x : Word}
    {d : List Byte} (h : s.ReaderTakes r)
    (hrule : rule (s.readerView r) = .done (s.reader r) x d) :
    runReader s r rule = .next (s.done x d) := by
  rw [runReader_granted s r rule h, hrule, finishReader, State.setReader_reader]

theorem done_answer_spec (s : State) (x : Word) (d : List Byte) :
    EndsOk s (s.done x d) x d ∧ NothingStored s (s.done x d) :=
  ⟨endsOk_done x d rfl rfl rfl rfl rfl, rfl, rfl, rfl⟩

/-- A command that answers the number `n` and leaves DOUT empty. -/
theorem answers_number {s : State} {i : Instr} {x : Word} {n : Nat}
    (h : exec i s = .next (s.done x [])) (hn : x.toNat = n) :
    ∃ t, exec i s = .next t ∧ EndsOk s t t.res [] ∧ t.res.toNat = n ∧ NothingStored s t := by
  obtain ⟨hends, hstored⟩ := done_answer_spec s x []
  exact ⟨_, h, hends, hn, hstored⟩

/-! ### The accessors -/

section
variable {s : State} {u : Nat}

theorem exec_wTell_of_takes (h : s.WriterTakes u) :
    exec (.wTell u) s = .next (s.done (BitVec.ofNat 64 (s.writer u).cur) []) := by
  show execWTell u s = _
  exact runWriter_answer h rfl

theorem exec_wNbits_of_takes (h : s.WriterTakes u) :
    exec (.wNbits u) s = .next (s.done (BitVec.ofNat 64 (s.writer u).valid) []) := by
  show execWNbits u s = _
  exact runWriter_answer h rfl

theorem exec_wNbytes_of_takes (h : s.WriterTakes u) :
    exec (.wNbytes u) s = .next (s.done (BitVec.ofNat 64 (ceil8 (s.writer u).valid)) []) := by
  show execWNbytes u s = _
  exact runWriter_answer h rfl

theorem exec_wPtr_of_takes (h : s.WriterTakes u) :
    exec (.wPtr u) s = .next (s.done (s.writer u).base []) := by
  show execWPtr u s = _
  exact runWriter_answer h rfl

end

/-! ### RES holds the whole number (00_scope R7) -/

theorem Writer.Sound.valid_lt {own : Nat} {x : Writer} (h : x.Sound own) : x.valid < 2 ^ 64 := by
  obtain ⟨-, hvalid, hcap, -⟩ := h
  have hmax : Config.extMaxBytes = 2 ^ 61 - 1 := rfl
  omega

theorem Writer.Sound.cur_lt {own : Nat} {x : Writer} (h : x.Sound own) : x.cur < 2 ^ 64 := by
  have hvalid := h.valid_lt
  obtain ⟨hcur, -⟩ := h
  omega

theorem Reader.Sound.valid_lt {x : Reader} (h : x.Sound) : x.valid < 2 ^ 64 := by
  obtain ⟨-, hvalid, hcap, -⟩ := h
  have hmax : Config.extMaxBytes = 2 ^ 61 - 1 := rfl
  omega

theorem State.WriterTakes.valid_lt {s : State} {u : Nat} (h : s.WriterTakes u) :
    (s.writer u).valid < 2 ^ 64 := by
  obtain ⟨-, -, -, hsound⟩ := h
  exact hsound.valid_lt

theorem State.WriterTakes.cur_lt {s : State} {u : Nat} (h : s.WriterTakes u) :
    (s.writer u).cur < 2 ^ 64 := by
  obtain ⟨-, -, -, hsound⟩ := h
  exact hsound.cur_lt

theorem State.ReaderTakes.valid_lt {s : State} {r : Nat} (h : s.ReaderTakes r) :
    (s.reader r).valid < 2 ^ 64 := by
  obtain ⟨-, -, -, hsound⟩ := h
  exact hsound.valid_lt

theorem ceil8_lt {n : Nat} (h : n < 2 ^ 64) : ceil8 n < 2 ^ 64 := by
  unfold ceil8
  omega

theorem toNat_ofNat_word {n : Nat} (h : n < 2 ^ 64) : (BitVec.ofNat 64 n).toNat = n := by
  rw [BitVec.toNat_ofNat, Nat.mod_eq_of_lt h]

/-! ### The copy and the dumps -/

theorem exec_wCopy_external {s : State} {u : Nat} (h : s.WriterTakes u)
    (he : (s.writer u).mode = .external) : exec (.wCopy u) s = .next (s.raise .illMode) := by
  show execWCopy u s = _
  unfold execWCopy
  rw [runWriter_granted s u _ h, State.writerView_unit, he]
  rfl

theorem exec_wCopy_owned {s : State} {u : Nat} (h : s.WriterTakes u)
    (ho : (s.writer u).mode = .owned) :
    exec (.wCopy u) s = .next (s.done (BitVec.ofNat 64 (ceil8 (s.writer u).valid))
      ((List.range (ceil8 (s.writer u).valid)).map (s.writerView u).byte)) := by
  show execWCopy u s = _
  refine runWriter_answer h ?_
  rw [State.writerView_unit, ho]

theorem dumpChar_eq_add (b : Bool) : dumpChar b = 0x30#8 + BitVec.ofNat 8 b.toNat := by
  cases b <;> rfl

/-- The dump of the first `n` bits of a storage (43 R186, 44 R211). -/
abbrev dumpBytes (f : Nat → Byte) (n : Nat) : List Byte := (bitsBetween f 0 n).map dumpChar

theorem getElem?_dumpBytes (f : Nat → Byte) {n i : Nat} (h : i < n) :
    (dumpBytes f n)[i]? = some (0x30#8 + BitVec.ofNat 8 (bitAt f i).toNat) := by
  rw [List.getElem?_map, getElem?_bitsBetween f 0 n i h, Nat.zero_add, Option.map_some,
    dumpChar_eq_add]

theorem exec_wDump_of_takes {s : State} {u : Nat} (h : s.WriterTakes u) :
    exec (.wDump u) s = .next (s.done (BitVec.ofNat 64 (s.writer u).valid)
      (dumpBytes (s.writerView u).byte (s.writer u).valid)) := by
  show execWDump u s = _
  exact runWriter_answer h rfl

theorem exec_rDump_of_takes {s : State} {r : Nat} (h : s.ReaderTakes r) :
    exec (.rDump r) s = .next (s.done (BitVec.ofNat 64 (s.reader r).valid)
      (dumpBytes (s.readerView r).byte (s.reader r).valid)) := by
  show execRDump r s = _
  exact runReader_answer h rfl

/-- A command that answers the dump of `n` bits and their number. -/
theorem answers_dump {s : State} {i : Instr} {f : Nat → Byte} {n : Nat} (hn : n < 2 ^ 64)
    (h : exec i s = .next (s.done (BitVec.ofNat 64 n) (dumpBytes f n))) :
    ∃ t, exec i s = .next t ∧ EndsOk s t t.res t.dout ∧ NothingStored s t ∧
      t.res.toNat = n ∧ t.dout.length = n ∧
      ∀ k, k < n → t.dout[k]? = some (0x30#8 + BitVec.ofNat 8 (bitAt f k).toNat) := by
  obtain ⟨hends, hstored⟩ := done_answer_spec s (BitVec.ofNat 64 n) (dumpBytes f n)
  exact ⟨_, h, hends, hstored, toNat_ofNat_word hn, by simp,
    fun k hk => getElem?_dumpBytes f hk⟩

end Sys2Proof.Machine
end

section
open Sys2Proof Sys2Proof.Machine

/-- Settles O38: both seeks store what `seekTarget` answers, whose three ranges exclude each other. -/
theorem seekMovesTheCursor : Obligations.SeekMovesTheCursor := by
  refine ⟨fun s u htakes => ⟨exec_wSeek_error htakes (seekTarget_invalid _ _ _), ?_⟩,
    fun s r htakes => ⟨exec_rSeek_error htakes (seekTarget_invalid _ _ _), ?_⟩⟩
  · intro org base hbase
    obtain ⟨hneg, hbeyond, hok⟩ :=
      seekTarget_of_originBase (a := s.pkt.a) ((originBase_eq_some_iff _ _ _ _).2 hbase)
    exact ⟨fun hlt => exec_wSeek_error htakes (hneg hlt),
      fun hgt => exec_wSeek_error htakes (hbeyond hgt),
      fun hge hle => ⟨_, exec_wSeek_ok htakes (hok hge hle), setWriter_done_spec _ htakes.1⟩⟩
  · intro org base hbase
    obtain ⟨hneg, hbeyond, hok⟩ :=
      seekTarget_of_originBase (a := s.pkt.a) ((originBase_eq_some_iff _ _ _ _).2 hbase)
    exact ⟨fun hlt => exec_rSeek_error htakes (hneg hlt),
      fun hgt => exec_rSeek_error htakes (hbeyond hgt),
      fun hge hle => ⟨_, exec_rSeek_ok htakes (hok hge hle), setReader_done_spec _ htakes.1⟩⟩

/-- Settles O39: each accessor hands back its view, and the numbers of a sound writer fit RES. -/
theorem writerAccessorsAnswer : Obligations.WriterAccessorsAnswer := by
  intro s u htakes
  have hvalid := htakes.valid_lt
  exact ⟨answers_number (exec_wTell_of_takes htakes) (toNat_ofNat_word htakes.cur_lt),
    answers_number (exec_wNbits_of_takes htakes) (toNat_ofNat_word hvalid),
    answers_number (exec_wNbytes_of_takes htakes) (toNat_ofNat_word (ceil8_lt hvalid)),
    answers_number (exec_wPtr_of_takes htakes) rfl⟩

/-- Settles O41: the mode alone decides; the copy lists the storage bytes in order. -/
theorem wCopyAnswersTheValidBytes : Obligations.WCopyAnswersTheValidBytes := by
  intro s u htakes
  refine ⟨exec_wCopy_external htakes, fun ho => ?_⟩
  obtain ⟨hends, hstored⟩ := done_answer_spec s (BitVec.ofNat 64 (ceil8 (s.writer u).valid))
    ((List.range (ceil8 (s.writer u).valid)).map (s.writerView u).byte)
  exact ⟨_, exec_wCopy_owned htakes ho, hends, hstored,
    toNat_ofNat_word (ceil8_lt htakes.valid_lt), by simp, fun k hk => by simp [hk]⟩

/-- Settles O42: both dumps are `dumpBytes` of the unit's storage up to VALID. -/
theorem dumpsAnswerOneCharacterPerBit : Obligations.DumpsAnswerOneCharacterPerBit := by
  refine ⟨fun s u htakes => ?_, fun s r htakes => ?_⟩
  · exact answers_dump htakes.valid_lt (exec_wDump_of_takes htakes)
  · exact answers_dump htakes.valid_lt (exec_rDump_of_takes htakes)

end

section
/-! SUPPORT. The field read (44 R200) and the two read commands built on it (44 R202, R203): the value of
a field, the sign extension of R.READS, and what each check of a read answers. -/
namespace Sys2Proof.Machine

/-! ### The field read -/

/-- One turn of ReadField: the 8 bits read follow the bits collected so far. -/
theorem toNat_shiftLeft_or_byte (acc : Word) (b : Byte) (h : acc.toNat * 2 ^ 8 < 2 ^ 64) :
    (acc <<< 8 ||| b.setWidth 64).toNat = acc.toNat * 2 ^ 8 + b.toNat := by
  have hb : b.toNat < 2 ^ 8 := b.isLt
  rw [BitVec.toNat_or, BitVec.toNat_shiftLeft, BitVec.toNat_setWidth, Nat.shiftLeft_eq,
    Nat.mod_eq_of_lt h, Nat.mod_eq_of_lt (by omega), ← Nat.shiftLeft_eq,
    ← Nat.shiftLeft_add_eq_or_of_lt hb]

/-- The whole bytes of ReadField continue the string collected since position `a`. -/
theorem toNat_readWholeBytes (q : Nat) : ∀ (v : ReaderView) (acc : Word) (a : Nat),
    a ≤ v.unit.cur → v.unit.cur + 8 * q ≤ a + 64 →
    acc.toNat = bitsVal (bitsBetween v.byte a v.unit.cur) →
    (readWholeBytes v acc q).1.toNat = bitsVal (bitsBetween v.byte a (v.unit.cur + 8 * q)) := by
  induction q with
  | zero => exact fun _ _ _ _ _ hacc => hacc
  | succ q ih =>
    intro v acc a hle hroom hacc
    have hshort : acc.toNat < 2 ^ 56 := by
      have hlt := bitsVal_lt (bitsBetween v.byte a v.unit.cur)
      rw [← hacc, length_bitsBetween] at hlt
      exact Nat.lt_of_lt_of_le hlt (Nat.pow_le_pow_right (by decide) (by omega))
    have hnext : (acc <<< 8 ||| (chunkAt v.byte v.unit.cur 8).setWidth 64).toNat =
        bitsVal (bitsBetween v.byte a (v.unit.cur + 8)) := by
      rw [toNat_shiftLeft_or_byte _ _ (by omega), toNat_chunkAt _ _ _ (Nat.le_refl 8), hacc,
        ← bitsBetween_append v.byte hle (Nat.le_add_right _ 8), bitsVal_append, length_bitsBetween,
        Nat.add_sub_cancel_left]
    have hrest := ih (v.advance 8) _ a (Nat.le_add_right_of_le hle)
      (by rw [ReaderView.advance_cur]; omega) hnext
    rw [ReaderView.advance_cur, ReaderView.byte_advance,
      show v.unit.cur + 8 + 8 * q = v.unit.cur + 8 * (q + 1) by omega] at hrest
    exact hrest

/-- ReadField answers the value of the bits from the cursor on (44 R200). -/
theorem toNat_readField (v : ReaderView) (n : Nat) (hn : n ≤ 64) :
    (readField v n).1.toNat = bitsVal (bitsBetween v.byte v.unit.cur (v.unit.cur + n)) := by
  unfold readField
  by_cases hlead : n % 8 > 0
  · simp only [hlead, if_true]
    have hacc : ((chunkAt v.byte v.unit.cur (n % 8)).setWidth 64).toNat =
        bitsVal (bitsBetween v.byte v.unit.cur (v.unit.cur + n % 8)) := by
      rw [BitVec.toNat_setWidth_of_le (by decide), toNat_chunkAt _ _ _ (by omega)]
    have hrest := toNat_readWholeBytes (n / 8) (v.advance (n % 8)) _ v.unit.cur
      (Nat.le_add_right _ _) (by rw [ReaderView.advance_cur]; omega) hacc
    rw [ReaderView.advance_cur, ReaderView.byte_advance,
      show v.unit.cur + n % 8 + 8 * (n / 8) = v.unit.cur + n by omega] at hrest
    exact hrest
  · simp only [hlead, if_false]
    have hnil : bitsBetween v.byte v.unit.cur v.unit.cur = [] :=
      List.eq_nil_of_length_eq_zero (by simp)
    have hbytes := toNat_readWholeBytes (n / 8) v 0 v.unit.cur (Nat.le_refl _) (by omega)
      (by rw [hnil]; rfl)
    rwa [show 8 * (n / 8) = n by omega] at hbytes

/-- A field of `n` bits is below 2^n. -/
theorem readField_lt (v : ReaderView) (n : Nat) (hn : n ≤ 64) : (readField v n).1.toNat < 2 ^ n := by
  have hlt := bitsVal_lt (bitsBetween v.byte v.unit.cur (v.unit.cur + n))
  rwa [length_bitsBetween, Nat.add_sub_cancel_left, ← toNat_readField v n hn] at hlt

/-- A storage that holds the low `n` bits of `a` at the cursor, the most significant first, reads as
`a mod 2^n`. -/
theorem toNat_readField_of_bits {v : ReaderView} {a : Word} {n : Nat} (hn : n ≤ 64)
    (h : ∀ j, j < n → bitAt v.byte (v.unit.cur + j) = a.getLsbD (n - 1 - j)) :
    (readField v n).1.toNat = a.toNat % 2 ^ n := by
  refine Nat.eq_of_testBit_eq fun j => ?_
  rw [toNat_readField v n hn, testBit_bitsVal_bitsBetween, Nat.testBit_mod_two_pow]
  by_cases hj : j < n
  · have hbit := h (n - 1 - j) (by omega)
    rw [show v.unit.cur + (n - 1 - j) = v.unit.cur + n - 1 - j by omega,
      show n - 1 - (n - 1 - j) = j by omega] at hbit
    rw [hbit, BitVec.testBit_toNat]
  · rw [decide_eq_false hj, Bool.false_and, Bool.false_and]

/-! ### Sign extension (44 R203, 00_scope R9) -/

theorem getLsbD_signFill (raw : Word) (n t j : Nat) :
    (signFill raw n t).getLsbD j =
      (raw.getLsbD j ||
        (raw.getLsbD (n - 1) && (decide (j < 64) && decide (j < t) && !decide (j < n)))) := by
  unfold signFill
  by_cases hsign : raw.getLsbD (n - 1) = true
  · rw [if_pos hsign, hsign, BitVec.getLsbD_or, BitVec.getLsbD_and, BitVec.getLsbD_not,
      getLsbD_mask, getLsbD_mask]
    by_cases hj : j < 64 <;> simp [hj]
  · rw [if_neg hsign, Bool.eq_false_iff.2 hsign, Bool.false_and, Bool.or_false]

theorem getLsbD_signExtend (v : Word) (t j : Nat) :
    (signExtend v t).getLsbD j =
      (v.getLsbD j || (v.getLsbD (t - 1) && (decide (j < 64) && !decide (j < t)))) := by
  unfold signExtend
  by_cases hsign : v.getLsbD (t - 1) = true
  · rw [if_pos hsign, hsign, BitVec.getLsbD_or, BitVec.getLsbD_not, getLsbD_mask]
    by_cases hj : j < 64 <;> simp [hj]
  · rw [if_neg hsign, Bool.eq_false_iff.2 hsign, Bool.false_and, Bool.or_false]

/-- RES of R.READS for the field read: extended from n to T bits, then from T to 64. -/
abbrev signedField (n t : Nat) (raw : Word) : Word := signExtend (signFill raw n t) t

/-- The two extensions of R.READS are one sign extension of the n-bit field. -/
theorem signedField_eq_signExtend {raw : Word} {n t : Nat} (hpos : 0 < n) (hnt : n ≤ t) (ht : t ≤ 64)
    (hraw : raw.toNat < 2 ^ n) : signedField n t raw = (raw.setWidth n).signExtend 64 := by
  have hhigh : ∀ j, n ≤ j → raw.getLsbD j = false := fun j =>
    getLsbD_eq_false_of_toNat_lt raw n j hraw
  have hmsb : (raw.setWidth n).msb = raw.getLsbD (n - 1) := by
    rw [BitVec.msb_eq_getLsbD_last, BitVec.getLsbD_setWidth, decide_eq_true (by omega),
      Bool.true_and]
  have hsign : (signFill raw n t).getLsbD (t - 1) = raw.getLsbD (n - 1) := by
    rw [getLsbD_signFill]
    by_cases heq : n = t
    · simp [heq, show t - 1 < t by omega]
    · rw [hhigh (t - 1) (by omega)]
      simp [show t - 1 < 64 by omega, show t - 1 < t by omega, show ¬t - 1 < n by omega]
  refine BitVec.eq_of_getLsbD_eq fun j hj => ?_
  rw [getLsbD_signExtend, hsign, getLsbD_signFill, BitVec.getLsbD_signExtend, hmsb,
    BitVec.getLsbD_setWidth]
  by_cases hfield : j < n
  · simp [hj, hfield, show j < t by omega]
  · rw [hhigh j (by omega)]
    by_cases hfill : j < t <;> simp [hj, hfield, hfill]

/-- The two's complement reading of an n-bit field (44 R203). -/
theorem toInt_signExtend_setWidth {raw : Word} {n : Nat} (hpos : 0 < n) (hn : n ≤ 64)
    (hraw : raw.toNat < 2 ^ n) :
    ((raw.setWidth n).signExtend 64).toInt =
      if raw.toNat < 2 ^ (n - 1) then (raw.toNat : Int) else (raw.toNat : Int) - 2 ^ n := by
  have hhalf : 2 ^ n = 2 * 2 ^ (n - 1) := (mul_pow_sub_one (Nat.ne_of_gt hpos) 2).symm
  rw [BitVec.toInt_signExtend_of_le hn, BitVec.toInt_eq_toNat_cond, BitVec.toNat_setWidth,
    Nat.mod_eq_of_lt hraw]
  by_cases hsmall : raw.toNat < 2 ^ (n - 1)
  · rw [if_pos hsmall, if_pos (by omega)]
  · rw [if_neg hsmall, if_neg (by omega), Nat.cast_pow, Nat.cast_ofNat]

/-! ### The read commands -/

/-- The rule R.READU and R.READS share: `g` makes RES of the field read. -/
abbrev readRule (n t : Nat) (g : Word → Word) (v : ReaderView) : ReaderEnd :=
  if n = 0 then answerReader v 0
  else
    match readCheck v n t with
    | some c => .error c
    | none => .done (readField v n).2.unit (g (readField v n).1) []

theorem exec_rReadu_eq_readRule (s : State) (r nb : Nat) (tw : TypeWidth) :
    exec (.rReadu r tw nb) s = runReader s r (readRule nb (typeBits tw) id) := rfl

theorem exec_rReads_eq_readRule (s : State) (r nb : Nat) (tw : TypeWidth) :
    exec (.rReads r tw nb) s =
      runReader s r (readRule nb (typeBits tw) (signedField nb (typeBits tw))) := rfl

/-- A command that puts `x` in the place of reader `r` and answers `res`. -/
theorem setReader_answer_spec {s : State} {r : Nat} (x : Reader) (res : Word) (hr : r < s.nr) :
    EndsOk s ((s.setReader r x).done res []) res [] ∧
    OnlyReaderChanged s ((s.setReader r x).done res []) r ∧
    ((s.setReader r x).done res []).xmem = s.xmem ∧
    ((s.setReader r x).done res []).reader r = x :=
  ⟨endsOk_done res [] rfl rfl rfl rfl rfl, onlyReaderChanged_setReader s r x, rfl,
    State.reader_setReader_self s r x hr⟩

section
variable {s : State} {r n t : Nat} {g : Word → Word}

theorem runReader_readRule_zero (h : s.ReaderTakes r) :
    runReader s r (readRule 0 t g) = .next (s.done 0 []) :=
  runReader_answer h rfl

theorem runReader_readRule_error {c : Cause} (h : s.ReaderTakes r) (hpos : 0 < n)
    (hcheck : readCheck (s.readerView r) n t = some c) :
    runReader s r (readRule n t g) = .next (s.raise c) := by
  rw [runReader_granted s r _ h, readRule, if_neg (Nat.ne_of_gt hpos), hcheck]
  rfl

theorem runReader_readRule_ok (h : s.ReaderTakes r) (hpos : 0 < n)
    (hcheck : readCheck (s.readerView r) n t = none) :
    runReader s r (readRule n t g) =
      .next ((s.setReader r { s.reader r with cur := (s.reader r).cur + n }).done
        (g (readField (s.readerView r) n).1) []) := by
  rw [runReader_granted s r _ h, readRule, if_neg (Nat.ne_of_gt hpos), hcheck]
  dsimp only
  rw [readField_view]
  rfl

/-- The checks of a read in their order, and its whole effect (44 R202, R203). -/
theorem runReader_readRule_spec (h : s.ReaderTakes r) :
    (n = 0 → ∃ s', runReader s r (readRule n t g) = .next s' ∧ EndsOk s s' 0 [] ∧
      NothingStored s s') ∧
    (0 < n → n > (s.reader r).valid - (s.reader r).cur →
      runReader s r (readRule n t g) = .next (s.raise .readNobits)) ∧
    (0 < n → n ≤ (s.reader r).valid - (s.reader r).cur → n > t →
      runReader s r (readRule n t g) = .next (s.raise .readWidth)) ∧
    (0 < n → n ≤ (s.reader r).valid - (s.reader r).cur → n ≤ t →
      ∃ s', runReader s r (readRule n t g) = .next s' ∧ EndsOk s s' s'.res [] ∧
        s'.res = g (readField (s.readerView r) n).1 ∧ OnlyReaderChanged s s' r ∧
        s'.xmem = s.xmem ∧ s'.reader r = { s.reader r with cur := (s.reader r).cur + n }) := by
  refine ⟨?_, fun hpos hfew => ?_, fun hpos hleft hwide => ?_, fun hpos hleft hwidth => ?_⟩
  · rintro rfl
    exact ⟨_, runReader_readRule_zero h, done_answer_spec s 0 []⟩
  · exact runReader_readRule_error h hpos (if_pos hfew)
  · refine runReader_readRule_error h hpos ?_
    rw [readCheck, State.readerView_unit, if_neg (Nat.not_lt.2 hleft), if_pos hwide]
  · have hcheck : readCheck (s.readerView r) n t = none := by
      rw [readCheck, State.readerView_unit, if_neg (Nat.not_lt.2 hleft), if_neg (Nat.not_lt.2 hwidth)]
    obtain ⟨hends, hframe⟩ := setReader_answer_spec
      { s.reader r with cur := (s.reader r).cur + n } (g (readField (s.readerView r) n).1) h.1
    exact ⟨_, runReader_readRule_ok h hpos hcheck, hends, rfl, hframe⟩

end

/-! ### The reader accessors -/

section
variable {s : State} {r : Nat}

theorem exec_rTell_of_takes (h : s.ReaderTakes r) :
    exec (.rTell r) s = .next (s.done (BitVec.ofNat 64 (s.reader r).cur) []) := by
  show execRTell r s = _
  exact runReader_answer h rfl

theorem exec_rLeft_of_takes (h : s.ReaderTakes r) :
    exec (.rLeft r) s =
      .next (s.done (BitVec.ofNat 64 ((s.reader r).valid - (s.reader r).cur)) []) := by
  show execRLeft r s = _
  exact runReader_answer h rfl

theorem exec_rNbits_of_takes (h : s.ReaderTakes r) :
    exec (.rNbits r) s = .next (s.done (BitVec.ofNat 64 (s.reader r).valid) []) := by
  show execRNbits r s = _
  exact runReader_answer h rfl

theorem exec_rNbytes_of_takes (h : s.ReaderTakes r) :
    exec (.rNbytes r) s = .next (s.done (BitVec.ofNat 64 (ceil8 (s.reader r).valid)) []) := by
  show execRNbytes r s = _
  exact runReader_answer h rfl

theorem exec_rEof_of_takes (h : s.ReaderTakes r) :
    exec (.rEof r) s = .next (s.done
      (BitVec.ofNat 64 (if (s.reader r).cur = (s.reader r).valid then 1 else 0)) []) := by
  show execREof r s = _
  exact runReader_answer h rfl

theorem exec_rPtr_of_takes (h : s.ReaderTakes r) :
    exec (.rPtr r) s = .next (s.done (s.reader r).base []) := by
  show execRPtr r s = _
  exact runReader_answer h rfl

theorem State.ReaderTakes.cur_lt (h : s.ReaderTakes r) : (s.reader r).cur < 2 ^ 64 := by
  obtain ⟨-, -, -, hsound⟩ := h
  exact Nat.lt_of_le_of_lt hsound.1 hsound.valid_lt

end

/-! ### A field written, then read (44 R201) -/

/-- A W.WRITE that ends with OK left the low bits of A at the cursor it started from (41 R141). -/
theorem wbit_of_wWrite_ok {s t : State} {u nb : Nat} {tw : TypeWidth} (hnb : nb ≤ typeBits tw)
    (h : exec (.wWrite u tw nb) s = .next t) (hok : t.status = .ok) (j : Nat) (hj : j < nb) :
    t.wbit u ((s.writer u).cur + j) = s.pkt.a.getLsbD (nb - 1 - j) := by
  have htakes : s.WriterTakes u := writerTakes_of_ok (show execWWrite u tw nb s = _ from h) hok
  obtain ⟨-, hexternal, howned, hdone⟩ := wWriteWritesTheLowBits s u tw nb htakes
  have hcap : CapacityFor s u ((s.writer u).cur + nb) :=
    ⟨fun he => Nat.not_lt.1 fun hfull =>
      status_ne_ok_of_raise (hexternal hnb he hfull) (by decide) h hok,
    fun ho => Nat.not_lt.1 fun hfull =>
      status_ne_ok_of_raise (howned hnb ho hfull) (by decide) h hok⟩
  obtain ⟨t', hexec, -, -, -, hbits, -⟩ := hdone hnb hcap
  rw [hexec] at h
  cases h
  exact hbits j hj

end Sys2Proof.Machine
end

section
open Sys2Proof Sys2Proof.Machine

/-- Settles O20: the chunks of a field read follow one another in the value as in the storage. -/
theorem readFieldReadsTheField : Obligations.ReadFieldReadsTheField :=
  fun v n _ hn => ⟨toNat_readField v n hn, readField_view v n⟩

/-- Settles O43: RES is the field read itself. -/
theorem rReaduReadsUnsigned : Obligations.RReaduReadsUnsigned := by
  intro s r tw nb htakes x
  rw [exec_rReadu_eq_readRule]
  obtain ⟨hzero, hnobits, hwide, hread⟩ := runReader_readRule_spec htakes (n := nb) (g := id)
  refine ⟨hzero, hnobits, hwide, fun hpos hleft hwidth => ?_⟩
  have hn : nb ≤ 64 := Nat.le_trans hwidth (typeBits_le tw)
  obtain ⟨t, hexec, hends, hres, hframe⟩ := hread hpos hleft hwidth
  rw [id_eq] at hres
  exact ⟨t, hexec, hends, by rw [hres]; exact toNat_readField _ nb hn,
    by rw [hres]; exact readField_lt _ nb hn, hframe⟩

/-- Settles O44: RES is the field read, sign-extended from its own width to 64 bits. -/
theorem rReadsReadsSigned : Obligations.RReadsReadsSigned := by
  intro s r tw nb htakes x
  rw [exec_rReads_eq_readRule]
  obtain ⟨hzero, hnobits, hwide, hread⟩ :=
    runReader_readRule_spec htakes (g := signedField nb (typeBits tw))
  refine ⟨hzero, hnobits, hwide, fun hpos hleft hwidth => ?_⟩
  have hn : nb ≤ 64 := Nat.le_trans hwidth (typeBits_le tw)
  have hlt := readField_lt (s.readerView r) nb hn
  obtain ⟨t, hexec, hends, hres, hframe⟩ := hread hpos hleft hwidth
  refine ⟨t, hexec, hends, ?_, hframe⟩
  rw [hres, signedField_eq_signExtend hpos hwidth (typeBits_le tw) hlt,
    toInt_signExtend_setWidth hpos hn hlt, toNat_readField _ nb hn]
  rfl

/-- Settles O45: the reader's bits under the field are the writer's, and those are the low bits of A. -/
theorem writeThenReadRoundTrips : Obligations.WriteThenReadRoundTrips := by
  intro s t s' u r tw nb hnb hwrite hok htakes hcur hvalid hbytes
  have hn : nb ≤ 64 := Nat.le_trans hnb (typeBits_le tw)
  have hleft : nb ≤ (s'.reader r).valid - (s'.reader r).cur := by omega
  have hbits : ∀ j, j < nb →
      bitAt (s'.readerView r).byte ((s'.reader r).cur + j) = s.pkt.a.getLsbD (nb - 1 - j) := by
    intro j hj
    rw [hcur, ← wbit_of_wWrite_ok hnb hwrite hok j hj]
    exact bitAt_congr (hbytes _ (by omega) (by omega))
  have hfield : (readField (s'.readerView r) nb).1.toNat = s.pkt.a.toNat % 2 ^ nb :=
    toNat_readField_of_bits hn hbits
  rw [exec_rReadu_eq_readRule, exec_rReads_eq_readRule]
  constructor
  · obtain ⟨hzero, -, -, hread⟩ := runReader_readRule_spec htakes (n := nb) (g := id)
    rcases Nat.eq_zero_or_pos nb with rfl | hpos
    · obtain ⟨t', hexec, ⟨⟨hstatus, -, hres, -⟩, -⟩, -⟩ := hzero rfl
      exact ⟨t', hexec, hstatus, by rw [hres, Nat.pow_zero, Nat.mod_one]; rfl⟩
    · obtain ⟨t', hexec, ⟨⟨hstatus, -⟩, -⟩, hres, -⟩ := hread hpos hleft hnb
      exact ⟨t', hexec, hstatus, by rw [hres]; exact hfield⟩
  · intro hpos
    obtain ⟨-, -, -, hread⟩ := runReader_readRule_spec htakes (g := signedField nb (typeBits tw))
    obtain ⟨t', hexec, ⟨⟨hstatus, -⟩, -⟩, hres, -⟩ := hread hpos hleft hnb
    refine ⟨t', hexec, hstatus, ?_⟩
    have hlow : (readField (s'.readerView r) nb).1.setWidth nb = s.pkt.a.setWidth nb := by
      refine BitVec.eq_of_toNat_eq ?_
      rw [BitVec.toNat_setWidth, BitVec.toNat_setWidth, hfield, Nat.mod_mod]
    rw [hres, signedField_eq_signExtend hpos hnb (typeBits_le tw) (readField_lt _ nb hn), hlow]

/-- Settles O40: each accessor hands back its unit, and the numbers of a sound reader fit RES. -/
theorem readerAccessorsAnswer : Obligations.ReaderAccessorsAnswer := by
  intro s r htakes
  have hvalid := htakes.valid_lt
  have heof : (if (s.reader r).cur = (s.reader r).valid then 1 else 0) < 2 ^ 64 := by
    split <;> decide
  exact ⟨answers_number (exec_rTell_of_takes htakes) (toNat_ofNat_word htakes.cur_lt),
    answers_number (exec_rLeft_of_takes htakes)
      (toNat_ofNat_word (Nat.lt_of_le_of_lt (Nat.sub_le _ _) hvalid)),
    answers_number (exec_rNbits_of_takes htakes) (toNat_ofNat_word hvalid),
    answers_number (exec_rNbytes_of_takes htakes) (toNat_ofNat_word (ceil8_lt hvalid)),
    answers_number (exec_rEof_of_takes htakes) (toNat_ofNat_word heof),
    answers_number (exec_rPtr_of_takes htakes) rfl⟩

end

section
/-! SUPPORT. Which cause a command can end with (60_exceptions R233): one theorem over all 32 commands that
refines what they can leave by the cause raised, and by the one fault, that of W.RESIZE (R241). -/
namespace Sys2Proof.Machine

/-! ### How a command ends, by its cause -/

/-- The rule of the command raises `c` as an error. The cause of the fault is in R233's table too, but is
never raised as an error (60_exceptions R241). -/
def Instr.Raises (i : Instr) (c : Cause) : Prop := c ∈ ownCauses i ∧ c ≠ .resizeExtCapacity

/-- The command resizes an EXTERNAL writer beyond its capacity (42 R166). -/
structure Instr.Overflows (i : Instr) (s : State) : Prop where
  resize : i = .wResize i.unitIndex
  mode : (s.writer i.unitIndex).mode = .external
  full : s.pkt.a.toNat > 8 * (s.writer i.unitIndex).cap

/-- How the rule of a writer command `i` ends, by its cause. -/
inductive WriterEnd.Caused (i : Instr) (s : State) : WriterEnd → Prop
  | done {v : WriterView} {r : Word} {d : List Byte} : Caused i s (.done v r d)
  | error {c : Cause} (h : Instr.Raises i c) : Caused i s (.error c)
  | faulted (h : Instr.Overflows i s) : Caused i s (.faulted .resizeExtCapacity)

/-- How the rule of a reader command `i` ends, by its cause. -/
inductive ReaderEnd.Caused (i : Instr) : ReaderEnd → Prop
  | done {x : Reader} {r : Word} {d : List Byte} : Caused i (.done x r d)
  | error {c : Cause} (h : Instr.Raises i c) : Caused i (.error c)

/-- The states a command `i` can end in, by the cause of the end (60_exceptions R230, R233, R241). -/
inductive Caused (i : Instr) (s : State) : State → Prop
  | ok {t : State} (hstatus : t.status = .ok) (hcause : t.cause = .noCause) : Caused i s t
  | refused {c : Cause} (h : c ∈ decodeCauses i) : Caused i s (s.raise c)
  | error {c : Cause} (h : Instr.Raises i c) : Caused i s (s.raise c)
  | faulted (hu : i.unitIndex < s.nw) (h : Instr.Overflows i s) :
      Caused i s (s.raiseFault i.unitIndex .resizeExtCapacity)

/-! ### From the rules to the states -/

theorem mem_decodeCauses_writer {i : Instr} {c : Cause} (hi : i.namesWriter = true)
    (h : c ∈ [Cause.illUnit, .illPayload, .unitFaulted, .illState]) : c ∈ decodeCauses i := by
  simp only [List.mem_cons, List.not_mem_nil, or_false] at h
  rcases h with rfl | rfl | rfl | rfl <;> simp [decodeCauses, hi]

theorem mem_decodeCauses_reader {i : Instr} {c : Cause}
    (h : c ∈ [Cause.illUnit, .illPayload, .illState]) : c ∈ decodeCauses i :=
  List.mem_append_left _ h

theorem runWriterWith_caused {i : Instr} {u : Nat} {s t : State} {p : Bool}
    {rule : WriterView → WriterEnd} (h : runWriterWith s u p rule = .next t)
    (hi : i.namesWriter = true) (hu : i.unitIndex = u)
    (hrule : (s.writer u).Sound s.ownMax → (rule (s.writerView u)).Caused i s) : Caused i s t := by
  subst hu
  rcases runWriterWith_next _ _ _ _ _ h with ⟨c, hc, -, rfl⟩ | ⟨hu, -, -, hsound, hend⟩
  · exact .refused (mem_decodeCauses_writer hi hc)
  · have hlaw := hrule hsound
    rcases hend with ⟨v, r, d, -, rfl⟩ | ⟨c, he, rfl⟩ | ⟨c, he, rfl⟩
    · exact .ok rfl rfl
    · rw [he] at hlaw
      cases hlaw with
      | error hc => exact .error hc
    · rw [he] at hlaw
      cases hlaw with
      | faulted hover => exact .faulted hu hover

theorem runWriter_caused {i : Instr} {u : Nat} {s t : State} {rule : WriterView → WriterEnd}
    (h : runWriter s u rule = .next t) (hi : i.namesWriter = true) (hu : i.unitIndex = u)
    (hrule : (s.writer u).Sound s.ownMax → (rule (s.writerView u)).Caused i s) : Caused i s t :=
  runWriterWith_caused h hi hu hrule

theorem runReader_caused {i : Instr} {u : Nat} {s t : State} {rule : ReaderView → ReaderEnd}
    (h : runReader s u rule = .next t) (hrule : (rule (s.readerView u)).Caused i) : Caused i s t := by
  rcases runReader_next _ _ _ _ h with ⟨c, hc, -, rfl⟩ | ⟨-, ⟨x, r, d, -, rfl⟩ | ⟨c, he, rfl⟩⟩
  · exact .refused (mem_decodeCauses_reader hc)
  · exact .ok rfl rfl
  · rw [he] at hrule
    cases hrule with
    | error hc => exact .error hc

theorem bindWriter_caused {i : Instr} {u : Nat} {s t : State} {made : Except Cause Writer}
    (h : bindWriter s u made = .next t) (hi : i.namesWriter = true)
    (hmade : ∀ c, made = .error c → Instr.Raises i c) : Caused i s t := by
  rcases bindWriter_cases s u made with
    ⟨c, hc, -, e⟩ | ⟨-, ⟨c, hc, e⟩ | ⟨x, -, e⟩⟩ <;> rw [e] at h <;> cases h
  · exact .refused (mem_decodeCauses_writer hi hc)
  · exact .error (hmade c hc)
  · exact .ok rfl rfl

theorem bindReader_caused {i : Instr} {u : Nat} {s t : State} {made : Except Cause Reader}
    (h : bindReader s u made = .next t) (hmade : ∀ c, made = .error c → Instr.Raises i c) :
    Caused i s t := by
  rcases bindReader_cases s u made with
    ⟨c, hc, -, e⟩ | ⟨-, ⟨c, hc, e⟩ | ⟨x, -, e⟩⟩ <;> rw [e] at h <;> cases h
  · exact .refused (mem_decodeCauses_reader hc)
  · exact .error (hmade c hc)
  · exact .ok rfl rfl

/-! ### The causes of the shared checks -/

theorem raises_of_ensureCap {i : Instr} {own need : Nat} {cause c : Cause} {v : WriterView}
    (h : ensureCap own v need cause = .error c) (hcause : Instr.Raises i cause)
    (hgrow : Instr.Raises i .nomemGrow) : Instr.Raises i c := by
  rcases ensureCap_cases own v need cause with
    ⟨-, -, e⟩ | ⟨-, -, e⟩ | ⟨-, -, e⟩ | ⟨-, -, e⟩ <;> rw [e] at h <;> cases h
  · exact hcause
  · exact hgrow

theorem raises_of_regionValid {i : Instr} {base : Word} {len nvalid : Nat} {c : Cause}
    (h : regionValid base len nvalid = .error c)
    (hi : ownCauses i = [.cfgNvalid, .cfgLength, .cfgWrap]) : Instr.Raises i c := by
  rcases regionValid_cases base len nvalid with
    ⟨-, e⟩ | ⟨-, -, e⟩ | ⟨-, -, -, e⟩ | ⟨-, -, -, e⟩ <;> rw [e] at h <;> cases h <;>
    simp [Instr.Raises, hi]

theorem raises_of_seekTarget {i : Instr} {org : Origin} {a : Word} {valid cur : Nat} {c : Cause}
    (h : seekTarget org a valid cur = .error c)
    (hi : ownCauses i = [.seekNegative, .seekBeyond, .seekOrigin]) : Instr.Raises i c := by
  rcases seekTarget_cases org a valid cur with
    ⟨-, e⟩ | ⟨base, -, ⟨-, e⟩ | ⟨-, -, e⟩ | ⟨-, -, e⟩⟩ <;> rw [e] at h <;> cases h <;>
    simp [Instr.Raises, hi]

theorem raises_of_readCheck {i : Instr} {v : ReaderView} {n t : Nat} {c : Cause}
    (h : readCheck v n t = some c) (hi : ownCauses i = [.readNobits, .readWidth]) :
    Instr.Raises i c := by
  unfold readCheck at h
  split at h
  · cases h; simp [Instr.Raises, hi]
  · split at h <;> cases h
    simp [Instr.Raises, hi]

/-- A length that passes the check of W.RESIZE is one the storage can hold (42 R166). -/
theorem capacityFor_of_resizeCheck {s : State} {u len : Nat}
    (h : resizeCheck s.ownMax (s.writerView u) len = none) : CapacityFor s u len := by
  obtain ⟨hexternal, howned⟩ := resizeCheck_of_full s.ownMax (s.writerView u) len
  refine ⟨fun he => Nat.not_lt.1 fun hfull => ?_, fun ho => Nat.not_lt.1 fun hfull => ?_⟩
  · rw [hexternal he hfull] at h; cases h
  · rw [howned ho hfull] at h; cases h

/-! ### The construction commands (40) -/

theorem execWInito_caused {u : Nat} {s t : State} (h : execWInito u s = .next t) :
    Caused (.wInito u) s t := by
  refine bindWriter_caused h rfl fun c hc => ?_
  split at hc <;> cases hc
  simp [Instr.Raises, ownCauses]

theorem execWAttach_caused {u : Nat} {s t : State} (h : execWAttach u s = .next t) :
    Caused (.wAttach u) s t := by
  refine bindWriter_caused h rfl fun c hc => ?_
  split at hc <;> cases hc
  next hregion => exact raises_of_regionValid hregion rfl

theorem execRAttach_caused {u : Nat} {s t : State} (h : execRAttach u s = .next t) :
    Caused (.rAttach u) s t := by
  refine bindReader_caused h fun c hc => ?_
  split at hc <;> cases hc
  next hregion => exact raises_of_regionValid hregion rfl

theorem execRAttache_caused {u : Nat} {s t : State} (h : execRAttache u s = .next t) :
    Caused (.rAttache u) s t := by
  refine bindReader_caused h fun c hc => ?_
  split at hc
  · cases hc; simp [Instr.Raises, ownCauses]
  · dsimp only at hc
    split at hc <;> cases hc
    simp [Instr.Raises, ownCauses]

theorem execRAttachp_caused {u : Nat} {s t : State} (h : execRAttachp u s = .next t) :
    Caused (.rAttachp u) s t := by
  refine bindReader_caused h fun c hc => ?_
  split at hc
  · cases hc; simp [Instr.Raises, ownCauses]
  · dsimp only at hc
    split at hc
    · cases hc; simp [Instr.Raises, ownCauses]
    · split at hc <;> cases hc
      simp [Instr.Raises, ownCauses]

/-! ### The reader commands (44) -/

/-- The two reads raise the same causes (44 R202, R203). -/
theorem readRule_caused {i : Instr} {n t : Nat} {g : Word → Word} (v : ReaderView)
    (hi : ownCauses i = [.readNobits, .readWidth]) : (readRule n t g v).Caused i := by
  unfold readRule
  split
  · exact .done
  · split
    · next hcheck => exact .error (raises_of_readCheck hcheck hi)
    · exact .done

theorem execRSeek_caused {u : Nat} {org : Origin} {s t : State} (h : execRSeek u org s = .next t) :
    Caused (.rSeek u org) s t := by
  refine runReader_caused h ?_
  split
  · next hseek => exact .error (raises_of_seekTarget hseek rfl)
  · exact .done

/-! ### The writer commands (41 to 43) -/

theorem execWSeek_caused {u : Nat} {org : Origin} {s t : State} (h : execWSeek u org s = .next t) :
    Caused (.wSeek u org) s t := by
  refine runWriter_caused h rfl rfl fun _ => ?_
  split
  · next hseek => exact .error (raises_of_seekTarget hseek rfl)
  · exact .done

theorem execWCopy_caused {u : Nat} {s t : State} (h : execWCopy u s = .next t) :
    Caused (.wCopy u) s t := by
  refine runWriter_caused h rfl rfl fun _ => ?_
  split
  · exact .error (by simp [Instr.Raises, ownCauses])
  · exact .done

theorem execWReserve_caused {u : Nat} {s t : State} (h : execWReserve u s = .next t) :
    Caused (.wReserve u) s t := by
  refine runWriter_caused h rfl rfl fun _ => ?_
  split
  · exact .error (by simp [Instr.Raises, ownCauses])
  · split
    · exact .error (by simp [Instr.Raises, ownCauses])
    · exact .done

theorem execWWrite_caused {u nb : Nat} {tw : TypeWidth} {s t : State}
    (h : execWWrite u tw nb s = .next t) : Caused (.wWrite u tw nb) s t := by
  refine runWriter_caused h rfl rfl fun _ => ?_
  split
  · exact .error (by simp [Instr.Raises, ownCauses])
  · split
    · next hcap =>
      exact .error (raises_of_ensureCap hcap (by simp [Instr.Raises, ownCauses])
        (by simp [Instr.Raises, ownCauses]))
    · exact .done

theorem execWWbit_caused {u : Nat} {s t : State} (h : execWWbit u s = .next t) :
    Caused (.wWbit u) s t := by
  refine runWriter_caused h rfl rfl fun _ => ?_
  split
  · next hcap =>
    exact .error (raises_of_ensureCap hcap (by simp [Instr.Raises, ownCauses])
      (by simp [Instr.Raises, ownCauses]))
  · exact .done

theorem execWAppend_caused {u : Nat} {s t : State} (h : execWAppend u s = .next t) :
    Caused (.wAppend u) s t := by
  refine runWriterWith_caused h rfl rfl fun _ => ?_
  split
  · next hcap =>
    exact .error (raises_of_ensureCap hcap (by simp [Instr.Raises, ownCauses])
      (by simp [Instr.Raises, ownCauses]))
  · exact .done

theorem execWInsert_caused {u nb : Nat} {tw : TypeWidth} {s t : State}
    (h : execWInsert u tw nb s = .next t) : Caused (.wInsert u tw nb) s t := by
  have hfull : Instr.Raises (.wInsert u tw nb) .insertCapacity := by simp [Instr.Raises, ownCauses]
  have hgrow : Instr.Raises (.wInsert u tw nb) .nomemGrow := by simp [Instr.Raises, ownCauses]
  refine runWriter_caused h rfl rfl fun _ => ?_
  dsimp only
  split
  · exact .error (by simp [Instr.Raises, ownCauses])
  · split
    · exact .error (by simp [Instr.Raises, ownCauses])
    · split
      · next hcheck => exact .error (raises_of_ensureCap (checkCap_some hcheck) hfull hgrow)
      · split
        · exact .done
        · split
          · next hcap => exact .error (raises_of_ensureCap hcap hfull hgrow)
          · exact .done

/-- The content without the erased range fits the storage, so only the range can be wrong (42 R165). -/
theorem execWErase_caused {u : Nat} {s t : State} (h : execWErase u s = .next t) :
    Caused (.wErase u) s t := by
  refine runWriter_caused h rfl rfl fun hsound => ?_
  dsimp only
  split
  · exact .error (by simp [Instr.Raises, ownCauses])
  · split
    · exact .done
    · obtain ⟨v, hok, -⟩ := ensureCap_of_keepsBinding .eraseRange
        (capacityFor_of_le_valid hsound (Nat.sub_le (s.writer u).valid s.pkt.b.toNat))
        (keepsBinding_truncateTo (s.writerView u) s.pkt.a.toNat)
      rw [State.writerView_unit, hok]
      exact .done

theorem resizeCheck_caused {u : Nat} {s : State} {e : WriterEnd}
    (h : resizeCheck s.ownMax (s.writerView u) s.pkt.a.toNat = some e) : e.Caused (.wResize u) s := by
  unfold resizeCheck at h
  split at h
  · next he =>
    split at h <;> cases h
    next hfull => exact .faulted ⟨rfl, he, hfull⟩
  · split at h <;> cases h
    exact .error (by simp [Instr.Raises, ownCauses])

/-- After the check of W.RESIZE no growth can fail, so beyond the capacity it faults and raises no error
(42 R166). -/
theorem execWResize_caused {u : Nat} {s t : State} (h : execWResize u s = .next t) :
    Caused (.wResize u) s t := by
  refine runWriter_caused h rfl rfl fun _ => ?_
  dsimp only
  split
  · next hcheck => exact resizeCheck_caused hcheck
  · next hcheck =>
    obtain ⟨v, hok, -⟩ :=
      ensureCap_of_capacityFor .resizeExtCapacity (capacityFor_of_resizeCheck hcheck)
    rw [hok]
    split <;> exact .done

/-- A writer command whose rule has no check ends with OK once it is taken. -/
theorem writerDone_caused {i : Instr} {u : Nat} {s t : State} {f : WriterView → WriterView}
    {r : WriterView → Word} {d : WriterView → List Byte}
    (h : runWriter s u (fun v => .done (f v) (r v) (d v)) = .next t) (hi : i.namesWriter = true)
    (hu : i.unitIndex = u) : Caused i s t :=
  runWriter_caused h hi hu fun _ => .done

/-- A reader command whose rule has no check ends with OK once it is taken. -/
theorem readerDone_caused {i : Instr} {u : Nat} {s t : State} {f : ReaderView → Reader}
    {r : ReaderView → Word} {d : ReaderView → List Byte}
    (h : runReader s u (fun v => .done (f v) (r v) (d v)) = .next t) : Caused i s t :=
  runReader_caused h .done

/-- The cause every command ends with, over all 32 commands. -/
theorem exec_caused {i : Instr} {s t : State} (h : exec i s = .next t) : Caused i s t := by
  cases i with
  | wInito u => exact execWInito_caused h
  | wAttach u => exact execWAttach_caused h
  | wFree u => exact writerDone_caused (show execWFree u s = _ from h) rfl rfl
  | wWrite u tw nb => exact execWWrite_caused h
  | wWbit u => exact execWWbit_caused h
  | wAppend u => exact execWAppend_caused h
  | wInsert u tw nb => exact execWInsert_caused h
  | wErase u => exact execWErase_caused h
  | wResize u => exact execWResize_caused h
  | wSeek u org => exact execWSeek_caused h
  | wAlign u => exact writerDone_caused (show execWAlign u s = _ from h) rfl rfl
  | wReserve u => exact execWReserve_caused h
  | wTell u => exact writerDone_caused (show execWTell u s = _ from h) rfl rfl
  | wNbits u => exact writerDone_caused (show execWNbits u s = _ from h) rfl rfl
  | wNbytes u => exact writerDone_caused (show execWNbytes u s = _ from h) rfl rfl
  | wPtr u => exact writerDone_caused (show execWPtr u s = _ from h) rfl rfl
  | wCopy u => exact execWCopy_caused h
  | wDump u => exact writerDone_caused (show execWDump u s = _ from h) rfl rfl
  | rAttach u => exact execRAttach_caused h
  | rAttache u => exact execRAttache_caused h
  | rAttachp u => exact execRAttachp_caused h
  | rFree u => exact readerDone_caused (show execRFree u s = _ from h)
  | rReadu u tw nb =>
    rw [exec_rReadu_eq_readRule] at h
    exact runReader_caused h (readRule_caused _ rfl)
  | rReads u tw nb =>
    rw [exec_rReads_eq_readRule] at h
    exact runReader_caused h (readRule_caused _ rfl)
  | rSeek u org => exact execRSeek_caused h
  | rTell u => exact readerDone_caused (show execRTell u s = _ from h)
  | rLeft u => exact readerDone_caused (show execRLeft u s = _ from h)
  | rNbits u => exact readerDone_caused (show execRNbits u s = _ from h)
  | rNbytes u => exact readerDone_caused (show execRNbytes u s = _ from h)
  | rEof u => exact readerDone_caused (show execREof u s = _ from h)
  | rPtr u => exact readerDone_caused (show execRPtr u s = _ from h)
  | rDump u => exact readerDone_caused (show execRDump u s = _ from h)

/-! ### What follows from the cause -/

theorem Cause.status_eq_ok_iff (c : Cause) : c.status = .ok ↔ c = .noCause := by
  cases c <;> simp [Cause.status]

/-- No error has the status of the fault (60_exceptions R231, R232). -/
theorem Cause.status_eq_resizeFault_iff (c : Cause) :
    c.status = .resizeFault ↔ c = .resizeExtCapacity := by
  cases c <;> simp [Cause.status]

theorem resizeExtCapacity_notMem_decodeCauses (i : Instr) :
    Cause.resizeExtCapacity ∉ decodeCauses i := by
  unfold decodeCauses
  split <;> decide

/-- The cause is none, one of the decode checks or one of the table's (60_exceptions R233). -/
theorem Caused.cause_mem {i : Instr} {s t : State} (h : Caused i s t) :
    t.cause = .noCause ∨ t.cause ∈ decodeCauses i ∨ t.cause ∈ ownCauses i := by
  cases h with
  | ok _ hcause => exact .inl hcause
  | refused hc => exact .inr (.inl hc)
  | error hc => exact .inr (.inr hc.1)
  | faulted _ hover =>
    rw [hover.resize]
    exact .inr (.inr (List.mem_cons_self ..))

/-- A command that ends with neither OK nor the fault has raised an error (60_exceptions R230). -/
theorem Caused.eq_raise {i : Instr} {s t : State} (h : Caused i s t) (hok : t.status ≠ .ok)
    (hfault : t.status ≠ .resizeFault) : ∃ c, t = s.raise c := by
  cases h with
  | ok hstatus _ => exact absurd hstatus hok
  | refused _ => exact ⟨_, rfl⟩
  | error _ => exact ⟨_, rfl⟩
  | faulted _ _ => exact absurd rfl hfault

/-- A command that ends with the fault resized an EXTERNAL writer beyond its capacity (60_exceptions
R241). -/
theorem Caused.eq_raiseFault {i : Instr} {s t : State} (h : Caused i s t)
    (hfault : t.status = .resizeFault) :
    i.unitIndex < s.nw ∧ Instr.Overflows i s ∧
      t = s.raiseFault i.unitIndex .resizeExtCapacity := by
  cases h with
  | ok hstatus _ => rw [hfault] at hstatus; cases hstatus
  | @refused c hc =>
    rw [(Cause.status_eq_resizeFault_iff c).1 hfault] at hc
    exact absurd hc (resizeExtCapacity_notMem_decodeCauses i)
  | @error c hc => exact absurd ((Cause.status_eq_resizeFault_iff c).1 hfault) hc.2
  | faulted hu hover => exact ⟨hu, hover, rfl⟩

end Sys2Proof.Machine
end

section
/-! SUPPORT. A FAULTED writer (60_exceptions R241): no command is taken by it, and no step but a reset
changes it. -/
namespace Sys2Proof.Machine

/-- A command that names a FAULTED writer is refused, by one check or another. -/
theorem exec_eq_raise_of_faulted {i : Instr} {s t : State} (hi : i.namesWriter = true)
    (hf : (s.writer i.unitIndex).st = .faulted) (h : exec i s = .next t) : ∃ c, t = s.raise c := by
  rcases exec_shape i s with ⟨-, -, rule, e⟩ | ⟨hr, -⟩ | ⟨-, -, made, e⟩ | ⟨hr, -⟩
  · rw [e] at h
    rcases runWriterWith_next _ _ _ _ _ h with ⟨c, -, -, rfl⟩ | ⟨-, -, hready, -⟩
    · exact ⟨c, rfl⟩
    · rw [hf] at hready; cases hready
  · rw [hi] at hr; cases hr
  · rw [e] at h
    rcases bindWriter_cases s i.unitIndex made with ⟨c, -, -, e'⟩ | ⟨⟨-, -, hunbound⟩, -⟩
    · rw [e'] at h; cases h; exact ⟨c, rfl⟩
    · rw [hf] at hunbound; cases hunbound
  · rw [hi] at hr; cases hr

/-- No command changes a FAULTED writer, whichever unit it names. -/
theorem exec_keepsFaulted {i : Instr} {s t : State} {u : Nat} (h : exec i s = .next t)
    (hf : (s.writer u).st = .faulted) : t.writer u = s.writer u := by
  cases hi : i.namesWriter with
  | true =>
    by_cases hu : u = i.unitIndex
    · subst hu
      obtain ⟨c, rfl⟩ := exec_eq_raise_of_faulted hi hf h
      rfl
    · obtain ⟨-, hother, -⟩ := exec_onlyWriterChanged hi h
      exact hother u hu
  | false =>
    obtain ⟨⟨-, -, hwriters⟩, -⟩ := exec_onlyReaderChanged hi h
    simp only [State.writer, hwriters]

end Sys2Proof.Machine
end

section
/-! SUPPORT. A state whose units are sound does not stop (60_exceptions R230; log 8). -/
namespace Sys2Proof.Machine

/-- The decode checks break off at no sound writer. -/
theorem admitWriter_ne_broken {s : State} (hs : s.UnitsSound) (w : Nat) (p : Bool)
    (need : WriterLife) : admitWriter s w p need ≠ .broken := fun h => by
  obtain ⟨hw, -, hready, hunsound⟩ := admitWriter_broken s w p need h
  exact hunsound (hs.2.1 _ (s.writer_mem w hw) hready)

theorem admitReader_ne_broken {s : State} (hs : s.UnitsSound) (r : Nat) (need : ReaderLife) :
    admitReader s r need ≠ .broken := fun h => by
  obtain ⟨hr, -, hready, hunsound⟩ := admitReader_broken s r need h
  exact hunsound (hs.2.2 _ (s.reader_mem r hr) hready)

theorem finishWriter_next (s : State) (w : Nat) (e : WriterEnd) : ∃ t, finishWriter s w e = .next t := by
  cases e <;> exact ⟨_, rfl⟩

theorem finishReader_next (s : State) (r : Nat) (e : ReaderEnd) : ∃ t, finishReader s r e = .next t := by
  cases e <;> exact ⟨_, rfl⟩

theorem runWriterWith_of_unitsSound {s : State} (hs : s.UnitsSound) (w : Nat) (p : Bool)
    (rule : WriterView → WriterEnd) : ∃ t, runWriterWith s w p rule = .next t := by
  unfold runWriterWith
  split
  · exact ⟨_, rfl⟩
  · next hbroken => exact absurd hbroken (admitWriter_ne_broken hs w p _)
  · exact finishWriter_next s w _

theorem runReader_of_unitsSound {s : State} (hs : s.UnitsSound) (r : Nat)
    (rule : ReaderView → ReaderEnd) : ∃ t, runReader s r rule = .next t := by
  unfold runReader
  split
  · exact ⟨_, rfl⟩
  · next hbroken => exact absurd hbroken (admitReader_ne_broken hs r _)
  · exact finishReader_next s r _

/-- A construction command ends in every state: it asks for an UNBOUND unit. -/
theorem bindWriter_next (s : State) (w : Nat) (made : Except Cause Writer) :
    ∃ t, bindWriter s w made = .next t := by
  rcases bindWriter_cases s w made with ⟨c, -, -, e⟩ | ⟨-, ⟨c, -, e⟩ | ⟨x, -, e⟩⟩ <;> exact ⟨_, e⟩

theorem bindReader_next (s : State) (r : Nat) (made : Except Cause Reader) :
    ∃ t, bindReader s r made = .next t := by
  rcases bindReader_cases s r made with ⟨c, -, -, e⟩ | ⟨-, ⟨c, -, e⟩ | ⟨x, -, e⟩⟩ <;> exact ⟨_, e⟩

/-- Every command ends, whatever it finds in sound units. -/
theorem exec_of_unitsSound (i : Instr) {s : State} (hs : s.UnitsSound) : ∃ t, exec i s = .next t := by
  rcases exec_shape i s with
    ⟨-, -, rule, e⟩ | ⟨-, -, rule, e⟩ | ⟨-, -, made, e⟩ | ⟨-, -, made, e⟩ <;> rw [e]
  · exact runWriterWith_of_unitsSound hs _ _ rule
  · exact runReader_of_unitsSound hs _ rule
  · exact bindWriter_next s _ made
  · exact bindReader_next s _ made

end Sys2Proof.Machine
end

section
open Sys2Proof Sys2Proof.Machine

/-- Settles O48: a failure is its response and nothing else; no cause but "none" has the status OK, whose
flag is the one that is never set. -/
theorem raiseRecordsTheFailure : Obligations.RaiseRecordsTheFailure := by
  refine ⟨fun c => by cases c <;> rfl, fun s c hc => ?_⟩
  refine ⟨rfl, rfl, rfl, rfl, fun k => ?_, ⟨rfl, rfl, rfl⟩, rfl, rfl, rfl, rfl⟩
  have hpos : c.status.code.toNat ≠ 0 := fun h =>
    hc ((Cause.status_eq_ok_iff c).1 ((Status.code_eq_zero_iff _).1 h))
  rw [(responded_raise s s c rfl).getLsbD_errlog, State.raise_status]
  by_cases hk : k = c.status.code.toNat
  · subst hk; simp [hpos]
  · simp [hk]

/-- Settles O55: every command's end is accounted for by a cause, which its status goes with. -/
theorem causesPerCommand : Obligations.CausesPerCommand :=
  fun _ _ _ h => ⟨(exec_ended h).responded.status.symm, (exec_caused h).cause_mem⟩

/-- Settles O49: what ends with neither OK nor the fault has only raised a cause. -/
theorem errorsArePrecise : Obligations.ErrorsArePrecise := by
  intro s t p rest hhost hstep hok hfault
  have hraised : ∃ c, t = (s.take p rest).raise c := by
    rw [step_command hhost] at hstep
    cases hd : decodeWord p.cmd with
    | error e =>
      rw [runPacket_of_decode_error (s := s.take p rest) hd] at hstep
      cases hstep
      exact ⟨_, rfl⟩
    | ok i =>
      rw [runPacket_of_decode_ok (s := s.take p rest) hd] at hstep
      exact (exec_caused hstep).eq_raise hok hfault
  obtain ⟨c, rfl⟩ := hraised
  exact ⟨⟨rfl, rfl, rfl⟩, rfl, rfl, rfl⟩

/-- Settles O50: the fault has one cause; the decode checks let no command reach a FAULTED writer; and a
command that names another unit commutes with making the writer FAULTED. -/
theorem resizeFaultAndTheFaultedUnit : Obligations.ResizeFaultAndTheFaultedUnit := by
  refine ⟨fun i s t h hfault => ?_, fun i s hi hu hp hf => ?_, fun s t u hstep hf hreset hduring => ?_,
    fun i s t u hother h => ?_⟩
  · obtain ⟨hu, ⟨hresize, hmode, hfull⟩, rfl⟩ := (exec_caused h).eq_raiseFault hfault
    exact ⟨i.unitIndex, hresize, hmode, hfull, rfl, rfl, rfl, State.writer_setWriter_self s _ _ hu,
      onlyWriterChanged_setWriter s _ _, rfl⟩
  · obtain ⟨-, -, hfaulted, -⟩ :=
      admitWriter_order s i.unitIndex (payloadFits i s.pkt) (writerNeed i)
    exact exec_of_admitWriter_refuse hi (hfaulted hu hp hf)
  · rcases step_cases s with ⟨-, e⟩ | ⟨p, rest, err, -, -, e⟩ | ⟨p, rest, i, -, -, e⟩ |
      ⟨a, v, rest, -, e⟩ | ⟨rest, hhost, -⟩ | ⟨p, rest, hhost, -⟩
    · rw [e] at hstep; cases hstep; rfl
    · rw [e] at hstep; cases hstep; rfl
    · rw [e] at hstep
      exact exec_keepsFaulted (s := s.take p rest) hstep hf
    · rw [e] at hstep; cases hstep; rfl
    · exact absurd hhost (hreset rest)
    · exact absurd hhost (hduring p rest)
  · have hcommutes := exec_mapWriter_other i s u (fun x => { x with st := .faulted }) hother
    rw [h] at hcommutes
    exact hcommutes

/-- Settles O15: only a command could stop the machine, and commands end in states with sound units. -/
theorem soundStatesAlwaysStep : Obligations.SoundStatesAlwaysStep := by
  intro s hs
  rcases step_cases s with ⟨-, e⟩ | ⟨p, rest, err, -, -, e⟩ | ⟨p, rest, i, -, -, e⟩ |
    ⟨a, v, rest, -, e⟩ | ⟨rest, -, e⟩ | ⟨p, rest, -, e⟩ <;> rw [e]
  · exact ⟨_, rfl⟩
  · exact ⟨_, rfl⟩
  · exact exec_of_unitsSound i (s := s.take p rest) hs
  · exact ⟨_, rfl⟩
  · exact ⟨_, rfl⟩
  · exact ⟨_, rfl⟩

end

section
/-! SUPPORT. The host's acts other than a command, and what a command abandoned by reset leaves in XMEM
(70_reset_and_hazards R270, R278; log 11). -/
namespace Sys2Proof.Machine

/-! ### The step of each act -/

theorem step_idle {s : State} (h : s.host = []) : step s = .next s := by
  unfold step; rw [h]

theorem step_store {s : State} {a : Word} {v : Byte} {rest : List HostAct}
    (h : s.host = .store a v :: rest) : step s = .next (s.hostStore a v rest) := by
  unfold step; rw [h]

theorem step_resetDuring {s : State} {p : Packet} {rest : List HostAct}
    (h : s.host = .resetDuring p :: rest) :
    step s = .next (s.abandon p rest (decodeWord p.cmd, runPacket (s.take p rest))) := by
  unfold step; rw [h]

/-! ### XMEM after an abandoned command -/

/-- Every byte from the first to the last one of a span of bits holds a bit of the span. -/
theorem exists_bit_of_byte_in_span {lo hi k : Nat} (hspan : lo < hi) (hfirst : lo / 8 ≤ k)
    (hlast : k < ceil8 hi) : ∃ j, lo ≤ j ∧ j < hi ∧ j / 8 = k := by
  have hstart : 8 * k < hi := Nat.lt_of_not_le fun h => absurd ((ceil8_le_iff hi k).2 h) (by omega)
  exact ⟨max lo (8 * k), by omega, by omega, by omega⟩

section
variable {s : State} {i : Instr} {p : Packet}

theorem abandonedXmem_of_reader (h : i.namesWriter = false) : abandonedXmem s i p = s.xmem := by
  rcases abandonedXmem_cases s i p with e | ⟨lo, hi, hspan, hlt, -, -⟩
  · exact e
  · rw [writeSpan_reader i p _ h] at hspan
    cases hspan
    exact absurd hlt (Nat.lt_irrefl 0)

theorem abandonedXmem_of_not_external (h : (s.writer i.unitIndex).mode ≠ .external) :
    abandonedXmem s i p = s.xmem := by
  rcases abandonedXmem_cases s i p with e | ⟨_, _, -, -, hmode, -⟩
  · exact e
  · exact absurd hmode h

/-- The free bytes start at the byte of the span's first bit and end at the byte of its last. -/
theorem read_abandonedXmem_outside {a : Nat}
    (h : ∀ k, (writeSpan i p (s.writer i.unitIndex)).1 ≤ k →
      k < (writeSpan i p (s.writer i.unitIndex)).2 →
      a ≠ regionAddr (s.writer i.unitIndex).base (k / 8)) :
    (abandonedXmem s i p).read a = s.xmem.read a := by
  rcases abandonedXmem_cases s i p with e | ⟨lo, hi, hspan, hlt, -, e⟩ <;> rw [e]
  rw [hspan] at h
  rw [read_freeBytes, if_neg]
  rintro ⟨hfrom, hbelow⟩
  unfold regionAddr at h hfrom hbelow
  obtain ⟨k, hk⟩ := Nat.exists_eq_add_of_le (Nat.le_of_add_right_le hfrom)
  obtain ⟨j, hlo, hhi, hbyte⟩ := exists_bit_of_byte_in_span (k := k) hlt (by omega) (by omega)
  exact h j hlo hhi (by rw [hbyte, hk])

end

/-- XMEM differs after a command abandoned by reset only if the packet is a command that would have ended
with OK. -/
theorem abandon_packet_spec (s : State) (p : Packet) (rest : List HostAct) :
    ∃ m, s.abandon p rest (decodeWord p.cmd, runPacket (s.take p rest)) =
        State.applyReset { s with xmem := m, host := rest, freeCtr := s.freeCtr + 1 } ∧
      (m = s.xmem ∨ ∃ i, decodeWord p.cmd = .ok i ∧
        (∃ t, runPacket (s.take p rest) = .next t ∧ t.status = .ok) ∧ m = abandonedXmem s i p) := by
  obtain ⟨m, e, hm⟩ := abandon_spec s p rest (decodeWord p.cmd, runPacket (s.take p rest))
  refine ⟨m, e, hm.imp_right ?_⟩
  rintro ⟨i, t, hf, hok, hx⟩
  obtain ⟨hword, hrun⟩ := Prod.mk.inj hf
  exact ⟨i, hword, ⟨t, hrun, hok⟩, hx⟩

theorem eq_reset_of_mem_applyReset_writers {s : State} {x : Writer} (h : x ∈ s.applyReset.writers) :
    x = Writer.reset := by
  obtain ⟨-, -, rfl⟩ := List.mem_map.1 h
  rfl

theorem eq_reset_of_mem_applyReset_readers {s : State} {x : Reader} (h : x ∈ s.applyReset.readers) :
    x = Reader.reset := by
  obtain ⟨-, -, rfl⟩ := List.mem_map.1 h
  rfl

end Sys2Proof.Machine
end

section
open Sys2Proof Sys2Proof.Machine

/-- Settles O9: the packet either leaves XMEM as it was, or is a command that would have ended with OK,
whose free bytes lie in the span of its rule; a reader command and one of OWNED storage have none. -/
theorem resetDuringACommandIsConfined : Obligations.ResetDuringACommandIsConfined := by
  intro s p rest hhost
  obtain ⟨m, e, hm⟩ := abandon_packet_spec s p rest
  refine ⟨_, (step_resetDuring hhost).trans (congrArg _ e),
    fun _ => eq_reset_of_mem_applyReset_writers, fun _ => eq_reset_of_mem_applyReset_readers,
    State.nw_applyReset _, State.nr_applyReset _, rfl, rfl, rfl, rfl, rfl, rfl, rfl, ?_⟩
  simp only [State.applyReset_xmem]
  rcases hm with rfl | ⟨i, hword, hok, rfl⟩
  · exact ⟨fun _ _ => rfl, fun _ => rfl, fun _ _ _ => rfl, fun _ _ _ => rfl, fun _ _ _ _ => rfl⟩
  · rw [hword]
    refine ⟨fun _ herr => absurd herr (by simp), fun hnot => absurd hok hnot, ?_, ?_, ?_⟩ <;> rintro _ ⟨⟩
    · exact abandonedXmem_of_reader
    · exact abandonedXmem_of_not_external
    · exact fun a => read_abandonedXmem_outside

/-- Settles O7: the store's one byte is all that a host store changes. -/
theorem idleStepsAndHostStores : Obligations.IdleStepsAndHostStores := by
  refine ⟨fun s => step_idle, fun s a v rest hhost => ⟨_, step_store hhost, rfl, ?_, fun b hb => ?_⟩⟩
  · exact Memory.read_write_same s.xmem a.toNat v
  · exact Memory.read_write_other s.xmem a.toNat b v hb

end
